-- ==== Sys2Proof/Word.lean ====
section
/-! DEFINITION. The word types of PSG-CORE and the two small shapes every other file uses: a value per stereo
side, and a positive period. Widths are those of 00_scope.md rule R12. -/

namespace Sys2Proof

/-- An 8-bit register value (20_memory.md R69). -/
abbrev Byte := BitVec 8

/-- A 5-bit waveform sample, waveform index or attenuation (00_scope.md R12). -/
abbrev Sample := BitVec 5

/-- A channel number, 0 to 5 (00_scope.md R7). -/
abbrev ChanIdx := Fin 6

/-- A stereo side; index 0 of the spec is left, index 1 is right (00_scope.md R19, glossary entry side). -/
inductive Side where
  | left
  | right
  deriving DecidableEq, Repr

/-- A value for each stereo side, the spec's two-element arrays `x[0..1]`. -/
structure Stereo (α : Type) where
  left : α
  right : α
  deriving DecidableEq, Repr

/-- Element `x[side]` of a stereo pair. -/
def Stereo.get {α : Type} (x : Stereo α) : Side → α
  | .left => x.left
  | .right => x.right

/-- The pair `x` with element `x[side]` replaced. -/
def Stereo.set {α : Type} (x : Stereo α) : Side → α → Stereo α
  | .left, v => { x with left := v }
  | .right, v => { x with right := v }

/-- A period in ticks: a positive integer (10_state.md R39 and R41). -/
structure Period where
  ticks : Nat
  pos : 0 < ticks
  deriving DecidableEq, Repr

end Sys2Proof
end

