-- ==== Sys2Proof/Config.lean ====
section
/-! DEFINITION. The parameters that fix the size of the machine, and the type of the gain. The numeric parameters a rule computes with
(cutoff, kernel, balance scale, crossfade durations) stand in Machine/Tables.lean, the gain and the envelope in
Machine/Envelope.lean. -/

namespace Sys2Proof

/-- `HR_MASK`, the mask of the buffer base index (00_scope.md R11, 43_injector.md R145).
DESIGN CHOICE (log 11, unsafe): the spec's default. -/
def Config.hrMask : Nat := 0xFFFF

/-- `HR_LEN` of the buffers the reset machine and an operand-less `NEW` have: the least length rule R78 of
20_memory.md allows. DESIGN CHOICE (log 2, unsafe): the spec leaves the length to the host. -/
def Config.hrLen : Nat := Config.hrMask + 7

/-- A value of the parameter `GAIN`: a positive rational number (00_scope.md R9, 93_implementation_defined.md
section 2). -/
structure Gain where
  num : Nat
  den : Nat
  num_pos : 0 < num
  den_pos : 0 < den
  deriving DecidableEq, Repr

end Sys2Proof
end

