-- ==== Sys2Proof/Syntax.lean ====
section
/-! DEFINITION. The operations of PSG-CORE: one constructor of `Instr` per row of spec/opcode_table.json, with the
types of their operands (30_encoding.md R86 to R88, R101; 47_lifecycle_host.md R234). -/

namespace Sys2Proof

/-- The two revisions (00_scope.md R8). -/
inductive Rev where
  | rev0
  | revA
  deriving DecidableEq, Repr

/-- The output functions of a channel (42_output_function.md R127). -/
inductive OutFn where
  | off
  | normal
  | noise
  | accumulate
  deriving DecidableEq, Repr

/-- A host-owned high-resolution buffer `HR[s]`: its length in cells and the cells that do not hold 0, as
(cell number, value) pairs (20_memory.md R66). DESIGN CHOICE (log 3, safe): a cell that is not listed holds 0. -/
structure Memory where
  len : Nat
  cells : List (Nat × Int)
  deriving DecidableEq, Repr

/-- The per-channel field identifiers of the debug path (30_encoding.md R101). -/
inductive ChanField where
  | freq | ctrl | balance | nctrl | windex | ddalatch | acc | counter | freqcache | ncount | nfreqcache | lfsr
  | attL | attR | prevL | prevR | ofn | lastts
  deriving DecidableEq, Repr

/-- The global field identifiers of the debug path (30_encoding.md R101). -/
inductive GlobField where
  | select | gbal | lfofreq | lfoctrl | glastts | xfPending | xfCountdown | xfPhase | xfLatch
  deriving DecidableEq, Repr

/-- A field identifier with its channel, if it has one (30_encoding.md R101). -/
inductive FieldId where
  | chan (c : ChanIdx) (f : ChanField)
  | glob (f : GlobField)
  deriving DecidableEq, Repr

/-- The per-channel part of a state record (47_lifecycle_host.md R234). A record may hold any integers: `LoadState`
masks and repairs them (R235). -/
structure ChanRecord where
  frequency : Int
  control : Int
  balance : Int
  noiseControl : Int
  waveform : Vector Int 32
  waveformIndex : Int
  ddaLatch : Int
  sampleAccumulator : Int
  counter : Int
  freqCache : Int
  noiseCount : Int
  noiseFreqCache : Int
  lfsr : Int
  attenuation : Stereo Int
  prev : Stereo Int
  outputFunction : OutFn
  lastTs : Int
  deriving DecidableEq, Repr

/-- A state record: the abstract tuple of every field of 10_state.md R21 to R46 (47_lifecycle_host.md R234). -/
structure Record where
  select : Int
  globalBalance : Int
  lfoFrequency : Int
  lfoControl : Int
  lastTs : Int
  xfPending : Bool
  xfCountdown : Int
  xfPhase : Int
  xfLatch : Int
  ch : Vector ChanRecord 6
  deriving DecidableEq, Repr

/-- The operations, one constructor per row of spec/opcode_table.json. `ts` is the timestamp operand `T` of
30_encoding.md R86, `value` the byte `d` of a register write. -/
inductive Instr where
  | wSelect (ts : Int) (value : Byte)
  | wGbal (ts : Int) (value : Byte)
  | wFreqLo (ts : Int) (value : Byte)
  | wFreqHi (ts : Int) (value : Byte)
  | wCtrl (ts : Int) (value : Byte)
  | wBal (ts : Int) (value : Byte)
  | wWave (ts : Int) (value : Byte)
  | wNoise (ts : Int) (value : Byte)
  | wLfofreq (ts : Int) (value : Byte)
  | wLfoctrl (ts : Int) (value : Byte)
  | wRsvdA (ts : Int) (value : Byte)
  | wRsvdB (ts : Int) (value : Byte)
  | wRsvdC (ts : Int) (value : Byte)
  | wRsvdD (ts : Int) (value : Byte)
  | wRsvdE (ts : Int) (value : Byte)
  | wRsvdF (ts : Int) (value : Byte)
  | upd (ts : Int)
  | pwr (ts : Int)
  | rts (base : Int)
  | getreg (id : FieldId)
  | setreg (id : FieldId) (v : Int)
  | peek (c : ChanIdx) (i : Byte)
  | poke (c : ChanIdx) (i : Byte) (v : Int)
  | save
  | load (r : Record)
  | constructRev0 (hr : Stereo Memory)
  | constructRevA (hr : Stereo Memory)
  deriving DecidableEq, Repr

/-- An operation as the host writes it down: the 16-bit command word `cw`, the integer operand `T`, and the separate
operands of LOAD (a record) and CONSTRUCT (two buffers) (30_encoding.md R86 and R87). -/
structure Command where
  cw : BitVec 16
  t : Int
  record : Record
  hr : Stereo Memory
  deriving DecidableEq, Repr

end Sys2Proof
end

