-- ==== Sys2Proof/Machine/Tables.lean ====
section
/-! DEFINITION. The numbers of PSG-CORE: constants (00_scope.md R11), the injector kernel (43_injector.md R143), the
balance scale (45_update_scheduler.md R185) and the tabulated envelopes (48_envelope_default_tables.md R250 to R252).
DESIGN CHOICE (log 11, unsafe): each is the spec's default of a named parameter. -/

namespace Sys2Proof.Machine

/-- `CUTOFF` (00_scope.md R11). -/
def cutoff : Nat := 10

/-- `XFADE_STEPS` (00_scope.md R11, 45_update_scheduler.md R194). -/
def xfadeSteps : Nat := 24

/-- `XF_AFTER_SAMPLE` (45_update_scheduler.md R188). -/
def xfAfterSample : Nat := 255

/-- `XF_AFTER_COMMIT` (45_update_scheduler.md R188). -/
def xfAfterCommit : Nat := 1

/-- `ACC_CENTER` (42_output_function.md R134). -/
def accCenter : Rev → Int
  | .rev0 => 0
  | .revA => 496

/-- `KERNEL[row]` (43_injector.md R143). -/
def kernel (row : Nat) : List Int :=
  if row = 0 then [35, 250, 579, 641, 425, 112, 6] else [6, 112, 425, 641, 579, 250, 35]

/-- `BAL_SCALE` (45_update_scheduler.md R185). -/
def balScaleTable : List Nat :=
  [0x00, 0x03, 0x05, 0x07, 0x09, 0x0B, 0x0D, 0x0F, 0x10, 0x13, 0x15, 0x17, 0x19, 0x1B, 0x1D, 0x1F]

/-- `BAL_SCALE[n]`. -/
def balScale (n : Nat) : Nat := balScaleTable.getD n 0

/-- The tabulated `ENVVOL` for `GAIN = 1` (48_envelope_default_tables.md R250). -/
def envVolTable : List Int := [
  87381, 73478, 61787, 51957, 43690, 36739, 30893, 25978,
  21845, 18369, 15446, 12989, 10922, 9184, 7723, 6494,
  5461, 4592, 3861, 3247, 2730, 2296, 1930, 1623,
  1365, 1148, 965, 811, 682, 574, 482, 0]


/-- `ENV` for REV_0 (48_envelope_default_tables.md R251), attenuations 0 to 7. -/
def envRev0Rows0 : List (List Int) := [
  [0, 341, 682, 1024, 1365, 1706, 2048, 2389, 2730, 3072, 3413, 3754, 4096, 4437, 4778, 5120,
   5461, 5802, 6144, 6485, 6826, 7168, 7509, 7850, 8192, 8533, 8874, 9216, 9557, 9898, 10240, 10581],
  [0, 287, 574, 861, 1148, 1435, 1722, 2009, 2296, 2583, 2870, 3157, 3444, 3731, 4018, 4305,
   4592, 4879, 5166, 5453, 5740, 6027, 6314, 6601, 6888, 7175, 7462, 7749, 8036, 8323, 8610, 8897],
  [0, 241, 482, 724, 965, 1206, 1448, 1689, 1930, 2172, 2413, 2654, 2896, 3137, 3379, 3620,
   3861, 4103, 4344, 4585, 4827, 5068, 5309, 5551, 5792, 6033, 6275, 6516, 6758, 6999, 7240, 7482],
  [0, 202, 405, 608, 811, 1014, 1217, 1420, 1623, 1826, 2029, 2232, 2435, 2638, 2841, 3044,
   3247, 3450, 3653, 3856, 4059, 4262, 4465, 4668, 4870, 5073, 5276, 5479, 5682, 5885, 6088, 6291],
  [0, 170, 341, 512, 682, 853, 1024, 1194, 1365, 1536, 1706, 1877, 2048, 2218, 2389, 2560,
   2730, 2901, 3072, 3242, 3413, 3584, 3754, 3925, 4096, 4266, 4437, 4608, 4778, 4949, 5120, 5290],
  [0, 143, 287, 430, 574, 717, 861, 1004, 1148, 1291, 1435, 1578, 1722, 1865, 2009, 2152,
   2296, 2439, 2583, 2726, 2870, 3013, 3157, 3300, 3444, 3587, 3731, 3874, 4018, 4161, 4305, 4448],
  [0, 120, 241, 362, 482, 603, 724, 844, 965, 1086, 1206, 1327, 1448, 1568, 1689, 1810,
   1930, 2051, 2172, 2292, 2413, 2534, 2654, 2775, 2896, 3016, 3137, 3258, 3379, 3499, 3620, 3741],
  [0, 101, 202, 304, 405, 507, 608, 710, 811, 913, 1014, 1116, 1217, 1319, 1420, 1522,
   1623, 1725, 1826, 1928, 2029, 2131, 2232, 2334, 2435, 2536, 2638, 2739, 2841, 2942, 3044, 3145]]

/-- `ENV` for REV_0 (48_envelope_default_tables.md R251), attenuations 8 to 15. -/
def envRev0Rows1 : List (List Int) := [
  [0, 85, 170, 256, 341, 426, 512, 597, 682, 768, 853, 938, 1024, 1109, 1194, 1280,
   1365, 1450, 1536, 1621, 1706, 1792, 1877, 1962, 2048, 2133, 2218, 2304, 2389, 2474, 2560, 2645],
  [0, 71, 143, 215, 287, 358, 430, 502, 574, 645, 717, 789, 861, 932, 1004, 1076,
   1148, 1219, 1291, 1363, 1435, 1506, 1578, 1650, 1722, 1793, 1865, 1937, 2009, 2080, 2152, 2224],
  [0, 60, 120, 181, 241, 301, 362, 422, 482, 543, 603, 663, 724, 784, 844, 905,
   965, 1025, 1086, 1146, 1206, 1267, 1327, 1387, 1448, 1508, 1568, 1629, 1689, 1749, 1810, 1870],
  [0, 50, 101, 152, 202, 253, 304, 355, 405, 456, 507, 558, 608, 659, 710, 761,
   811, 862, 913, 964, 1014, 1065, 1116, 1167, 1217, 1268, 1319, 1369, 1420, 1471, 1522, 1572],
  [0, 42, 85, 128, 170, 213, 256, 298, 341, 384, 426, 469, 512, 554, 597, 640,
   682, 725, 768, 810, 853, 896, 938, 981, 1024, 1066, 1109, 1152, 1194, 1237, 1280, 1322],
  [0, 35, 71, 107, 143, 179, 215, 251, 287, 322, 358, 394, 430, 466, 502, 538,
   574, 609, 645, 681, 717, 753, 789, 825, 861, 896, 932, 968, 1004, 1040, 1076, 1112],
  [0, 30, 60, 90, 120, 150, 181, 211, 241, 271, 301, 331, 362, 392, 422, 452,
   482, 512, 543, 573, 603, 633, 663, 693, 724, 754, 784, 814, 844, 874, 905, 935],
  [0, 25, 50, 76, 101, 126, 152, 177, 202, 228, 253, 279, 304, 329, 355, 380,
   405, 431, 456, 482, 507, 532, 558, 583, 608, 634, 659, 684, 710, 735, 761, 786]]

/-- `ENV` for REV_0 (48_envelope_default_tables.md R251), attenuations 16 to 23. -/
def envRev0Rows2 : List (List Int) := [
  [0, 21, 42, 64, 85, 106, 128, 149, 170, 192, 213, 234, 256, 277, 298, 320,
   341, 362, 384, 405, 426, 448, 469, 490, 512, 533, 554, 576, 597, 618, 640, 661],
  [0, 17, 35, 53, 71, 89, 107, 125, 143, 161, 179, 197, 215, 233, 251, 269,
   287, 304, 322, 340, 358, 376, 394, 412, 430, 448, 466, 484, 502, 520, 538, 556],
  [0, 15, 30, 45, 60, 75, 90, 105, 120, 135, 150, 165, 181, 196, 211, 226,
   241, 256, 271, 286, 301, 316, 331, 346, 362, 377, 392, 407, 422, 437, 452, 467],
  [0, 12, 25, 38, 50, 63, 76, 88, 101, 114, 126, 139, 152, 164, 177, 190,
   202, 215, 228, 241, 253, 266, 279, 291, 304, 317, 329, 342, 355, 367, 380, 393],
  [0, 10, 21, 32, 42, 53, 64, 74, 85, 96, 106, 117, 128, 138, 149, 160,
   170, 181, 192, 202, 213, 224, 234, 245, 256, 266, 277, 288, 298, 309, 320, 330],
  [0, 8, 17, 26, 35, 44, 53, 62, 71, 80, 89, 98, 107, 116, 125, 134,
   143, 152, 161, 170, 179, 188, 197, 206, 215, 224, 233, 242, 251, 260, 269, 278],
  [0, 7, 15, 22, 30, 37, 45, 52, 60, 67, 75, 82, 90, 98, 105, 113,
   120, 128, 135, 143, 150, 158, 165, 173, 181, 188, 196, 203, 211, 218, 226, 233],
  [0, 6, 12, 19, 25, 31, 38, 44, 50, 57, 63, 69, 76, 82, 88, 95,
   101, 107, 114, 120, 126, 133, 139, 145, 152, 158, 164, 171, 177, 183, 190, 196]]

/-- `ENV` for REV_0 (48_envelope_default_tables.md R251), attenuations 24 to 31. -/
def envRev0Rows3 : List (List Int) := [
  [0, 5, 10, 16, 21, 26, 32, 37, 42, 48, 53, 58, 64, 69, 74, 80,
   85, 90, 96, 101, 106, 112, 117, 122, 128, 133, 138, 144, 149, 154, 160, 165],
  [0, 4, 8, 13, 17, 22, 26, 31, 35, 40, 44, 49, 53, 58, 62, 67,
   71, 76, 80, 85, 89, 94, 98, 103, 107, 112, 116, 121, 125, 130, 134, 139],
  [0, 3, 7, 11, 15, 18, 22, 26, 30, 33, 37, 41, 45, 49, 52, 56,
   60, 64, 67, 71, 75, 79, 82, 86, 90, 94, 98, 101, 105, 109, 113, 116],
  [0, 3, 6, 9, 12, 15, 19, 22, 25, 28, 31, 34, 38, 41, 44, 47,
   50, 53, 57, 60, 63, 66, 69, 72, 76, 79, 82, 85, 88, 91, 95, 98],
  [0, 2, 5, 8, 10, 13, 16, 18, 21, 24, 26, 29, 32, 34, 37, 40,
   42, 45, 48, 50, 53, 56, 58, 61, 64, 66, 69, 72, 74, 77, 80, 82],
  [0, 2, 4, 6, 8, 11, 13, 15, 17, 20, 22, 24, 26, 29, 31, 33,
   35, 38, 40, 42, 44, 47, 49, 51, 53, 56, 58, 60, 62, 65, 67, 69],
  [0, 1, 3, 5, 7, 9, 11, 13, 15, 16, 18, 20, 22, 24, 26, 28,
   30, 32, 33, 35, 37, 39, 41, 43, 45, 47, 49, 50, 52, 54, 56, 58],
  [0, 0, 0, 0, 0, 0, 0, 0, 0, 0, 0, 0, 0, 0, 0, 0,
   0, 0, 0, 0, 0, 0, 0, 0, 0, 0, 0, 0, 0, 0, 0, 0]]

/-- `ENV` for REV_0 (48_envelope_default_tables.md R251): row = attenuation, column = sample. -/
def envRev0Table : List (List Int) :=
  envRev0Rows0 ++ envRev0Rows1 ++ envRev0Rows2 ++ envRev0Rows3

/-- `ENV` for REV_A (48_envelope_default_tables.md R252), attenuations 0 to 7. -/
def envRevARows0 : List (List Int) := [
  [-5290, -4949, -4608, -4266, -3925, -3584, -3242, -2901, -2560, -2218, -1877, -1536, -1194, -853, -512, -170,
   170, 512, 853, 1194, 1536, 1877, 2218, 2560, 2901, 3242, 3584, 3925, 4266, 4608, 4949, 5290],
  [-4448, -4161, -3874, -3587, -3300, -3013, -2726, -2439, -2152, -1865, -1578, -1291, -1004, -717, -430, -143,
   143, 430, 717, 1004, 1291, 1578, 1865, 2152, 2439, 2726, 3013, 3300, 3587, 3874, 4161, 4448],
  [-3741, -3499, -3258, -3016, -2775, -2534, -2292, -2051, -1810, -1568, -1327, -1086, -844, -603, -362, -120,
   120, 362, 603, 844, 1086, 1327, 1568, 1810, 2051, 2292, 2534, 2775, 3016, 3258, 3499, 3741],
  [-3145, -2942, -2739, -2536, -2334, -2131, -1928, -1725, -1522, -1319, -1116, -913, -710, -507, -304, -101,
   101, 304, 507, 710, 913, 1116, 1319, 1522, 1725, 1928, 2131, 2334, 2536, 2739, 2942, 3145],
  [-2645, -2474, -2304, -2133, -1962, -1792, -1621, -1450, -1280, -1109, -938, -768, -597, -426, -256, -85,
   85, 256, 426, 597, 768, 938, 1109, 1280, 1450, 1621, 1792, 1962, 2133, 2304, 2474, 2645],
  [-2224, -2080, -1937, -1793, -1650, -1506, -1363, -1219, -1076, -932, -789, -645, -502, -358, -215, -71,
   71, 215, 358, 502, 645, 789, 932, 1076, 1219, 1363, 1506, 1650, 1793, 1937, 2080, 2224],
  [-1870, -1749, -1629, -1508, -1387, -1267, -1146, -1025, -905, -784, -663, -543, -422, -301, -181, -60,
   60, 181, 301, 422, 543, 663, 784, 905, 1025, 1146, 1267, 1387, 1508, 1629, 1749, 1870],
  [-1572, -1471, -1369, -1268, -1167, -1065, -964, -862, -761, -659, -558, -456, -355, -253, -152, -50,
   50, 152, 253, 355, 456, 558, 659, 761, 862, 964, 1065, 1167, 1268, 1369, 1471, 1572]]

/-- `ENV` for REV_A (48_envelope_default_tables.md R252), attenuations 8 to 15. -/
def envRevARows1 : List (List Int) := [
  [-1322, -1237, -1152, -1066, -981, -896, -810, -725, -640, -554, -469, -384, -298, -213, -128, -42,
   42, 128, 213, 298, 384, 469, 554, 640, 725, 810, 896, 981, 1066, 1152, 1237, 1322],
  [-1112, -1040, -968, -896, -825, -753, -681, -609, -538, -466, -394, -322, -251, -179, -107, -35,
   35, 107, 179, 251, 322, 394, 466, 538, 609, 681, 753, 825, 896, 968, 1040, 1112],
  [-935, -874, -814, -754, -693, -633, -573, -512, -452, -392, -331, -271, -211, -150, -90, -30,
   30, 90, 150, 211, 271, 331, 392, 452, 512, 573, 633, 693, 754, 814, 874, 935],
  [-786, -735, -684, -634, -583, -532, -482, -431, -380, -329, -279, -228, -177, -126, -76, -25,
   25, 76, 126, 177, 228, 279, 329, 380, 431, 482, 532, 583, 634, 684, 735, 786],
  [-661, -618, -576, -533, -490, -448, -405, -362, -320, -277, -234, -192, -149, -106, -64, -21,
   21, 64, 106, 149, 192, 234, 277, 320, 362, 405, 448, 490, 533, 576, 618, 661],
  [-556, -520, -484, -448, -412, -376, -340, -304, -269, -233, -197, -161, -125, -89, -53, -17,
   17, 53, 89, 125, 161, 197, 233, 269, 304, 340, 376, 412, 448, 484, 520, 556],
  [-467, -437, -407, -377, -346, -316, -286, -256, -226, -196, -165, -135, -105, -75, -45, -15,
   15, 45, 75, 105, 135, 165, 196, 226, 256, 286, 316, 346, 377, 407, 437, 467],
  [-393, -367, -342, -317, -291, -266, -241, -215, -190, -164, -139, -114, -88, -63, -38, -12,
   12, 38, 63, 88, 114, 139, 164, 190, 215, 241, 266, 291, 317, 342, 367, 393]]

/-- `ENV` for REV_A (48_envelope_default_tables.md R252), attenuations 16 to 23. -/
def envRevARows2 : List (List Int) := [
  [-330, -309, -288, -266, -245, -224, -202, -181, -160, -138, -117, -96, -74, -53, -32, -10,
   10, 32, 53, 74, 96, 117, 138, 160, 181, 202, 224, 245, 266, 288, 309, 330],
  [-278, -260, -242, -224, -206, -188, -170, -152, -134, -116, -98, -80, -62, -44, -26, -8,
   8, 26, 44, 62, 80, 98, 116, 134, 152, 170, 188, 206, 224, 242, 260, 278],
  [-233, -218, -203, -188, -173, -158, -143, -128, -113, -98, -82, -67, -52, -37, -22, -7,
   7, 22, 37, 52, 67, 82, 98, 113, 128, 143, 158, 173, 188, 203, 218, 233],
  [-196, -183, -171, -158, -145, -133, -120, -107, -95, -82, -69, -57, -44, -31, -19, -6,
   6, 19, 31, 44, 57, 69, 82, 95, 107, 120, 133, 145, 158, 171, 183, 196],
  [-165, -154, -144, -133, -122, -112, -101, -90, -80, -69, -58, -48, -37, -26, -16, -5,
   5, 16, 26, 37, 48, 58, 69, 80, 90, 101, 112, 122, 133, 144, 154, 165],
  [-139, -130, -121, -112, -103, -94, -85, -76, -67, -58, -49, -40, -31, -22, -13, -4,
   4, 13, 22, 31, 40, 49, 58, 67, 76, 85, 94, 103, 112, 121, 130, 139],
  [-116, -109, -101, -94, -86, -79, -71, -64, -56, -49, -41, -33, -26, -18, -11, -3,
   3, 11, 18, 26, 33, 41, 49, 56, 64, 71, 79, 86, 94, 101, 109, 116],
  [-98, -91, -85, -79, -72, -66, -60, -53, -47, -41, -34, -28, -22, -15, -9, -3,
   3, 9, 15, 22, 28, 34, 41, 47, 53, 60, 66, 72, 79, 85, 91, 98]]

/-- `ENV` for REV_A (48_envelope_default_tables.md R252), attenuations 24 to 31. -/
def envRevARows3 : List (List Int) := [
  [-82, -77, -72, -66, -61, -56, -50, -45, -40, -34, -29, -24, -18, -13, -8, -2,
   2, 8, 13, 18, 24, 29, 34, 40, 45, 50, 56, 61, 66, 72, 77, 82],
  [-69, -65, -60, -56, -51, -47, -42, -38, -33, -29, -24, -20, -15, -11, -6, -2,
   2, 6, 11, 15, 20, 24, 29, 33, 38, 42, 47, 51, 56, 60, 65, 69],
  [-58, -54, -50, -47, -43, -39, -35, -32, -28, -24, -20, -16, -13, -9, -5, -1,
   1, 5, 9, 13, 16, 20, 24, 28, 32, 35, 39, 43, 47, 50, 54, 58],
  [-49, -45, -42, -39, -36, -33, -30, -26, -23, -20, -17, -14, -11, -7, -4, -1,
   1, 4, 7, 11, 14, 17, 20, 23, 26, 30, 33, 36, 39, 42, 45, 49],
  [-41, -38, -36, -33, -30, -28, -25, -22, -20, -17, -14, -12, -9, -6, -4, -1,
   1, 4, 6, 9, 12, 14, 17, 20, 22, 25, 28, 30, 33, 36, 38, 41],
  [-34, -32, -30, -28, -25, -23, -21, -19, -16, -14, -12, -10, -7, -5, -3, -1,
   1, 3, 5, 7, 10, 12, 14, 16, 19, 21, 23, 25, 28, 30, 32, 34],
  [-29, -27, -25, -23, -21, -19, -17, -16, -14, -12, -10, -8, -6, -4, -2, 0,
   0, 2, 4, 6, 8, 10, 12, 14, 16, 17, 19, 21, 23, 25, 27, 29],
  [0, 0, 0, 0, 0, 0, 0, 0, 0, 0, 0, 0, 0, 0, 0, 0,
   0, 0, 0, 0, 0, 0, 0, 0, 0, 0, 0, 0, 0, 0, 0, 0]]

/-- `ENV` for REV_A (48_envelope_default_tables.md R252): row = attenuation, column = sample. -/
def envRevATable : List (List Int) :=
  envRevARows0 ++ envRevARows1 ++ envRevARows2 ++ envRevARows3

/-- The tabulated `ENV[a][s]` for `GAIN = 1` (48_envelope_default_tables.md R251, R252). The machine's `env` is built
by the rule of Machine/Envelope.lean; `env_eq_table` of Laws/Envelope.lean proves the two equal. -/
def envTable (rev : Rev) (a s : Sample) : Int :=
  match rev with
  | .rev0 => (envRev0Table.getD a.toNat []).getD s.toNat 0
  | .revA => (envRevATable.getD a.toNat []).getD s.toNat 0

end Sys2Proof.Machine
end

