-- ==== Sys2Proof/Machine/Envelope.lean ====
section
/-! DEFINITION. The Envelope Table Builder (40_envelope_table.md R105 to R115): `ENV` and `ENVVOL` as a function of the
gain and the revision, in the exact integer form of R113 with the gain in its place (R110). -/

namespace Sys2Proof.Machine

/-- `GAIN`, a parameter and not state (00_scope.md R9, 40_envelope_table.md R115). DESIGN CHOICE (log 11, unsafe): the
spec's default, 1. -/
def gain : Gain := ⟨1, 1, by decide, by decide⟩

/-- The effective sample `eff(s)` of a revision (40_envelope_table.md R109). -/
def effSample (rev : Rev) (s : Sample) : Int :=
  match rev with
  | .rev0 => 2 * s.toNat
  | .revA => 2 * s.toNat - 31

/-- `m <= GAIN * n / (3 * 2^(a/4))`, raised to the fourth power and cleared of fractions (40_envelope_table.md R110,
R113). -/
def ampFits (g : Gain) (a n m : Nat) : Bool := decide ((3 * g.den * m) ^ 4 * 2 ^ a ≤ (g.num * n) ^ 4)

/-- The greatest number below `m + 2^k` that `ok` accepts, found bit by bit from the top: for an `ok` that accepts `m`
and refuses every number above one that it refuses. -/
def greatestFrom (ok : Nat → Bool) : Nat → Nat → Nat
  | 0, m => m
  | k + 1, m => greatestFrom ok k (if ok (m + 2 ^ k) then m + 2 ^ k else m)

/-- `floor(GAIN * n / (3 * 2^(a/4)))`, the amplitude of level `a` scaled to `n` and rounded toward zero
(40_envelope_table.md R110 to R113). -/
def ampFloor (g : Gain) (a n : Nat) : Nat := greatestFrom (ampFits g a n) (Nat.log2 (g.num * n) + 1) 0

/-- `ENV[a][s]` for a gain and a revision: `trunc(amp(a) * eff(s) * 128)`, level 31 forced to 0
(40_envelope_table.md R107, R111, R113). -/
def envFor (g : Gain) (rev : Rev) (a s : Sample) : Int :=
  if a = 31 then 0 else (512 * effSample rev s).sign * ampFloor g a.toNat (512 * effSample rev s).natAbs

/-- `ENVVOL[a]` for a gain: `trunc(amp(a) * 65536)`, level 31 forced to 0 (40_envelope_table.md R107, R112, R113). -/
def envVolFor (g : Gain) (a : Sample) : Int := if a = 31 then 0 else ampFloor g a.toNat 262144

/-- `ENV[a][s]` of the machine: the table of its gain and its revision (00_scope.md R10, 40_envelope_table.md R106). -/
def env (rev : Rev) (a s : Sample) : Int := envFor gain rev a s

/-- `ENVVOL[a]` of the machine (00_scope.md R10, 40_envelope_table.md R106). -/
def envVol (a : Sample) : Int := envVolFor gain a

end Sys2Proof.Machine
end

