-- ==== Sys2Proof/Machine/Memory.lean ====
section
/-! DEFINITION. The high-resolution buffers as memory: reading a cell, adding into a cell, and bringing a list of
cells to the canonical form (20_memory.md R66). -/

namespace Sys2Proof

/-- What the list of cells says of cell `i`; a cell that is not listed holds 0 (log 3). -/
def readCell (i : Nat) : List (Nat × Int) → Int
  | [] => 0
  | (j, v) :: rest => if i = j then v else readCell i rest

/-- `HR[s][i] <- HR[s][i] + d` on the list of cells, keeping it strictly rising and free of zeros
(20_memory.md R66). -/
def addCell (i : Nat) (d : Int) : List (Nat × Int) → List (Nat × Int)
  | [] => if d = 0 then [] else [(i, d)]
  | (j, v) :: rest =>
    if i < j then (if d = 0 then (j, v) :: rest else (i, d) :: (j, v) :: rest)
    else if i = j then (if v + d = 0 then rest else (j, v + d) :: rest)
    else (j, v) :: addCell i d rest

/-- The value of cell `i` of a buffer. -/
def Memory.read (m : Memory) (i : Nat) : Int := readCell i m.cells

/-- The buffer with `d` added into cell `i` (20_memory.md R66). -/
def Memory.add (m : Memory) (i : Nat) (d : Int) : Memory := { m with cells := addCell i d m.cells }

/-- The zero-filled buffer of `n` cells (30_encoding.md R98, `NEW`). -/
def Memory.blank (n : Nat) : Memory := ⟨n, []⟩

/-- The cells of a list that lie inside a buffer of `n` cells, in canonical form. -/
def canonCells (n : Nat) : List (Nat × Int) → List (Nat × Int)
  | [] => []
  | (j, v) :: rest => if j < n then addCell j v (canonCells n rest) else canonCells n rest

/-- A buffer operand in canonical form. DESIGN CHOICE (log 16, safe): a listed cell outside the buffer is no cell of
it, and a cell listed twice holds the sum. -/
def Memory.canon (m : Memory) : Memory := { m with cells := canonCells m.len m.cells }

end Sys2Proof
end

