-- ==== Sys2Proof/WellFormed.lean ====
section
/-! DEFINITION. When a buffer is in canonical form and when an instruction is well formed. The operand types of
`Instr` leave one thing to check: the buffers a CONSTRUCT carries. -/

namespace Sys2Proof

/-- The listed cells are strictly rising from `lo` on, lie below `len`, and none holds 0. -/
def cellsWf (len : Nat) : Nat → List (Nat × Int) → Bool
  | _, [] => true
  | lo, (j, v) :: rest => decide (lo ≤ j) && decide (j < len) && decide (v ≠ 0) && cellsWf len (j + 1) rest

/-- The canonical form of a buffer: cells strictly rising, all inside the buffer, and no listed cell equal to what an
unlisted cell reads as (log 3). -/
def Memory.wf (m : Memory) : Bool := cellsWf m.len 0 m.cells

/-- Both buffers are in canonical form. -/
def stereoWf (hr : Stereo Memory) : Bool := hr.left.wf && hr.right.wf

/-- An instruction is well formed when the buffers it carries are in canonical form; every other operand is right by
its type. -/
def Instr.wf : Instr → Bool
  | .wSelect _ _ => true
  | .wGbal _ _ => true
  | .wFreqLo _ _ => true
  | .wFreqHi _ _ => true
  | .wCtrl _ _ => true
  | .wBal _ _ => true
  | .wWave _ _ => true
  | .wNoise _ _ => true
  | .wLfofreq _ _ => true
  | .wLfoctrl _ _ => true
  | .wRsvdA _ _ => true
  | .wRsvdB _ _ => true
  | .wRsvdC _ _ => true
  | .wRsvdD _ _ => true
  | .wRsvdE _ _ => true
  | .wRsvdF _ _ => true
  | .upd _ => true
  | .pwr _ => true
  | .rts _ => true
  | .getreg _ => true
  | .setreg _ _ => true
  | .peek _ _ => true
  | .poke _ _ _ => true
  | .save => true
  | .load _ => true
  | .constructRev0 hr => stereoWf hr
  | .constructRevA hr => stereoWf hr

end Sys2Proof
end

