-- ==== Sys2Proof/Decode.lean ====
section
/-! DEFINITION. The transport encoding of 30_encoding.md: the decoder (R90, R96, R101), total on every command and
refusing by name, then the encoder (R86, R87, R100), then the host's table-word interface. -/

namespace Sys2Proof

/-- Why the decoder refuses a command (30_encoding.md R96). -/
inductive DecodeError where
  /-- A kind of 0xA to 0xE. -/
  | reservedKind
  /-- A CONSTRUCT whose revision code is neither 0 nor 1 (60_exceptions.md R255). -/
  | badRevision
  /-- A debug operation on a channel that does not exist. -/
  | badChannel
  /-- A field id that R101 does not list for the channel or for the global fields. -/
  | badField
  deriving DecidableEq, Repr

/-- The field `kind` of a command word (30_encoding.md R86). -/
def cwKind (cw : BitVec 16) : BitVec 4 := cw.extractLsb' 12 4

/-- The field `a` of a command word (30_encoding.md R86). -/
def cwA (cw : BitVec 16) : BitVec 4 := cw.extractLsb' 8 4

/-- The field `d` of a command word (30_encoding.md R86). -/
def cwD (cw : BitVec 16) : Byte := cw.extractLsb' 0 8

/-- The channel a debug operation names (30_encoding.md R86): 0 to 5. -/
def chanOfA (a : BitVec 4) : Option ChanIdx := if h : a.toNat < 6 then some ⟨a.toNat, h⟩ else none

/-- The per-channel fields by their code (30_encoding.md R101). -/
def chanFieldOfCode (d : Byte) : Option ChanField :=
  match d.toNat with
  | 0x00 => some .freq
  | 0x01 => some .ctrl
  | 0x02 => some .balance
  | 0x03 => some .nctrl
  | 0x04 => some .windex
  | 0x05 => some .ddalatch
  | 0x06 => some .acc
  | 0x07 => some .counter
  | 0x08 => some .freqcache
  | 0x09 => some .ncount
  | 0x0A => some .nfreqcache
  | 0x0B => some .lfsr
  | 0x0C => some .attL
  | 0x0D => some .attR
  | 0x0E => some .prevL
  | 0x0F => some .prevR
  | 0x10 => some .ofn
  | 0x11 => some .lastts
  | _ => none

/-- The global fields by their code (30_encoding.md R101). -/
def globFieldOfCode (d : Byte) : Option GlobField :=
  match d.toNat with
  | 0x00 => some .select
  | 0x01 => some .gbal
  | 0x02 => some .lfofreq
  | 0x03 => some .lfoctrl
  | 0x04 => some .glastts
  | 0x05 => some .xfPending
  | 0x06 => some .xfCountdown
  | 0x07 => some .xfPhase
  | 0x08 => some .xfLatch
  | _ => none

/-- The field a GETREG or SETREG names: a global field for `a = 0xF`, else a field of channel `a`
(30_encoding.md R96, R101). -/
def decodeField (a : BitVec 4) (d : Byte) : Except DecodeError FieldId :=
  if a.toNat = 0xF then
    match globFieldOfCode d with
    | some f => .ok (.glob f)
    | none => .error .badField
  else
    match chanOfA a with
    | none => .error .badChannel
    | some c =>
      match chanFieldOfCode d with
      | some f => .ok (.chan c f)
      | none => .error .badField

/-- The register write at each offset (30_encoding.md R88). -/
def decodeWrite (a : BitVec 4) (d : Byte) (t : Int) : Instr :=
  match a.toNat with
  | 0x0 => .wSelect t d
  | 0x1 => .wGbal t d
  | 0x2 => .wFreqLo t d
  | 0x3 => .wFreqHi t d
  | 0x4 => .wCtrl t d
  | 0x5 => .wBal t d
  | 0x6 => .wWave t d
  | 0x7 => .wNoise t d
  | 0x8 => .wLfofreq t d
  | 0x9 => .wLfoctrl t d
  | 0xA => .wRsvdA t d
  | 0xB => .wRsvdB t d
  | 0xC => .wRsvdC t d
  | 0xD => .wRsvdD t d
  | 0xE => .wRsvdE t d
  | _ => .wRsvdF t d

/-- GETREG (30_encoding.md R87). -/
def decodeGet (a : BitVec 4) (d : Byte) : Except DecodeError Instr :=
  match decodeField a d with
  | .ok id => .ok (.getreg id)
  | .error e => .error e

/-- SETREG (30_encoding.md R87). -/
def decodeSet (a : BitVec 4) (d : Byte) (t : Int) : Except DecodeError Instr :=
  match decodeField a d with
  | .ok id => .ok (.setreg id t)
  | .error e => .error e

/-- PEEK (30_encoding.md R87; the channel must be 0 to 5, 47_lifecycle_host.md R232). -/
def decodePeek (a : BitVec 4) (d : Byte) : Except DecodeError Instr :=
  match chanOfA a with
  | some c => .ok (.peek c d)
  | none => .error .badChannel

/-- POKE (30_encoding.md R87). -/
def decodePoke (a : BitVec 4) (d : Byte) (t : Int) : Except DecodeError Instr :=
  match chanOfA a with
  | some c => .ok (.poke c d t)
  | none => .error .badChannel

/-- CONSTRUCT (30_encoding.md R87): the revision code is the field `a`. -/
def decodeConstruct (a : BitVec 4) (hr : Stereo Memory) : Except DecodeError Instr :=
  match a.toNat with
  | 0 => .ok (.constructRev0 ⟨hr.left.canon, hr.right.canon⟩)
  | 1 => .ok (.constructRevA ⟨hr.left.canon, hr.right.canon⟩)
  | _ => .error .badRevision

/-- Decoding a command (30_encoding.md R90): by `kind`, with the fields the formats T and L ignore left unread
(R87) and the kinds 0xA to 0xE refused (R96). -/
def decode (k : Command) : Except DecodeError Instr :=
  match (cwKind k.cw).toNat with
  | 0x0 => .ok (decodeWrite (cwA k.cw) (cwD k.cw) k.t)
  | 0x1 => .ok (.upd k.t)
  | 0x2 => .ok (.pwr k.t)
  | 0x3 => .ok (.rts k.t)
  | 0x4 => decodeGet (cwA k.cw) (cwD k.cw)
  | 0x5 => decodeSet (cwA k.cw) (cwD k.cw) k.t
  | 0x6 => decodePeek (cwA k.cw) (cwD k.cw)
  | 0x7 => decodePoke (cwA k.cw) (cwD k.cw) k.t
  | 0x8 => .ok .save
  | 0x9 => .ok (.load k.record)
  | 0xF => decodeConstruct (cwA k.cw) k.hr
  | _ => .error .reservedKind

/-- The command word `kind[15:12] a[11:8] d[7:0]` (30_encoding.md R86). -/
def cword (kind a : BitVec 4) (d : Byte) : BitVec 16 := (kind ++ a) ++ d

/-- The code of a per-channel field (30_encoding.md R101). -/
def ChanField.code : ChanField → Byte
  | .freq => 0x00
  | .ctrl => 0x01
  | .balance => 0x02
  | .nctrl => 0x03
  | .windex => 0x04
  | .ddalatch => 0x05
  | .acc => 0x06
  | .counter => 0x07
  | .freqcache => 0x08
  | .ncount => 0x09
  | .nfreqcache => 0x0A
  | .lfsr => 0x0B
  | .attL => 0x0C
  | .attR => 0x0D
  | .prevL => 0x0E
  | .prevR => 0x0F
  | .ofn => 0x10
  | .lastts => 0x11

/-- The code of a global field (30_encoding.md R101). -/
def GlobField.code : GlobField → Byte
  | .select => 0x00
  | .gbal => 0x01
  | .lfofreq => 0x02
  | .lfoctrl => 0x03
  | .glastts => 0x04
  | .xfPending => 0x05
  | .xfCountdown => 0x06
  | .xfPhase => 0x07
  | .xfLatch => 0x08

/-- The field `a` that names a channel (30_encoding.md R86). -/
def chanA (c : ChanIdx) : BitVec 4 := BitVec.ofNat 4 c.val

/-- The command word of a debug register access of kind `kind` (30_encoding.md R87, R101). -/
def fieldWord (kind : BitVec 4) : FieldId → BitVec 16
  | .chan c f => cword kind (chanA c) f.code
  | .glob f => cword kind 0xF f.code

/-- The record of zeros, the operand of a LOAD that is given none (log 14). -/
def ChanRecord.zero : ChanRecord where
  frequency := 0
  control := 0
  balance := 0
  noiseControl := 0
  waveform := Vector.replicate 32 0
  waveformIndex := 0
  ddaLatch := 0
  sampleAccumulator := 0
  counter := 0
  freqCache := 0
  noiseCount := 0
  noiseFreqCache := 0
  lfsr := 0
  attenuation := ⟨0, 0⟩
  prev := ⟨0, 0⟩
  outputFunction := .off
  lastTs := 0

/-- The state record of zeros (log 14). -/
def Record.zero : Record where
  select := 0
  globalBalance := 0
  lfoFrequency := 0
  lfoControl := 0
  lastTs := 0
  xfPending := false
  xfCountdown := 0
  xfPhase := 0
  xfLatch := 0
  ch := Vector.replicate 6 ChanRecord.zero

/-- Zero-filled buffers of `HR_LEN` cells, the operands of `NEW` (30_encoding.md R98). -/
def blankHr : Stereo Memory := ⟨Memory.blank Config.hrLen, Memory.blank Config.hrLen⟩

/-- A command without separate operands. -/
def Command.plain (cw : BitVec 16) (t : Int) : Command := ⟨cw, t, Record.zero, blankHr⟩

/-- The command of an instruction, ignored fields written as 0 (30_encoding.md R87, R100). -/
def encode : Instr → Command
  | .wSelect ts v => .plain (cword 0x0 0x0 v) ts
  | .wGbal ts v => .plain (cword 0x0 0x1 v) ts
  | .wFreqLo ts v => .plain (cword 0x0 0x2 v) ts
  | .wFreqHi ts v => .plain (cword 0x0 0x3 v) ts
  | .wCtrl ts v => .plain (cword 0x0 0x4 v) ts
  | .wBal ts v => .plain (cword 0x0 0x5 v) ts
  | .wWave ts v => .plain (cword 0x0 0x6 v) ts
  | .wNoise ts v => .plain (cword 0x0 0x7 v) ts
  | .wLfofreq ts v => .plain (cword 0x0 0x8 v) ts
  | .wLfoctrl ts v => .plain (cword 0x0 0x9 v) ts
  | .wRsvdA ts v => .plain (cword 0x0 0xA v) ts
  | .wRsvdB ts v => .plain (cword 0x0 0xB v) ts
  | .wRsvdC ts v => .plain (cword 0x0 0xC v) ts
  | .wRsvdD ts v => .plain (cword 0x0 0xD v) ts
  | .wRsvdE ts v => .plain (cword 0x0 0xE v) ts
  | .wRsvdF ts v => .plain (cword 0x0 0xF v) ts
  | .upd ts => .plain (cword 0x1 0x0 0x00) ts
  | .pwr ts => .plain (cword 0x2 0x0 0x00) ts
  | .rts base => .plain (cword 0x3 0x0 0x00) base
  | .getreg id => .plain (fieldWord 0x4 id) 0
  | .setreg id v => .plain (fieldWord 0x5 id) v
  | .peek c i => .plain (cword 0x6 (chanA c) i) 0
  | .poke c i v => .plain (cword 0x7 (chanA c) i) v
  | .save => .plain (cword 0x8 0x0 0x00) 0
  | .load r => { Command.plain (cword 0x9 0x0 0x00) 0 with record := r }
  | .constructRev0 hr => { Command.plain (cword 0xF 0x0 0x00) 0 with hr := hr }
  | .constructRevA hr => { Command.plain (cword 0xF 0x1 0x00) 0 with hr := hr }

/-- The command whose bits are `w`, numbered as spec/opcode_table.json numbers them: bits 15 to 0 are the command word,
any bits above them the operand `T` (log 17); every bit above `nbits`, and every separate operand, is zero. -/
def commandOfBits (nbits w : Nat) : Command :=
  .plain (BitVec.ofNat 16 (w % 2 ^ nbits)) (Int.ofNat (w % 2 ^ nbits / 2 ^ 16))

/-- The instruction the decoder reads from the command whose bits are `w`. -/
def decodeTableWord (nbits w : Nat) : Option Instr :=
  match decode (commandOfBits nbits w) with
  | .ok i => some i
  | .error _ => none

end Sys2Proof
end

