-- ==== Sys2Proof/Machine/State.lean ====
section
/-! DEFINITION. The state of PSG-CORE (10_state.md), the host's pending operations, the reasons a step can stop, and
the machine after reset. -/

namespace Sys2Proof.Machine

/-- One *Channel State* record (10_state.md R30 to R46). -/
structure Chan where
  /-- R30: 12 bits. -/
  frequency : BitVec 12
  /-- R31: `EN` = bit 7, `DDA` = bit 6, `ATT` = bits 4:0. -/
  control : Byte
  /-- R32: left nibble bits 7:4, right nibble bits 3:0. -/
  balance : Byte
  /-- R33: `NE` = bit 7, `NF` = bits 4:0. -/
  noiseControl : Byte
  /-- R34. -/
  waveform : Vector Sample 32
  /-- R35. -/
  waveformIndex : Sample
  /-- R36. -/
  ddaLatch : Sample
  /-- R37. -/
  sampleAccumulator : Int
  /-- R38. -/
  counter : Int
  /-- R39. -/
  freqCache : Period
  /-- R40. -/
  noiseCount : Int
  /-- R41. -/
  noiseFreqCache : Period
  /-- R42. -/
  lfsr : BitVec 18
  /-- R43: `attenuation[0]` is left, `attenuation[1]` right. -/
  attenuation : Stereo Sample
  /-- R44: `prev[0]` is left, `prev[1]` right. -/
  prev : Stereo Int
  /-- R45. -/
  outputFunction : OutFn
  /-- R46. -/
  lastTs : Int
  deriving DecidableEq, Repr

/-- The *Global Synthesizer State* record (10_state.md R21 to R29). -/
structure Global where
  /-- R21. -/
  select : BitVec 3
  /-- R22. -/
  globalBalance : Byte
  /-- R23. -/
  lfoFrequency : Byte
  /-- R24: `HALT` = bit 7, `MODE` = bits 1:0. -/
  lfoControl : Byte
  /-- R25. -/
  lastTs : Int
  /-- R26. -/
  xfPending : Bool
  /-- R27. -/
  xfCountdown : Nat
  /-- R28. -/
  xfPhase : Nat
  /-- R29. -/
  xfLatch : Sample
  deriving DecidableEq, Repr

/-- PSG-CORE with the revision it was constructed for and the two buffers bound to it (00_scope.md R6, R8;
20_memory.md R66; 47_lifecycle_host.md R224). -/
structure Psg where
  /-- `REV`, set by `Construct` (log 13). -/
  rev : Rev
  g : Global
  /-- R20: six channel records. -/
  ch : Vector Chan 6
  /-- `HR[0]` is left, `HR[1]` right. -/
  hr : Stereo Memory
  /-- The model's own: an `HRAdd` of the running operation fell outside its buffer (20_memory.md R78, log 4). -/
  hrOverrun : Bool
  deriving DecidableEq, Repr

/-- What the last operation returned to the host (30_encoding.md R90; the model's own field, log 8). -/
inductive HostResult where
  /-- The operation returns nothing. -/
  | nothing
  /-- The value of a GETREG or PEEK. -/
  | value (v : Int)
  /-- The record of a SAVE. -/
  | record (r : Record)
  /-- A SETREG of a field that is not settable was refused, without effect (47_lifecycle_host.md R231, log 9). -/
  | declined
  deriving DecidableEq, Repr

/-- The whole state: PSG-CORE, the host's operations still to be performed (oldest first, log 1), and what the last
operation returned. -/
structure State where
  psg : Psg
  queue : List Command
  result : HostResult
  deriving DecidableEq, Repr

/-- Why a step stops with a fault. -/
inductive Fault where
  /-- Raised by `step` for a CONSTRUCT with an invalid revision code (60_exceptions.md R255): the process ends. Safe:
  the spec gives no machine afterwards. -/
  | fatalConfig
  /-- Raised by an operation one of whose `HRAdd` falls outside `0 .. HR_LEN - 1` (20_memory.md R78, U3). Safe: the
  hardware may go on where the model stops. -/
  | hrOutOfRange
  deriving DecidableEq, Repr

/-- Why a step gives an operation no meaning. -/
inductive Refusal where
  /-- Raised by an arm of `exec` whose instruction has no meaning yet. Safe. -/
  | notModelled (mnemonic : String)
  /-- Raised by `step` for a command of kind 0xA to 0xE (30_encoding.md R96). Safe: the spec gives it no meaning. -/
  | reservedKind
  /-- Raised by `step` for a debug operation on a channel that does not exist (30_encoding.md R96). Safe. -/
  | badChannel
  /-- Raised by `step` for a field id that 30_encoding.md R101 does not list (R96). Safe. -/
  | badField
  deriving DecidableEq, Repr

/-- A channel record after `Construct` (10_state.md R59). -/
def Chan.reset : Chan where
  frequency := 0
  control := 0
  balance := 0
  noiseControl := 0
  waveform := Vector.replicate 32 0
  waveformIndex := 0
  ddaLatch := 0
  sampleAccumulator := 0
  counter := 8192
  freqCache := ⟨8192, by decide⟩
  noiseCount := 1
  noiseFreqCache := ⟨3968, by decide⟩
  lfsr := 1
  attenuation := ⟨31, 31⟩
  prev := ⟨0, 0⟩
  outputFunction := .off
  lastTs := 0

/-- The global record after `Construct` (10_state.md R59). -/
def Global.reset : Global where
  select := 0
  globalBalance := 0
  lfoFrequency := 0
  lfoControl := 0
  lastTs := 0
  xfPending := false
  xfCountdown := 0
  xfPhase := 0
  xfLatch := 0

/-- The table of 10_state.md R59, for the revision and the buffers `Construct` was given. -/
def Psg.fresh (rev : Rev) (hr : Stereo Memory) : Psg where
  rev := rev
  g := Global.reset
  ch := Vector.replicate 6 Chan.reset
  hr := hr
  hrOverrun := false

/-- The machine after reset: constructed, with no operation pending. DESIGN CHOICE (log 2, unsafe): the revision is
REV_A and the buffers are zero-filled with `HR_LEN` cells, since the spec leaves both to the host. -/
def State.reset : State where
  psg := Psg.fresh .revA blankHr
  queue := []
  result := .nothing

end Sys2Proof.Machine
end

