-- ==== Sys2Proof/Machine/Ops.lean ====
section
/-! DEFINITION. The shared operations: access to a channel, to the waveform RAM and to the host's buffers, the bounded
loop, and how an operation answers. PSG-CORE takes no exception and returns from none (60_exceptions.md R260, R261):
its two faults are answers of `complete` below and of `step`. -/

namespace Sys2Proof.Machine

/-- The channel record `ch[c]`. -/
def Psg.chan (p : Psg) (c : ChanIdx) : Chan := p.ch[c]

/-- The machine with the record `ch[c]` replaced. -/
def Psg.setChan (p : Psg) (c : ChanIdx) (x : Chan) : Psg := { p with ch := p.ch.set c.val x c.isLt }

/-- The machine with the record `ch[c]` changed by `f`. -/
def Psg.modChan (p : Psg) (c : ChanIdx) (f : Chan → Chan) : Psg := p.setChan c (f (p.chan c))

/-- The machine with the global record changed by `f`. -/
def Psg.modGlobal (p : Psg) (f : Global → Global) : Psg := { p with g := f p.g }

/-- `for c in 0, 1, 2, 3, 4, 5: f c` (00_scope.md R18). -/
def forChans (f : ChanIdx → Psg → Psg) (p : Psg) : Psg := f 5 (f 4 (f 3 (f 2 (f 1 (f 0 p)))))

/-- `while guard: body`, for at most `n` iterations; every caller passes a bound the loop cannot exceed
(60_exceptions.md R269, log 18). -/
def loopWhile {σ : Type} (guard : σ → Bool) (body : σ → σ) : Nat → σ → σ
  | 0, s => s
  | n + 1, s => if guard s then loopWhile guard body n (body s) else s

/-- Cell number `i mod 32` of a waveform (20_memory.md R64). -/
def cellIdx (i : Nat) : Fin 32 := ⟨i % 32, Nat.mod_lt i (by decide)⟩

/-- `WaveRead(c, i)` (20_memory.md R64). -/
def waveRead (x : Chan) (i : Nat) : Sample := x.waveform[cellIdx i]

/-- `WaveWrite(c, i, v)` (20_memory.md R65): the old value leaves the accumulator, the new one enters it. -/
def waveWrite (x : Chan) (i : Nat) (w : Sample) : Chan :=
  { x with
    waveform := x.waveform.set (cellIdx i).val w (cellIdx i).isLt
    sampleAccumulator := x.sampleAccumulator - (waveRead x i).toNat + w.toNat }

/-- The sum of the 32 waveform cells (10_state.md R52). -/
def waveSum (w : Vector Sample 32) : Int := (w.toList.map (fun s => (s.toNat : Int))).sum

/-- `HRAdd(side, i, d)` (20_memory.md R66). A cell outside the buffer is none: the overrun is recorded, and
`complete` turns it into a fault (R78, log 4). -/
def hrAdd (side : Side) (i : Nat) (d : Int) (p : Psg) : Psg :=
  if i < (p.hr.get side).len then { p with hr := p.hr.set side ((p.hr.get side).add i d) }
  else { p with hrOverrun := true }

/-- The answer of an operation that may have added into the buffers: the next state, or the fault of rule R78 of
20_memory.md (log 4). -/
def complete (s : State) (p : Psg) (r : HostResult) : Host.Outcome State Fault Refusal :=
  if p.hrOverrun then .fault .hrOutOfRange else .next { s with psg := p, result := r }

/-- The answer of an operation that adds nothing into the buffers. -/
def answer (s : State) (p : Psg) (r : HostResult) : Host.Outcome State Fault Refusal :=
  .next { s with psg := p, result := r }

end Sys2Proof.Machine
end

