-- ==== Sys2Proof/Machine/Operands.lean ====
section
/-! DEFINITION. The operand forms: fields of the registers (10_state.md R22, R24, R31 to R33), the bank select
(20_memory.md R62), and the masking of integer operands (46_register_writes.md R214, 47_lifecycle_host.md R231). -/

namespace Sys2Proof.Machine

/-- `EN`, bit 7 of a control byte (10_state.md R31). -/
def enBit (control : Byte) : Bool := control.getLsbD 7

/-- `DDA`, bit 6 of a control byte (10_state.md R31). -/
def ddaBit (control : Byte) : Bool := control.getLsbD 6

/-- `ATT`, bits 4:0 of a control byte (10_state.md R31). -/
def attField (control : Byte) : Sample := control.extractLsb' 0 5

/-- `NE`, bit 7 of a noise control byte (10_state.md R33). -/
def neBit (noiseControl : Byte) : Bool := noiseControl.getLsbD 7

/-- `NF`, bits 4:0 of a noise control byte (10_state.md R33). -/
def nfField (noiseControl : Byte) : Sample := noiseControl.extractLsb' 0 5

/-- `HALT`, bit 7 of the LFO control byte (10_state.md R24). -/
def haltBit (lfoControl : Byte) : Bool := lfoControl.getLsbD 7

/-- `MODE`, bits 1:0 of the LFO control byte (10_state.md R24). -/
def modeField (lfoControl : Byte) : BitVec 2 := lfoControl.extractLsb' 0 2

/-- `g.lfo_control.MODE != 0`: LFO mode is enabled (41_frequency_cache.md R119). -/
def lfoOn (p : Psg) : Bool := modeField p.g.lfoControl != 0

/-- The nibble of a balance byte for a side: bits 7:4 left, bits 3:0 right (10_state.md R22, R32). -/
def balNibble (balance : Byte) : Side → BitVec 4
  | .left => balance.extractLsb' 4 4
  | .right => balance.extractLsb' 0 4

/-- The low 3 bits of a select value (46_register_writes.md R197). -/
def selectOf (value : Byte) : BitVec 3 := value.extractLsb' 0 3

/-- The low 5 bits of a sample value (46_register_writes.md R206). -/
def sampleOf (value : Byte) : Sample := value.extractLsb' 0 5

/-- A frequency with its bits 7:0 replaced (46_register_writes.md R199). -/
def withFreqLo (frequency : BitVec 12) (value : Byte) : BitVec 12 := (frequency.extractLsb' 8 4) ++ value

/-- A frequency with its bits 11:8 replaced by bits 3:0 of the value (46_register_writes.md R200). -/
def withFreqHi (frequency : BitVec 12) (value : Byte) : BitVec 12 :=
  (value.extractLsb' 0 4) ++ (frequency.extractLsb' 0 8)

/-- The channel `g.select` names, none for 6 and 7 (20_memory.md R62, 46_register_writes.md R213). -/
def selected (p : Psg) : Option ChanIdx :=
  if h : p.g.select.toNat < 6 then some ⟨p.g.select.toNat, h⟩ else none

/-- A write to the selected channel; with select 6 or 7 it changes nothing (46_register_writes.md R213). -/
def onSelected (f : ChanIdx → Psg → Psg) (p : Psg) : Psg :=
  match selected p with
  | some c => f c p
  | none => p

/-- The low `n` bits of an integer operand (00_scope.md R13; of a negative one, the low bits of its two's complement,
log 15). -/
def maskTo (n : Nat) (v : Int) : BitVec n := BitVec.ofInt n v

/-- A shift register value with 0 replaced by 1 (10_state.md R42, 47_lifecycle_host.md R231 and R235). -/
def nonzeroLfsr (l : BitVec 18) : BitVec 18 := if l = 0 then 1 else l

end Sys2Proof.Machine
end

