-- ==== Sys2Proof/Machine/Flags.lean ====
section
/-! DEFINITION. PSG-CORE has no condition codes (10_state.md R57). This file holds what stands nearest to them: the
crossfade request, its only one-bit status (R26), and the output function selector, its only mode (R45;
42_output_function.md R129). -/

namespace Sys2Proof.Machine

/-- `g.xf_pending <- true` (46_register_writes.md R215). -/
def requestXfade (p : Psg) : Psg := p.modGlobal (fun g => { g with xfPending := true })

/-- The revision's enable test (42_output_function.md R129). -/
def channelOn : Rev → Bool → Bool → Bool
  | .rev0, en, _ => en
  | .revA, en, dda => en || dda

/-- The output function for the inputs of rule R128 of 42_output_function.md: `lowPeriod` is
`freq_cache <= CUTOFF`, `carrier` is `c = 0 and MODE != 0` (R129). -/
def selectFn (rev : Rev) (en dda ne lowPeriod carrier : Bool) : OutFn :=
  if !channelOn rev en dda then .off
  else if ne && en then .noise
  else if en && !dda && lowPeriod && !carrier then .accumulate
  else .normal

/-- The channel's period is at or below the cutoff (44_channel_run.md R162). -/
def lowPeriod (x : Chan) : Bool := decide (x.freqCache.ticks ≤ cutoff)

/-- The output function `RecalcOfn(c)` stores (42_output_function.md R129). -/
def chanFn (p : Psg) (c : ChanIdx) : OutFn :=
  selectFn p.rev (enBit (p.chan c).control) (ddaBit (p.chan c).control) (neBit (p.chan c).noiseControl)
    (lowPeriod (p.chan c)) (decide (c = 0) && lfoOn p)

/-- `RecalcOfn(c)` (42_output_function.md R129). -/
def recalcOfn (c : ChanIdx) (p : Psg) : Psg := p.modChan c (fun x => { x with outputFunction := chanFn p c })

end Sys2Proof.Machine
end

