-- ==== Sys2Proof/Machine/Freq.lean ====
section
/-! DEFINITION. The Frequency Cache (41_frequency_cache.md): `RecalcFreq` and `RecalcNoise`. -/

namespace Sys2Proof.Machine

/-- `n`, with 0 standing for `z`. -/
def zeroAs (n z : Nat) : Nat := if n = 0 then z else n

/-- A value with 0 standing for a positive `z` is positive. -/
theorem zeroAs_pos (n z : Nat) (hz : 0 < z) : 0 < zeroAs n z := by
  unfold zeroAs
  split <;> omega

/-- The base period `(f != 0 ? f : 4096) << 1` (41_frequency_cache.md R118). -/
def basePeriod (f : Nat) : Period :=
  ⟨2 * zeroAs f 4096, Nat.mul_pos (by decide) (zeroAs_pos f 4096 (by decide))⟩

/-- The factor the LFO rate register stands for (41_frequency_cache.md R120). -/
def lfoRate (lfoFrequency : Byte) : Nat := zeroAs lfoFrequency.toNat 256

/-- A period multiplied by the LFO rate (41_frequency_cache.md R120). -/
def scalePeriod (q : Period) (lfoFrequency : Byte) : Period :=
  ⟨q.ticks * lfoRate lfoFrequency, Nat.mul_pos q.pos (zeroAs_pos _ 256 (by decide))⟩

/-- The carrier's offset `(ch[1].dda_latch - 16) << ((MODE - 1) * 2)` (41_frequency_cache.md R119). -/
def lfoOffset (mode : BitVec 2) (latch : Sample) : Int :=
  ((latch.toNat : Int) - 16) * ((2 ^ ((mode.toNat - 1) * 2) : Nat) : Int)

/-- The carrier's frequency under LFO, reduced modulo 4096 (41_frequency_cache.md R119). -/
def carrierFreq (frequency : BitVec 12) (mode : BitVec 2) (latch : Sample) : Nat :=
  (((frequency.toNat : Int) + lfoOffset mode latch) % 4096).toNat

/-- The period `RecalcFreq(c)` stores (41_frequency_cache.md R121). -/
def freqPeriod (p : Psg) (c : ChanIdx) : Period :=
  if c = 0 ∧ lfoOn p = true then
    basePeriod (carrierFreq (p.chan 0).frequency (modeField p.g.lfoControl) (p.chan 1).ddaLatch)
  else if c = 1 ∧ lfoOn p = true then
    scalePeriod (basePeriod (p.chan 1).frequency.toNat) p.g.lfoFrequency
  else basePeriod (p.chan c).frequency.toNat

/-- `RecalcFreq(c)` (41_frequency_cache.md R121). -/
def recalcFreq (c : ChanIdx) (p : Psg) : Psg :=
  p.modChan c (fun x => { x with freqCache := freqPeriod p c })

/-- The noise period of a noise control byte (41_frequency_cache.md R123). -/
def noisePeriod (noiseControl : Byte) : Period :=
  ⟨if 31 - (nfField noiseControl).toNat = 0 then 64 else (31 - (nfField noiseControl).toNat) * 128, by
    split <;> omega⟩

/-- `RecalcNoise(c)` (41_frequency_cache.md R123). -/
def recalcNoise (c : ChanIdx) (p : Psg) : Psg :=
  p.modChan c (fun x => { x with noiseFreqCache := noisePeriod x.noiseControl })

/-- `RecalcFreq(c)` and then `RecalcOfn(c)`, the cascade of a register write (42_output_function.md R137). -/
def recalcTone (c : ChanIdx) (p : Psg) : Psg := recalcOfn c (recalcFreq c p)

end Sys2Proof.Machine
end

