-- ==== Sys2Proof/Machine/Level.lean ====
section
/-! DEFINITION. The level functions (42_output_function.md R130 to R136) and the band-limited injector
(43_injector.md R141 to R147). -/

namespace Sys2Proof.Machine

/-- The sample the noise function presents (42_output_function.md R133). -/
def noiseSample (lfsr : BitVec 18) : Sample := if lfsr.getLsbD 0 then 31 else 0

/-- The level of one side for attenuation `a` (42_output_function.md R135). -/
def levelOn (rev : Rev) (x : Chan) (a : Sample) : Int :=
  match x.outputFunction with
  | .off => 0
  | .normal => env rev a x.ddaLatch
  | .noise => env rev a (noiseSample x.lfsr)
  | .accumulate => envVol a * (x.sampleAccumulator - accCenter rev) / 8192

/-- `Level(c)` (42_output_function.md R135). -/
def level (p : Psg) (c : ChanIdx) : Stereo Int :=
  ⟨levelOn p.rev (p.chan c) (p.chan c).attenuation.left, levelOn p.rev (p.chan c) (p.chan c).attenuation.right⟩

/-- The kernel row of a timestamp, `(ts >> 1) & 1` (43_injector.md R144). -/
def kernelRow (ts : Int) : Nat := (ts / 2 % 2).toNat

/-- The first cell of a timestamp, `(ts >> 2) & HR_MASK` (43_injector.md R145). -/
def hrBase (ts : Int) : Nat := (ts / 4 % ((Config.hrMask + 1 : Nat) : Int)).toNat

/-- `HRAdd(side, i + k, delta * tap[k])` for the taps in turn (43_injector.md R142, R146). -/
def addTaps (side : Side) (delta : Int) : Nat → List Int → Psg → Psg
  | _, [], p => p
  | i, tap :: taps, p => addTaps side delta (i + 1) taps (hrAdd side i (delta * tap) p)

/-- One side of `Inject` (43_injector.md R142). With no difference the call has no effect at all (R142, log 4). -/
def injectSide (c : ChanIdx) (ts : Int) (side : Side) (lv : Int) (p : Psg) : Psg :=
  let delta := lv - (p.chan c).prev.get side
  if delta = 0 then p
  else
    (addTaps side delta (hrBase ts) (kernel (kernelRow ts)) p).modChan c
      (fun x => { x with prev := x.prev.set side lv })

/-- `Inject(c, ts, (L, R))` (43_injector.md R142). -/
def inject (c : ChanIdx) (ts : Int) (lv : Stereo Int) (p : Psg) : Psg :=
  injectSide c ts .right lv.right (injectSide c ts .left lv.left p)

/-- `Emit(c, ts)` (42_output_function.md R136). -/
def emit (c : ChanIdx) (ts : Int) (p : Psg) : Psg := inject c ts (level p c) p

end Sys2Proof.Machine
end

