-- ==== Sys2Proof/Machine/Run.lean ====
section
/-! DEFINITION. The Channel Run Engine (44_channel_run.md): `ClockLFSR` and `RunChannel`. -/

namespace Sys2Proof.Machine

/-- The feedback bit of the shift register: taps 0, 1, 11, 12, 17 (44_channel_run.md R156). -/
def lfsrFeedback (l : BitVec 18) : Bool :=
  l.getLsbD 0 ^^ l.getLsbD 1 ^^ l.getLsbD 11 ^^ l.getLsbD 12 ^^ l.getLsbD 17

/-- `ClockLFSR(l)`: `{fb, l[17:1]}`, re-seeded to 1 if that is 0 (44_channel_run.md R156). -/
def clockLfsr (l : BitVec 18) : BitVec 18 := nonzeroLfsr (BitVec.ofBool (lfsrFeedback l) ++ l.extractLsb' 1 17)

/-- One iteration of the noise loop: clock, emit when the function is Noise, reload (44_channel_run.md R158). -/
def noiseStep (c : ChanIdx) (target : Int) (p : Psg) : Psg :=
  let p := p.modChan c (fun x => { x with lfsr := clockLfsr x.lfsr })
  let p := if (p.chan c).outputFunction = .noise then emit c (target + (p.chan c).noiseCount) p else p
  p.modChan c (fun x => { x with noiseCount := x.noiseCount + x.noiseFreqCache.ticks })

/-- The noise loop runs while `noise_count <= 0` (44_channel_run.md R158). -/
def noiseDue (c : ChanIdx) (p : Psg) : Bool := decide ((p.chan c).noiseCount ≤ 0)

/-- The noise section of channels 4 and 5 (44_channel_run.md R158). Each iteration adds at least one tick, which
bounds the loop (log 18). -/
def noiseSection (c : ChanIdx) (target elapsed : Int) (p : Psg) : Psg :=
  if 4 ≤ c.val then
    let p := p.modChan c (fun x => { x with noiseCount := x.noiseCount - elapsed })
    loopWhile (noiseDue c) (noiseStep c target) (1 - (p.chan c).noiseCount).toNat p
  else p

/-- The stop conditions (44_channel_run.md R160). -/
def stopped (c : ChanIdx) (p : Psg) : Bool :=
  !enBit (p.chan c).control || (decide (c = 0) && haltBit p.g.lfoControl) || ddaBit (p.chan c).control

/-- `waveform_index` advanced by `n` modulo 32 and `dda_latch` refreshed from the new cell (44_channel_run.md R163,
R165; 46_register_writes.md R203). -/
def advanceBy (n : Nat) (x : Chan) : Chan :=
  { x with
    waveformIndex := x.waveformIndex + BitVec.ofNat 5 n
    ddaLatch := waveRead x (x.waveformIndex + BitVec.ofNat 5 n).toNat }

/-- The number of elapsed periods of the fast path (44_channel_run.md R163). -/
def fastCount (x : Chan) : Nat := ((-x.counter) / (x.freqCache.ticks : Int)).toNat + 1

/-- The fast path (44_channel_run.md R163). -/
def fastPath (x : Chan) : Chan :=
  if x.counter ≤ 0 then
    advanceBy (fastCount x) { x with counter := x.counter + (fastCount x : Int) * (x.freqCache.ticks : Int) }
  else x

/-- The per-step loop runs while `counter <= 0` (44_channel_run.md R164). -/
def stepDue (c : ChanIdx) (p : Psg) : Bool := decide ((p.chan c).counter ≤ 0)

/-- One waveform step: advance, emit at the sub-timestamp, and what follows the injection (44_channel_run.md R165). -/
def waveStep (after : Int → Psg → Psg) (c : ChanIdx) (target : Int) (p : Psg) : Psg :=
  let p := p.modChan c (advanceBy 1)
  let sub := target + (p.chan c).counter
  after sub (emit c sub p)

/-- The waveform section after the stop conditions: decrement, then the fast path or the per-step loop
(44_channel_run.md R161 to R164). Each iteration adds at least one tick, which bounds the loop (log 18). -/
def waveSection (after : Int → Psg → Psg) (c : ChanIdx) (target elapsed : Int) (live : Bool) (p : Psg) : Psg :=
  let p := p.modChan c (fun x => { x with counter := x.counter - elapsed })
  if !live && lowPeriod (p.chan c) then p.modChan c fastPath
  else loopWhile (stepDue c) (waveStep after c target) (1 - (p.chan c).counter).toNat p

/-- `RunChannel(c, target, lfo_live)` with the action `after` that follows the injection of a waveform step
(44_channel_run.md R152). -/
def runWith (after : Int → Psg → Psg) (c : ChanIdx) (target : Int) (live : Bool) (p : Psg) : Psg :=
  let start := (p.chan c).lastTs
  let elapsed := target - start
  let p := p.modChan c (fun x => { x with lastTs := target })
  if elapsed = 0 then p
  else
    let p := noiseSection c target elapsed (emit c start p)
    if stopped c p then p else waveSection after c target elapsed live p

/-- The reload of an ordinary step (44_channel_run.md R167). -/
def plainReload (c : ChanIdx) (p : Psg) : Psg :=
  p.modChan c (fun x => { x with counter := x.counter + x.freqCache.ticks })

/-- `RunChannel` of a channel that modulates none (44_channel_run.md R152 without R166). -/
def runPlain (c : ChanIdx) (target : Int) (live : Bool) (p : Psg) : Psg :=
  runWith (fun _ => plainReload c) c target live p

/-- The carrier's reload: its new period, but not less than the cutoff (44_channel_run.md R166). -/
def carrierReload (p : Psg) : Psg :=
  p.modChan 0 (fun x =>
    { x with counter := x.counter + (if x.freqCache.ticks ≤ cutoff then cutoff else x.freqCache.ticks : Nat) })

/-- What follows the injection of a carrier step under live modulation: the modulator is brought to the same
sub-timestamp, the carrier's caches are recomputed, the counter is reloaded (44_channel_run.md R166). -/
def carrierAfter (sub : Int) (p : Psg) : Psg := carrierReload (recalcTone 0 (runPlain 1 sub false p))

/-- `RunChannel(c, target, lfo_live)` (44_channel_run.md R152). The recursion has depth one (R168): only the carrier
under live modulation calls `RunChannel(1, sub, false)`. -/
def runChannel (c : ChanIdx) (target : Int) (live : Bool) (p : Psg) : Psg :=
  if c = 0 ∧ live = true then runWith carrierAfter 0 target true p else runPlain c target live p

end Sys2Proof.Machine
end

