-- ==== Sys2Proof/Machine/Update.lean ====
section
/-! DEFINITION. The Update Scheduler, the LFO gating and the volume crossfade machine (45_update_scheduler.md). -/

namespace Sys2Proof.Machine

/-- One of the three reductions of rule R186 of 45_update_scheduler.md for a balance byte. -/
def balReduction (balance : Byte) (side : Side) : Nat := 31 - balScale (balNibble balance side).toNat

/-- `TargetAtt(c, side)` (45_update_scheduler.md R186). -/
def targetAtt (p : Psg) (c : ChanIdx) (side : Side) : Sample :=
  BitVec.ofNat 5 (min 31 (balReduction p.g.globalBalance side + balReduction (p.chan c).balance side
    + (31 - (attField (p.chan c).control).toNat)))

/-- The side of a crossfade phase: right first (45_update_scheduler.md R183, R184). -/
def phaseSide (phase : Nat) : Side := if phase / 2 % 2 = 0 then .right else .left

/-- The channel of a crossfade phase, none from 6 on (45_update_scheduler.md R183). -/
def phaseChan (phase : Nat) : Option ChanIdx := if h : phase / 4 < 6 then some ⟨phase / 4, h⟩ else none

/-- The sample step (45_update_scheduler.md R186). -/
def xfadeSample (p : Psg) : Psg :=
  match phaseChan p.g.xfPhase with
  | some c => p.modGlobal (fun g => { g with xfLatch := targetAtt p c (phaseSide p.g.xfPhase) })
  | none => p

/-- The commit step (45_update_scheduler.md R187). -/
def xfadeCommit (p : Psg) : Psg :=
  match phaseChan p.g.xfPhase with
  | some c => p.modChan c (fun x => { x with attenuation := x.attenuation.set (phaseSide p.g.xfPhase) p.g.xfLatch })
  | none => p

/-- The end of a phase: the next phase, the countdown's reload, and the chaining of a pending request at the wrap
(45_update_scheduler.md R183, R188, R189). -/
def nextPhase (g : Global) : Global :=
  let reload := if g.xfPhase % 2 = 1 then xfAfterCommit else xfAfterSample
  let phase := (g.xfPhase + 1) % xfadeSteps
  if phase ≠ 0 then { g with xfPhase := phase, xfCountdown := reload }
  else if g.xfPending then { g with xfPhase := phase, xfCountdown := reload, xfPending := false }
  else { g with xfPhase := phase }

/-- `XfadeStep()` (45_update_scheduler.md R183). -/
def xfadeStep (p : Psg) : Psg :=
  (if p.g.xfPhase % 2 = 0 then xfadeSample p else xfadeCommit p).modGlobal nextPhase

/-- The start of a crossfade cycle (45_update_scheduler.md R176). -/
def startXfade (p : Psg) : Psg :=
  if p.g.xfPending = true ∧ p.g.xfCountdown = 0 ∧ p.g.xfPhase = 0 then
    p.modGlobal (fun g => { g with xfCountdown := 1, xfPending := false })
  else p

/-- The LFO is effective: mode on, the modulator enabled, not halted (45_update_scheduler.md R177). -/
def lfoLive (p : Psg) : Bool := lfoOn p && enBit (p.chan 1).control && !haltBit p.g.lfoControl

/-- The gating recompute: mode on but not effective (45_update_scheduler.md R177). -/
def gateLfo (p : Psg) : Psg := if lfoOn p && !lfoLive p then recalcTone 0 p else p

/-- The length of the next chunk (45_update_scheduler.md R178). -/
def chunkLen (remaining : Nat) (p : Psg) : Nat :=
  if 0 < p.g.xfCountdown ∧ p.g.xfCountdown < remaining then p.g.xfCountdown else remaining

/-- The crossfade countdown after a chunk (45_update_scheduler.md R180). -/
def tickXfade (chunk : Nat) (p : Psg) : Psg :=
  if 0 < p.g.xfCountdown then
    let p := p.modGlobal (fun g => { g with xfCountdown := g.xfCountdown - chunk })
    if p.g.xfCountdown = 0 then xfadeStep p else p
  else p

/-- One chunk: every channel, then the crossfade, then `g.last_ts` (45_update_scheduler.md R179 to R181). -/
def runChunk (live : Bool) (chunk : Nat) (p : Psg) : Psg :=
  let target := p.g.lastTs + chunk
  (tickXfade chunk (forChans (fun c => runChannel c target live) p)).modGlobal (fun g => { g with lastTs := target })

/-- One iteration of the chunk loop on the ticks that remain and the machine (45_update_scheduler.md R174). -/
def chunkStep (live : Bool) (x : Nat × Psg) : Nat × Psg :=
  (x.1 - chunkLen x.1 x.2, runChunk live (chunkLen x.1 x.2) x.2)

/-- The chunk loop (45_update_scheduler.md R174): a chunk is at least one tick, which bounds it (R178, log 18). -/
def chunkLoop (live : Bool) (n : Nat) (p : Psg) : Psg :=
  (loopWhile (fun x => decide (0 < x.1)) (chunkStep live) n (n, p)).2

/-- The part of `Update` before the chunk loop (45_update_scheduler.md R176, R177). -/
def beginUpdate (p : Psg) : Psg := gateLfo (startXfade p)

/-- `Update(ts)` (45_update_scheduler.md R174). With `ts < g.last_ts` no chunk runs (U1, log 5). -/
def update (ts : Int) (p : Psg) : Psg :=
  let q := beginUpdate p
  chunkLoop (lfoLive q) (ts - p.g.lastTs).toNat q

end Sys2Proof.Machine
end

