-- ==== Sys2Proof/Machine/Writes.lean ====
section
/-! DEFINITION. The register writes (46_register_writes.md R195 to R214): what each offset does to PSG-CORE, and one
meaning per offset. -/

namespace Sys2Proof.Machine

/-- Offset 0: `g.select`, without a flush (46_register_writes.md R197). -/
def writeSelect (value : Byte) (p : Psg) : Psg := p.modGlobal (fun g => { g with select := selectOf value })

/-- Offset 1 after the flush (46_register_writes.md R198). -/
def writeGbal (value : Byte) (p : Psg) : Psg :=
  requestXfade (p.modGlobal (fun g => { g with globalBalance := value }))

/-- Offset 2 on a channel after the flush (46_register_writes.md R199). -/
def writeFreqLo (value : Byte) (c : ChanIdx) (p : Psg) : Psg :=
  recalcTone c (p.modChan c (fun x => { x with frequency := withFreqLo x.frequency value }))

/-- Offset 3 on a channel after the flush (46_register_writes.md R200). -/
def writeFreqHi (value : Byte) (c : ChanIdx) (p : Psg) : Psg :=
  recalcTone c (p.modChan c (fun x => { x with frequency := withFreqHi x.frequency value }))

/-- `waveform_index <- 0`, `dda_latch <- WaveRead(c, 0)`, `counter <- freq_cache` (46_register_writes.md R202,
R211). -/
def rewind (x : Chan) : Chan :=
  { x with waveformIndex := 0, ddaLatch := waveRead x 0, counter := x.freqCache.ticks }

/-- The edge actions of a control write (46_register_writes.md R202, R203). -/
def controlEdges (value : Byte) (x : Chan) : Chan :=
  let x' := if !ddaBit x.control && ddaBit value then rewind x else x
  if !enBit x.control && enBit value && !ddaBit value then advanceBy 1 x' else x'

/-- Offset 4 on a channel after the flush (46_register_writes.md R201, R204). -/
def writeCtrl (value : Byte) (c : ChanIdx) (p : Psg) : Psg :=
  requestXfade (recalcTone c (p.modChan c (fun x => { controlEdges value x with control := value })))

/-- Offset 5 on a channel after the flush (46_register_writes.md R205). -/
def writeBal (value : Byte) (c : ChanIdx) (p : Psg) : Psg :=
  requestXfade (p.modChan c (fun x => { x with balance := value }))

/-- Offset 6 on a channel after the flush: the store at the index (46_register_writes.md R206), the index advance
(R207) and the latch load (R208). -/
def writeWave (value : Byte) (c : ChanIdx) (p : Psg) : Psg :=
  p.modChan c (fun x =>
    let x := waveWrite x x.waveformIndex.toNat (sampleOf value)
    let x := if !ddaBit x.control then { x with waveformIndex := x.waveformIndex + 1 } else x
    if enBit x.control then { x with ddaLatch := sampleOf value } else x)

/-- Offset 7 on a channel after the flush: channels 4 and 5 only (46_register_writes.md R209). -/
def writeNoise (value : Byte) (c : ChanIdx) (p : Psg) : Psg :=
  if 4 ≤ c.val then recalcOfn c (recalcNoise c (p.modChan c (fun x => { x with noiseControl := value }))) else p

/-- Offset 8 after the flush (46_register_writes.md R210). -/
def writeLfofreq (value : Byte) (p : Psg) : Psg := p.modGlobal (fun g => { g with lfoFrequency := value })

/-- `g.lfo_control <- v` and the recompute of channels 0 and 1 (46_register_writes.md R211,
47_lifecycle_host.md R231). -/
def storeLfoctrl (value : Byte) (p : Psg) : Psg :=
  recalcTone 1 (recalcTone 0 (p.modGlobal (fun g => { g with lfoControl := value })))

/-- Offset 9 after the flush: the trigger, the store, the recompute (46_register_writes.md R211). -/
def writeLfoctrl (value : Byte) (p : Psg) : Psg :=
  storeLfoctrl value (if haltBit value then p.modChan 1 rewind else p)

/-- `W_SELECT` (46_register_writes.md R197): the timestamp is ignored. -/
def execWSelect (_ts : Int) (value : Byte) (s : State) : Host.Outcome State Fault Refusal :=
  answer s (writeSelect value s.psg) .nothing

/-- `W_GBAL` (46_register_writes.md R198). -/
def execWGbal (ts : Int) (value : Byte) (s : State) : Host.Outcome State Fault Refusal :=
  complete s (writeGbal value (update ts s.psg)) .nothing

/-- `W_FREQ_LO` (46_register_writes.md R199). -/
def execWFreqLo (ts : Int) (value : Byte) (s : State) : Host.Outcome State Fault Refusal :=
  complete s (onSelected (writeFreqLo value) (update ts s.psg)) .nothing

/-- `W_FREQ_HI` (46_register_writes.md R200). -/
def execWFreqHi (ts : Int) (value : Byte) (s : State) : Host.Outcome State Fault Refusal :=
  complete s (onSelected (writeFreqHi value) (update ts s.psg)) .nothing

/-- `W_CTRL` (46_register_writes.md R201). -/
def execWCtrl (ts : Int) (value : Byte) (s : State) : Host.Outcome State Fault Refusal :=
  complete s (onSelected (writeCtrl value) (update ts s.psg)) .nothing

/-- `W_BAL` (46_register_writes.md R205). -/
def execWBal (ts : Int) (value : Byte) (s : State) : Host.Outcome State Fault Refusal :=
  complete s (onSelected (writeBal value) (update ts s.psg)) .nothing

/-- `W_WAVE` (46_register_writes.md R206). -/
def execWWave (ts : Int) (value : Byte) (s : State) : Host.Outcome State Fault Refusal :=
  complete s (onSelected (writeWave value) (update ts s.psg)) .nothing

/-- `W_NOISE` (46_register_writes.md R209). -/
def execWNoise (ts : Int) (value : Byte) (s : State) : Host.Outcome State Fault Refusal :=
  complete s (onSelected (writeNoise value) (update ts s.psg)) .nothing

/-- `W_LFOFREQ` (46_register_writes.md R210). -/
def execWLfofreq (ts : Int) (value : Byte) (s : State) : Host.Outcome State Fault Refusal :=
  complete s (writeLfofreq value (update ts s.psg)) .nothing

/-- `W_LFOCTRL` (46_register_writes.md R211). -/
def execWLfoctrl (ts : Int) (value : Byte) (s : State) : Host.Outcome State Fault Refusal :=
  complete s (writeLfoctrl value (update ts s.psg)) .nothing

/-- `W_RSVD_A` (46_register_writes.md R212): the flush and nothing else. -/
def execWRsvdA (ts : Int) (_value : Byte) (s : State) : Host.Outcome State Fault Refusal :=
  complete s (update ts s.psg) .nothing

/-- `W_RSVD_B` (46_register_writes.md R212): the flush and nothing else. -/
def execWRsvdB (ts : Int) (_value : Byte) (s : State) : Host.Outcome State Fault Refusal :=
  complete s (update ts s.psg) .nothing

/-- `W_RSVD_C` (46_register_writes.md R212): the flush and nothing else. -/
def execWRsvdC (ts : Int) (_value : Byte) (s : State) : Host.Outcome State Fault Refusal :=
  complete s (update ts s.psg) .nothing

/-- `W_RSVD_D` (46_register_writes.md R212): the flush and nothing else. -/
def execWRsvdD (ts : Int) (_value : Byte) (s : State) : Host.Outcome State Fault Refusal :=
  complete s (update ts s.psg) .nothing

/-- `W_RSVD_E` (46_register_writes.md R212): the flush and nothing else. -/
def execWRsvdE (ts : Int) (_value : Byte) (s : State) : Host.Outcome State Fault Refusal :=
  complete s (update ts s.psg) .nothing

/-- `W_RSVD_F` (46_register_writes.md R212): the flush and nothing else. -/
def execWRsvdF (ts : Int) (_value : Byte) (s : State) : Host.Outcome State Fault Refusal :=
  complete s (update ts s.psg) .nothing

end Sys2Proof.Machine
end

