-- ==== Sys2Proof/Machine/Debug.lean ====
section
/-! DEFINITION. The debug path (47_lifecycle_host.md R230 to R235): field access, waveform peek and poke, save and
restore. None of it advances time. -/

namespace Sys2Proof.Machine

/-- The number an output function reads as (47_lifecycle_host.md R230). -/
def ofnCode : OutFn → Int
  | .off => 0
  | .normal => 1
  | .noise => 2
  | .accumulate => 3

/-- The value of a per-channel field (47_lifecycle_host.md R230). -/
def getChanField (x : Chan) : ChanField → Int
  | .freq => x.frequency.toNat
  | .ctrl => x.control.toNat
  | .balance => x.balance.toNat
  | .nctrl => x.noiseControl.toNat
  | .windex => x.waveformIndex.toNat
  | .ddalatch => x.ddaLatch.toNat
  | .acc => x.sampleAccumulator
  | .counter => x.counter
  | .freqcache => x.freqCache.ticks
  | .ncount => x.noiseCount
  | .nfreqcache => x.noiseFreqCache.ticks
  | .lfsr => x.lfsr.toNat
  | .attL => x.attenuation.left.toNat
  | .attR => x.attenuation.right.toNat
  | .prevL => x.prev.left
  | .prevR => x.prev.right
  | .ofn => ofnCode x.outputFunction
  | .lastts => x.lastTs

/-- The value of a global field (47_lifecycle_host.md R230). -/
def getGlobField (g : Global) : GlobField → Int
  | .select => g.select.toNat
  | .gbal => g.globalBalance.toNat
  | .lfofreq => g.lfoFrequency.toNat
  | .lfoctrl => g.lfoControl.toNat
  | .glastts => g.lastTs
  | .xfPending => if g.xfPending then 1 else 0
  | .xfCountdown => g.xfCountdown
  | .xfPhase => g.xfPhase
  | .xfLatch => g.xfLatch.toNat

/-- `GetRegister(id)` (47_lifecycle_host.md R230). -/
def getField (p : Psg) : FieldId → Int
  | .chan c f => getChanField (p.chan c) f
  | .glob f => getGlobField p.g f

/-- `SetRegister` of a per-channel field: the machine after it, none where the field is not settable
(47_lifecycle_host.md R231). -/
def setChanField (c : ChanIdx) (v : Int) (p : Psg) : ChanField → Option Psg
  | .freq => some (recalcTone c (p.modChan c (fun x => { x with frequency := maskTo 12 v })))
  | .ctrl => some (requestXfade (recalcTone c (p.modChan c (fun x => { x with control := maskTo 8 v }))))
  | .balance => some (requestXfade (p.modChan c (fun x => { x with balance := maskTo 8 v })))
  | .nctrl =>
    if 4 ≤ c.val then
      some (recalcOfn c (recalcNoise c (p.modChan c (fun x => { x with noiseControl := maskTo 8 v }))))
    else none
  | .windex => some (p.modChan c (fun x => { x with waveformIndex := maskTo 5 v }))
  | .ddalatch => some (p.modChan c (fun x => { x with ddaLatch := maskTo 5 v }))
  | .lfsr => some (p.modChan c (fun x => { x with lfsr := nonzeroLfsr (maskTo 18 v) }))
  | .acc => none
  | .counter => none
  | .freqcache => none
  | .ncount => none
  | .nfreqcache => none
  | .attL => none
  | .attR => none
  | .prevL => none
  | .prevR => none
  | .ofn => none
  | .lastts => none

/-- `SetRegister` of a global field: the machine after it, none where the field is not settable
(47_lifecycle_host.md R231). -/
def setGlobField (v : Int) (p : Psg) : GlobField → Option Psg
  | .select => some (p.modGlobal (fun g => { g with select := maskTo 3 v }))
  | .gbal => some (requestXfade (p.modGlobal (fun g => { g with globalBalance := maskTo 8 v })))
  | .lfofreq => some (p.modGlobal (fun g => { g with lfoFrequency := maskTo 8 v }))
  | .lfoctrl => some (storeLfoctrl (maskTo 8 v) p)
  | .glastts => none
  | .xfPending => none
  | .xfCountdown => none
  | .xfPhase => none
  | .xfLatch => none

/-- `SetRegister(id, v)` (47_lifecycle_host.md R231). -/
def setField (id : FieldId) (v : Int) (p : Psg) : Option Psg :=
  match id with
  | .chan c f => setChanField c v p f
  | .glob f => setGlobField v p f

/-- The per-channel part of the record `SaveState` returns (47_lifecycle_host.md R234). -/
def saveChan (x : Chan) : ChanRecord where
  frequency := x.frequency.toNat
  control := x.control.toNat
  balance := x.balance.toNat
  noiseControl := x.noiseControl.toNat
  waveform := x.waveform.map (fun s => (s.toNat : Int))
  waveformIndex := x.waveformIndex.toNat
  ddaLatch := x.ddaLatch.toNat
  sampleAccumulator := x.sampleAccumulator
  counter := x.counter
  freqCache := x.freqCache.ticks
  noiseCount := x.noiseCount
  noiseFreqCache := x.noiseFreqCache.ticks
  lfsr := x.lfsr.toNat
  attenuation := ⟨x.attenuation.left.toNat, x.attenuation.right.toNat⟩
  prev := x.prev
  outputFunction := x.outputFunction
  lastTs := x.lastTs

/-- `SaveState()` (47_lifecycle_host.md R234). -/
def saveState (p : Psg) : Record where
  select := p.g.select.toNat
  globalBalance := p.g.globalBalance.toNat
  lfoFrequency := p.g.lfoFrequency.toNat
  lfoControl := p.g.lfoControl.toNat
  lastTs := p.g.lastTs
  xfPending := p.g.xfPending
  xfCountdown := p.g.xfCountdown
  xfPhase := p.g.xfPhase
  xfLatch := p.g.xfLatch.toNat
  ch := p.ch.map saveChan

/-- A countdown with a non-positive value forced to 1 (47_lifecycle_host.md R235). -/
def atLeastOne (x : Int) : Int := if x ≤ 0 then 1 else x

/-- `clamp(x, 0, 255)` (47_lifecycle_host.md R235). -/
def clampCountdown (x : Int) : Nat := if x < 0 then 0 else if 255 < x then 255 else x.toNat

/-- The masked and repaired registers of channel `c` of a record (47_lifecycle_host.md R235). The derived periods and
the output function are not taken from the record: they keep the value of `x` until the recompute that follows. -/
def loadChan (c : ChanIdx) (r : ChanRecord) (x : Chan) : Chan :=
  { x with
    frequency := maskTo 12 r.frequency
    control := maskTo 8 r.control
    balance := maskTo 8 r.balance
    noiseControl := if 4 ≤ c.val then maskTo 8 r.noiseControl else 0
    waveform := r.waveform.map (maskTo 5)
    waveformIndex := maskTo 5 r.waveformIndex
    ddaLatch := maskTo 5 r.ddaLatch
    attenuation := ⟨maskTo 5 r.attenuation.left, maskTo 5 r.attenuation.right⟩
    prev := r.prev
    lastTs := r.lastTs
    lfsr := nonzeroLfsr (maskTo 18 r.lfsr)
    counter := atLeastOne r.counter
    noiseCount := atLeastOne r.noiseCount
    sampleAccumulator := waveSum (r.waveform.map (maskTo 5)) }

/-- The masked and repaired global fields of a record (47_lifecycle_host.md R235). -/
def loadGlobal (r : Record) : Global where
  select := maskTo 3 r.select
  globalBalance := maskTo 8 r.globalBalance
  lfoFrequency := maskTo 8 r.lfoFrequency
  lfoControl := maskTo 8 r.lfoControl
  lastTs := r.lastTs
  xfPending := r.xfPending
  xfCountdown := clampCountdown r.xfCountdown
  xfPhase := (r.xfPhase % (xfadeSteps : Int)).toNat
  xfLatch := maskTo 5 r.xfLatch

/-- `RecalcFreq(c)`, `RecalcNoise(c)`, `RecalcOfn(c)` (47_lifecycle_host.md R235). -/
def recalcAll (c : ChanIdx) (p : Psg) : Psg := recalcOfn c (recalcNoise c (recalcFreq c p))

/-- `LoadState(r)` (47_lifecycle_host.md R235): every mask and repair first, then the recompute. -/
def loadState (r : Record) (p : Psg) : Psg :=
  forChans recalcAll (forChans (fun c p => p.modChan c (loadChan c r.ch[c])) { p with g := loadGlobal r })

/-- `GETREG` (47_lifecycle_host.md R230). -/
def execGetreg (id : FieldId) (s : State) : Host.Outcome State Fault Refusal :=
  answer s s.psg (.value (getField s.psg id))

/-- `SETREG` (47_lifecycle_host.md R231). A field that is not settable is refused to the host and nothing changes
(DESIGN CHOICE, log 9). -/
def execSetreg (id : FieldId) (v : Int) (s : State) : Host.Outcome State Fault Refusal :=
  match setField id v s.psg with
  | some p => answer s p .nothing
  | none => answer s s.psg .declined

/-- `PEEK` (47_lifecycle_host.md R232). -/
def execPeek (c : ChanIdx) (i : Byte) (s : State) : Host.Outcome State Fault Refusal :=
  answer s s.psg (.value (waveRead (s.psg.chan c) i.toNat).toNat)

/-- `POKE` (47_lifecycle_host.md R233). -/
def execPoke (c : ChanIdx) (i : Byte) (v : Int) (s : State) : Host.Outcome State Fault Refusal :=
  answer s (s.psg.modChan c (fun x => waveWrite x i.toNat (maskTo 5 v))) .nothing

/-- `SAVE` (47_lifecycle_host.md R234). -/
def execSave (s : State) : Host.Outcome State Fault Refusal := answer s s.psg (.record (saveState s.psg))

/-- `LOAD` (47_lifecycle_host.md R235). -/
def execLoad (r : Record) (s : State) : Host.Outcome State Fault Refusal := answer s (loadState r s.psg) .nothing

end Sys2Proof.Machine
end

