-- ==== Sys2Proof/Machine/Lifecycle.lean ====
section
/-! DEFINITION. The host control operations: `Update` (45_update_scheduler.md R174), `Power` (47_lifecycle_host.md
R225), `ResetTS` (R229) and `Construct` (R224). -/

namespace Sys2Proof.Machine

/-- The registers and run-time fields `Power` sets before the recompute (47_lifecycle_host.md R225); `prev` and
`last_ts` stay (R227). -/
def clearChan (x : Chan) : Chan :=
  { x with
    frequency := 0
    control := 0
    balance := 0
    noiseControl := 0
    waveform := Vector.replicate 32 0
    sampleAccumulator := 0
    waveformIndex := 0
    ddaLatch := 0
    attenuation := ⟨31, 31⟩ }

/-- The fields `Power` sets after the recompute (47_lifecycle_host.md R225). -/
def seedChan (x : Chan) : Chan := { x with noiseCount := 1, lfsr := 1 }

/-- `Power` on one channel (47_lifecycle_host.md R225, R226, R228). -/
def powerChan (c : ChanIdx) (p : Psg) : Psg :=
  let p := recalcTone c (p.modChan c clearChan)
  let p := p.modChan c (fun x => { x with counter := x.freqCache.ticks })
  (recalcNoise c p).modChan c seedChan

/-- The programmable global registers and the crossfade machine cleared; `g.last_ts` stays (47_lifecycle_host.md
R225, R227). The crossfade fields may be cleared first, since no step of `Power` reads them. -/
def clearGlobal (g : Global) : Global :=
  { g with
    select := 0
    globalBalance := 0
    lfoFrequency := 0
    lfoControl := 0
    xfPending := false
    xfCountdown := 0
    xfPhase := 0
    xfLatch := 0 }

/-- The reset part of `Power` (47_lifecycle_host.md R225). -/
def powerReset (p : Psg) : Psg := forChans powerChan (p.modGlobal clearGlobal)

/-- `Power(ts)` (47_lifecycle_host.md R225): time is flushed first if `ts` differs from `g.last_ts`. -/
def power (ts : Int) (p : Psg) : Psg := powerReset (if ts ≠ p.g.lastTs then update ts p else p)

/-- `ResetTS(base)` (47_lifecycle_host.md R229). -/
def resetTs (base : Int) (p : Psg) : Psg :=
  forChans (fun c p => p.modChan c (fun x => { x with lastTs := base }))
    (p.modGlobal (fun g => { g with lastTs := base }))

/-- `Construct(rev, HR_L, HR_R)` (47_lifecycle_host.md R224): timestamps and `prev` at 0, the buffers bound as they
are, then `Power(0)`. -/
def construct (rev : Rev) (hr : Stereo Memory) : Psg := power 0 (Psg.fresh rev hr)

/-- `UPD` (45_update_scheduler.md R174). -/
def execUpd (ts : Int) (s : State) : Host.Outcome State Fault Refusal := complete s (update ts s.psg) .nothing

/-- `PWR` (47_lifecycle_host.md R225). -/
def execPwr (ts : Int) (s : State) : Host.Outcome State Fault Refusal := complete s (power ts s.psg) .nothing

/-- `RTS` (47_lifecycle_host.md R229). -/
def execRts (base : Int) (s : State) : Host.Outcome State Fault Refusal := answer s (resetTs base s.psg) .nothing

/-- `CONSTRUCT_REV_0` (47_lifecycle_host.md R224): the machine is a new one (log 13). -/
def execConstructRev0 (hr : Stereo Memory) (s : State) : Host.Outcome State Fault Refusal :=
  answer s (construct .rev0 hr) .nothing

/-- `CONSTRUCT_REV_A` (47_lifecycle_host.md R224): the machine is a new one (log 13). -/
def execConstructRevA (hr : Stereo Memory) (s : State) : Host.Outcome State Fault Refusal :=
  answer s (construct .revA hr) .nothing

end Sys2Proof.Machine
end

