-- ==== Sys2Proof/Machine/Dispatch.lean ====
section
/-! DEFINITION. The dispatch: one arm per constructor of `Instr`, each one call of that instruction's meaning
(30_encoding.md R90). -/

namespace Sys2Proof.Machine

def exec (i : Instr) (s : State) : Host.Outcome State Fault Refusal :=
  match i with
  | .wSelect ts value => Sys2Proof.Machine.execWSelect ts value s
  | .wGbal ts value => Sys2Proof.Machine.execWGbal ts value s
  | .wFreqLo ts value => Sys2Proof.Machine.execWFreqLo ts value s
  | .wFreqHi ts value => Sys2Proof.Machine.execWFreqHi ts value s
  | .wCtrl ts value => Sys2Proof.Machine.execWCtrl ts value s
  | .wBal ts value => Sys2Proof.Machine.execWBal ts value s
  | .wWave ts value => Sys2Proof.Machine.execWWave ts value s
  | .wNoise ts value => Sys2Proof.Machine.execWNoise ts value s
  | .wLfofreq ts value => Sys2Proof.Machine.execWLfofreq ts value s
  | .wLfoctrl ts value => Sys2Proof.Machine.execWLfoctrl ts value s
  | .wRsvdA ts value => Sys2Proof.Machine.execWRsvdA ts value s
  | .wRsvdB ts value => Sys2Proof.Machine.execWRsvdB ts value s
  | .wRsvdC ts value => Sys2Proof.Machine.execWRsvdC ts value s
  | .wRsvdD ts value => Sys2Proof.Machine.execWRsvdD ts value s
  | .wRsvdE ts value => Sys2Proof.Machine.execWRsvdE ts value s
  | .wRsvdF ts value => Sys2Proof.Machine.execWRsvdF ts value s
  | .upd ts => Sys2Proof.Machine.execUpd ts s
  | .pwr ts => Sys2Proof.Machine.execPwr ts s
  | .rts base => Sys2Proof.Machine.execRts base s
  | .getreg id => Sys2Proof.Machine.execGetreg id s
  | .setreg id v => Sys2Proof.Machine.execSetreg id v s
  | .peek c j => Sys2Proof.Machine.execPeek c j s
  | .poke c j v => Sys2Proof.Machine.execPoke c j v s
  | .save => Sys2Proof.Machine.execSave s
  | .load r => Sys2Proof.Machine.execLoad r s
  | .constructRev0 hr => Sys2Proof.Machine.execConstructRev0 hr s
  | .constructRevA hr => Sys2Proof.Machine.execConstructRevA hr s

end Sys2Proof.Machine
end

