-- ==== Sys2Proof/Machine/Step.lean ====
section
/-! DEFINITION. One step of the machine: the oldest operation the host has pending is decoded and performed. -/

namespace Sys2Proof.Machine

/-- What a step answers for a command the decoder refuses (30_encoding.md R96, 60_exceptions.md R255). -/
def refuseCommand : DecodeError → Host.Outcome State Fault Refusal
  | .badRevision => .fault .fatalConfig
  | .reservedKind => .refused .reservedKind
  | .badChannel => .refused .badChannel
  | .badField => .refused .badField

/-- Performing one command of the host (30_encoding.md R90). -/
def performCommand (k : Command) (s : State) : Host.Outcome State Fault Refusal :=
  match decode k with
  | .ok i => exec i s
  | .error e => refuseCommand e

/-- One step: the oldest pending operation leaves the queue and runs to completion (00_scope.md R5). With none
pending nothing happens: the engine acts only when the host calls it (log 1). -/
def step (s : State) : Host.Outcome State Fault Refusal :=
  match s.queue with
  | [] => .next s
  | k :: rest => performCommand k { s with queue := rest }

/-- `s` with the command whose bits are `w` placed where the next step takes its operation from: in front of the
host's pending operations (log 1, log 17). -/
def State.withFetchWord (s : State) (nbits w : Nat) : State := { s with queue := commandOfBits nbits w :: s.queue }

end Sys2Proof.Machine
end

