-- ==== Sys2Proof/Laws/Memory.lean ====
section
/-! SUPPORT. The host's buffers: reading after adding, the canonical form and that every memory operation keeps it,
and that buffers in canonical form that read the same are the same data. -/

namespace Sys2Proof

/-- Reading a cell after adding into a cell of a list (any list whose cells rise from `lo`). -/
theorem readCell_addCell (i k : Nat) (d : Int) (len lo : Nat) (l : List (Nat × Int)) (h : cellsWf len lo l = true) :
    readCell k (addCell i d l) = readCell k l + (if k = i then d else 0) := by
  induction l generalizing lo with
  | nil =>
    by_cases hd : d = 0 <;> by_cases hk : k = i <;> simp [addCell, readCell, hd, hk]
  | cons e rest ih =>
    obtain ⟨j, v⟩ := e
    simp only [cellsWf, Bool.and_eq_true, decide_eq_true_eq] at h
    obtain ⟨⟨⟨hlo, hj⟩, hv⟩, hr⟩ := h
    have hfar : ∀ m, m ≤ j → readCell m rest = 0 := by
      intro m hm
      clear ih
      have key : ∀ (l : List (Nat × Int)) (lo' : Nat), m < lo' → cellsWf len lo' l = true → readCell m l = 0 := by
        intro l
        induction l with
        | nil => intros; rfl
        | cons e rest ih =>
          obtain ⟨j', v'⟩ := e
          intro lo' hm' hw
          simp only [cellsWf, Bool.and_eq_true, decide_eq_true_eq] at hw
          have : m ≠ j' := by omega
          simp only [readCell, this, if_false]
          exact ih (j' + 1) (by omega) hw.2
      exact key rest (j + 1) (by omega) hr
    simp only [addCell]
    split
    · next hij =>
      split
      · next hd => simp [hd]
      · next hd =>
        by_cases hk : k = i
        · subst hk
          have : k ≠ j := by omega
          simp [readCell, this, hfar k (by omega)]
        · simp [readCell, hk]
    · next hij =>
      split
      · next hij' =>
        subst hij'
        split
        · next hs =>
          by_cases hk : k = i
          · subst hk
            simp only [readCell, if_true, hfar k (le_refl k)]
            omega
          · simp [readCell, hk]
        · next hs =>
          by_cases hk : k = i <;> simp [readCell, hk]
      · next hne =>
        by_cases hk : k = j
        · subst hk
          have : k ≠ i := fun e => hne e.symm
          simp [readCell, this]
        · simp only [readCell, hk, if_false]
          exact ih (j + 1) hr

/-- Cells that rise from `lo` on also rise from any smaller bound on. -/
theorem cellsWf_mono {len lo lo' : Nat} {l : List (Nat × Int)} (h : cellsWf len lo l = true) (hl : lo' ≤ lo) :
    cellsWf len lo' l = true := by
  cases l with
  | nil => rfl
  | cons e rest =>
    obtain ⟨j, v⟩ := e
    simp only [cellsWf, Bool.and_eq_true, decide_eq_true_eq] at h ⊢
    exact ⟨⟨⟨by omega, h.1.1.2⟩, h.1.2⟩, h.2⟩

/-- Adding into a cell of the buffer keeps the canonical form of its list of cells. -/
theorem cellsWf_addCell {len lo i : Nat} {d : Int} {l : List (Nat × Int)} (h : cellsWf len lo l = true) (hlo : lo ≤ i)
    (hi : i < len) : cellsWf len lo (addCell i d l) = true := by
  induction l generalizing lo with
  | nil => by_cases hd : d = 0 <;> simp [addCell, cellsWf, hd, hlo, hi]
  | cons e rest ih =>
    obtain ⟨j, v⟩ := e
    have h0 := h
    simp only [cellsWf, Bool.and_eq_true, decide_eq_true_eq] at h
    obtain ⟨⟨⟨hj, hjl⟩, hv⟩, hr⟩ := h
    simp only [addCell]
    split
    · next hij =>
      split
      · exact h0
      · next hd =>
        simp only [cellsWf, Bool.and_eq_true, decide_eq_true_eq]
        exact ⟨⟨⟨hlo, hi⟩, hd⟩, ⟨⟨by omega, hjl⟩, hv⟩, hr⟩
    · split
      · next hij =>
        subst hij
        split
        · exact cellsWf_mono hr (by omega)
        · next hs =>
          simp only [cellsWf, Bool.and_eq_true, decide_eq_true_eq]
          exact ⟨⟨⟨hj, hjl⟩, hs⟩, hr⟩
      · next hne =>
        simp only [cellsWf, Bool.and_eq_true, decide_eq_true_eq]
        exact ⟨⟨⟨hj, hjl⟩, hv⟩, ih hr (by omega)⟩

/-- Adding 0 changes nothing. -/
theorem addCell_zero {len lo i : Nat} {l : List (Nat × Int)} (h : cellsWf len lo l = true) : addCell i 0 l = l := by
  induction l generalizing lo with
  | nil => simp [addCell]
  | cons e rest ih =>
    obtain ⟨j, v⟩ := e
    simp only [cellsWf, Bool.and_eq_true, decide_eq_true_eq] at h
    simp only [addCell]
    split
    · simp
    · split
      · simp [h.1.2]
      · rw [ih h.2]

/-- A cell below every listed cell reads 0. -/
theorem readCell_below {len lo i : Nat} {l : List (Nat × Int)} (h : cellsWf len lo l = true) (hi : i < lo) :
    readCell i l = 0 := by
  induction l generalizing lo with
  | nil => rfl
  | cons e rest ih =>
    obtain ⟨j, v⟩ := e
    simp only [cellsWf, Bool.and_eq_true, decide_eq_true_eq] at h
    have : i ≠ j := by omega
    simp only [readCell, this, if_false]
    exact ih h.2 (by omega)

/-- Lists of cells in canonical form that read the same at every cell are equal. -/
theorem cells_ext {len lo : Nat} {l l' : List (Nat × Int)} (h : cellsWf len lo l = true) (h' : cellsWf len lo l' = true)
    (he : ∀ i, readCell i l = readCell i l') : l = l' := by
  induction l generalizing lo l' with
  | nil =>
    cases l' with
    | nil => rfl
    | cons e rest =>
      obtain ⟨j, v⟩ := e
      simp only [cellsWf, Bool.and_eq_true, decide_eq_true_eq] at h'
      have := he j
      simp [readCell] at this
      exact absurd this.symm h'.1.2
  | cons e rest ih =>
    obtain ⟨j, v⟩ := e
    cases l' with
    | nil =>
      simp only [cellsWf, Bool.and_eq_true, decide_eq_true_eq] at h
      have := he j
      simp [readCell] at this
      exact absurd this h.1.2
    | cons e' rest' =>
      obtain ⟨j', v'⟩ := e'
      have h0 := h
      have h0' := h'
      simp only [cellsWf, Bool.and_eq_true, decide_eq_true_eq] at h h'
      have hj : j = j' := by
        rcases Nat.lt_trichotomy j j' with hlt | heq | hgt
        · have hz : readCell j ((j', v') :: rest') = 0 := by
            simp only [readCell, Nat.ne_of_lt hlt, if_false]
            exact readCell_below h'.2 (by omega)
          have := he j
          rw [hz] at this
          simp [readCell] at this
          exact absurd this h.1.2
        · exact heq
        · have hz : readCell j' ((j, v) :: rest) = 0 := by
            simp only [readCell, Nat.ne_of_lt hgt, if_false]
            exact readCell_below h.2 (by omega)
          have := he j'
          rw [hz] at this
          simp [readCell] at this
          exact absurd this.symm h'.1.2
      subst hj
      have hv : v = v' := by simpa [readCell] using he j
      subst hv
      have hrest : rest = rest' := by
        refine ih h.2 h'.2 (fun i => ?_)
        by_cases hi : i = j
        · subst hi
          rw [readCell_below h.2 (by omega), readCell_below h'.2 (by omega)]
        · simpa [readCell, hi] using he i
      rw [hrest]

/-- The canonical form of any list of cells is canonical. -/
theorem canonCells_wf (len : Nat) (l : List (Nat × Int)) : cellsWf len 0 (canonCells len l) = true := by
  induction l with
  | nil => rfl
  | cons e rest ih =>
    obtain ⟨j, v⟩ := e
    simp only [canonCells]
    split
    · next hj => exact cellsWf_addCell ih (Nat.zero_le _) hj
    · exact ih

/-- A list of cells in canonical form is its own canonical form. -/
theorem canonCells_id {len lo : Nat} {l : List (Nat × Int)} (h : cellsWf len lo l = true) : canonCells len l = l := by
  induction l generalizing lo with
  | nil => rfl
  | cons e rest ih =>
    obtain ⟨j, v⟩ := e
    simp only [cellsWf, Bool.and_eq_true, decide_eq_true_eq] at h
    simp only [canonCells, h.1.1.2, if_true, ih h.2]
    cases rest with
    | nil => simp [addCell, h.1.2]
    | cons e' rest' =>
      obtain ⟨j', v'⟩ := e'
      have hr := h.2
      simp only [cellsWf, Bool.and_eq_true, decide_eq_true_eq] at hr
      have : j < j' := by omega
      simp [addCell, this, h.1.2]

@[simp] theorem Memory.add_len (m : Memory) (i : Nat) (d : Int) : (m.add i d).len = m.len := rfl
@[simp] theorem Memory.canon_len (m : Memory) : m.canon.len = m.len := rfl
@[simp] theorem Memory.blank_len (n : Nat) : (Memory.blank n).len = n := rfl
@[simp] theorem Memory.blank_read (n i : Nat) : (Memory.blank n).read i = 0 := rfl

/-- Reading a buffer after adding into one of its cells (20_memory.md R66). -/
theorem Memory.read_add {m : Memory} (h : m.wf = true) (i k : Nat) (d : Int) :
    (m.add i d).read k = m.read k + (if k = i then d else 0) := readCell_addCell i k d m.len 0 m.cells h

/-- Adding into a cell of the buffer keeps the canonical form. -/
theorem Memory.wf_add {m : Memory} (h : m.wf = true) {i : Nat} (hi : i < m.len) (d : Int) : (m.add i d).wf = true :=
  cellsWf_addCell h (Nat.zero_le _) hi

/-- The zero-filled buffer is in canonical form. -/
@[simp] theorem Memory.wf_blank (n : Nat) : (Memory.blank n).wf = true := rfl

/-- A buffer brought to canonical form is in canonical form. -/
@[simp] theorem Memory.wf_canon (m : Memory) : m.canon.wf = true := canonCells_wf m.len m.cells

/-- A buffer in canonical form is its own canonical form. -/
theorem Memory.canon_of_wf {m : Memory} (h : m.wf = true) : m.canon = m := by
  have : canonCells m.len m.cells = m.cells := canonCells_id (lo := 0) h
  simp [Memory.canon, this]

/-- Buffers of one length in canonical form that read the same at every cell are equal. -/
theorem Memory.ext_read {m n : Memory} (hm : m.wf = true) (hn : n.wf = true) (hl : m.len = n.len)
    (h : ∀ i, m.read i = n.read i) : m = n := by
  cases m; cases n
  simp only at hl
  subst hl
  simp only [Memory.mk.injEq, true_and]
  exact cells_ext (lo := 0) hm hn h

end Sys2Proof
end

