-- ==== Sys2Proof/Laws/Decode.lean ====
section
/-! SUPPORT. The fields of an encoded command word, and the codes of the debug fields. -/

namespace Sys2Proof

@[simp] theorem cwKind_cword (k a : BitVec 4) (d : Byte) : cwKind (cword k a d) = k := by
  unfold cwKind cword
  ext i hi
  simp only [BitVec.getElem_extractLsb', BitVec.getLsbD_append]
  have h1 : ¬ 12 + i < 8 := by omega
  have h2 : ¬ 12 + i - 8 < 4 := by omega
  have h3 : 12 + i - 8 - 4 = i := by omega
  simp [h1, h2, h3, hi]

@[simp] theorem cwA_cword (k a : BitVec 4) (d : Byte) : cwA (cword k a d) = a := by
  unfold cwA cword
  ext i hi
  simp only [BitVec.getElem_extractLsb', BitVec.getLsbD_append]
  have h1 : ¬ 8 + i < 8 := by omega
  have h2 : 8 + i - 8 < 4 := by omega
  have h3 : 8 + i - 8 = i := by omega
  simp [h1, h3, hi]

@[simp] theorem cwD_cword (k a : BitVec 4) (d : Byte) : cwD (cword k a d) = d := by
  unfold cwD cword
  ext i hi
  simp only [BitVec.getElem_extractLsb', BitVec.getLsbD_append]
  have h1 : 0 + i < 8 := by omega
  simp [hi]

/-- The channel an encoded `a` field names. -/
@[simp] theorem chanOfA_chanA (c : ChanIdx) : chanOfA (chanA c) = some c := by
  fin_cases c <;> rfl

/-- A channel's code is not the code of the global fields. -/
theorem chanA_ne_glob (c : ChanIdx) : ¬ (chanA c).toNat = 0xF := by
  fin_cases c <;> decide

@[simp] theorem chanFieldOfCode_code (f : ChanField) : chanFieldOfCode f.code = some f := by
  cases f <;> rfl

@[simp] theorem globFieldOfCode_code (f : GlobField) : globFieldOfCode f.code = some f := by
  cases f <;> rfl

@[simp] theorem Command.plain_cw (w : BitVec 16) (t : Int) : (Command.plain w t).cw = w := rfl
@[simp] theorem Command.plain_t (w : BitVec 16) (t : Int) : (Command.plain w t).t = t := rfl

/-- Decoding the field of an encoded GETREG or SETREG. -/
theorem decodeField_fieldWord (kind : BitVec 4) (id : FieldId) :
    decodeField (cwA (fieldWord kind id)) (cwD (fieldWord kind id)) = .ok id := by
  cases id with
  | chan c f => simp [fieldWord, decodeField, chanA_ne_glob]
  | glob f => simp [fieldWord, decodeField]

/-- The kind of an encoded GETREG or SETREG. -/
@[simp] theorem cwKind_fieldWord (kind : BitVec 4) (id : FieldId) : cwKind (fieldWord kind id) = kind := by
  cases id <;> simp [fieldWord]

/-- Both canonical forms of buffers in canonical form. -/
theorem canon_pair {hr : Stereo Memory} (h : stereoWf hr = true) :
    (⟨hr.left.canon, hr.right.canon⟩ : Stereo Memory) = hr := by
  simp only [stereoWf, Bool.and_eq_true] at h
  rw [Memory.canon_of_wf h.1, Memory.canon_of_wf h.2]

end Sys2Proof
end

