-- ==== Sys2Proof/Laws/PerInstr.lean ====
section
/-! SUPPORT. The per-instruction family RoundTrip: decoding the encoding of a well-formed instruction gives it back
(30_encoding.md R86, R87, R90), one lemma per constructor of `Instr`. -/

-- Proofs one after another: elaborated side by side they ask for one thread, and its stack, each.
set_option Elab.async false

namespace Sys2Proof.Laws.RoundTrip

open Sys2Proof

/-- Decoding the encoding of `i` gives `i` back, if `i` is well formed. -/
def Statement (i : Instr) : Prop := i.wf = true → decode (encode i) = .ok i

theorem wSelect (ts : Int) (value : Byte) : Statement (.wSelect ts value) := by
  intro _
  simp [encode, decode, decodeWrite]

theorem wGbal (ts : Int) (value : Byte) : Statement (.wGbal ts value) := by
  intro _
  simp [encode, decode, decodeWrite]

theorem wFreqLo (ts : Int) (value : Byte) : Statement (.wFreqLo ts value) := by
  intro _
  simp [encode, decode, decodeWrite]

theorem wFreqHi (ts : Int) (value : Byte) : Statement (.wFreqHi ts value) := by
  intro _
  simp [encode, decode, decodeWrite]

theorem wCtrl (ts : Int) (value : Byte) : Statement (.wCtrl ts value) := by
  intro _
  simp [encode, decode, decodeWrite]

theorem wBal (ts : Int) (value : Byte) : Statement (.wBal ts value) := by
  intro _
  simp [encode, decode, decodeWrite]

theorem wWave (ts : Int) (value : Byte) : Statement (.wWave ts value) := by
  intro _
  simp [encode, decode, decodeWrite]

theorem wNoise (ts : Int) (value : Byte) : Statement (.wNoise ts value) := by
  intro _
  simp [encode, decode, decodeWrite]

theorem wLfofreq (ts : Int) (value : Byte) : Statement (.wLfofreq ts value) := by
  intro _
  simp [encode, decode, decodeWrite]

theorem wLfoctrl (ts : Int) (value : Byte) : Statement (.wLfoctrl ts value) := by
  intro _
  simp [encode, decode, decodeWrite]

theorem wRsvdA (ts : Int) (value : Byte) : Statement (.wRsvdA ts value) := by
  intro _
  simp [encode, decode, decodeWrite]

theorem wRsvdB (ts : Int) (value : Byte) : Statement (.wRsvdB ts value) := by
  intro _
  simp [encode, decode, decodeWrite]

theorem wRsvdC (ts : Int) (value : Byte) : Statement (.wRsvdC ts value) := by
  intro _
  simp [encode, decode, decodeWrite]

theorem wRsvdD (ts : Int) (value : Byte) : Statement (.wRsvdD ts value) := by
  intro _
  simp [encode, decode, decodeWrite]

theorem wRsvdE (ts : Int) (value : Byte) : Statement (.wRsvdE ts value) := by
  intro _
  simp [encode, decode, decodeWrite]

theorem wRsvdF (ts : Int) (value : Byte) : Statement (.wRsvdF ts value) := by
  intro _
  simp [encode, decode, decodeWrite]

theorem upd (ts : Int) : Statement (.upd ts) := by
  intro _
  simp [encode, decode]

theorem pwr (ts : Int) : Statement (.pwr ts) := by
  intro _
  simp [encode, decode]

theorem rts (base : Int) : Statement (.rts base) := by
  intro _
  simp [encode, decode]

theorem getreg (id : FieldId) : Statement (.getreg id) := by
  intro _
  simp [encode, decode, decodeGet, decodeField_fieldWord]

theorem setreg (id : FieldId) (v : Int) : Statement (.setreg id v) := by
  intro _
  simp [encode, decode, decodeSet, decodeField_fieldWord]

theorem peek (c : ChanIdx) (i : Byte) : Statement (.peek c i) := by
  intro _
  simp [encode, decode, decodePeek]

theorem poke (c : ChanIdx) (i : Byte) (v : Int) : Statement (.poke c i v) := by
  intro _
  simp [encode, decode, decodePoke]

theorem save : Statement .save := by
  intro _
  simp [encode, decode]

theorem load (r : Record) : Statement (.load r) := by
  intro _
  simp [encode, decode]

theorem constructRev0 (hr : Stereo Memory) : Statement (.constructRev0 hr) := by
  intro h
  have := canon_pair h
  simp [encode, decode, decodeConstruct, this]

theorem constructRevA (hr : Stereo Memory) : Statement (.constructRevA hr) := by
  intro h
  have := canon_pair h
  simp [encode, decode, decodeConstruct, this]

end Sys2Proof.Laws.RoundTrip
end

