-- ==== Sys2Proof/Safety.lean ====
section
/-! DEFINITION. What the host owes PSG-CORE (47_lifecycle_host.md R239), and the invariants of 10_state.md section 5,
in the terms the statements use. -/

namespace Sys2Proof.Machine

/-- The buffers have at least `HR_MASK + 7` cells (20_memory.md R78). -/
abbrev Psg.buffersFit (p : Psg) : Prop := Config.hrMask + 7 ≤ p.hr.left.len ∧ Config.hrMask + 7 ≤ p.hr.right.len

/-- The buffers fit and no addition has fallen outside them: what an operation that advances time needs to complete. -/
abbrev Psg.ready (p : Psg) : Prop := p.buffersFit ∧ p.hrOverrun = false

/-- The timestamp is not negative and does not go back (45_update_scheduler.md R175). -/
abbrev Psg.inOrder (p : Psg) (ts : Int) : Prop := 0 ≤ ts ∧ p.g.lastTs ≤ ts

/-- The per-channel invariants: 10_state.md R47, R49 to R52, and R33 (no noise register on channels 0 to 3). -/
structure Chan.Sound (c : ChanIdx) (x : Chan) : Prop where
  counter_pos : 1 ≤ x.counter
  noise_period : x.noiseFreqCache.ticks = 64 ∨ ∃ k, 1 ≤ k ∧ k ≤ 31 ∧ x.noiseFreqCache.ticks = 128 * k
  noise_count_pos : 1 ≤ x.noiseCount
  lfsr_ne : x.lfsr ≠ 0
  sum : x.sampleAccumulator = waveSum x.waveform
  no_noise : c.val < 4 → x.noiseControl = 0

/-- The possible values of a stored period (10_state.md R48): twice 1 to 4096, for the modulator under LFO times a
rate of 1 to 256. -/
def legalPeriod (c : ChanIdx) (lfo : Bool) (n : Nat) : Prop :=
  ∃ t r, 1 ≤ t ∧ t ≤ 4096 ∧ 1 ≤ r ∧ r ≤ 256 ∧ n = 2 * t * r ∧ (c ≠ 1 ∨ lfo = false → r = 1)

/-- The invariants that hold between operations (10_state.md R47 to R53, with R27, R28 and R33), the canonical form of
the buffers, and no addition outside them. -/
structure Psg.Inv (p : Psg) : Prop where
  sound : ∀ c, (p.chan c).Sound c
  period : ∀ c, legalPeriod c (lfoOn p) (p.chan c).freqCache.ticks
  stamps : ∀ c, (p.chan c).lastTs = p.g.lastTs
  phase : p.g.xfPhase < xfadeSteps
  countdown : p.g.xfCountdown ≤ 255
  left_wf : p.hr.left.wf = true
  right_wf : p.hr.right.wf = true
  no_overrun : p.hrOverrun = false

/-- Every cache holds what its recompute would store now (47_lifecycle_host.md R237). -/
def Psg.cacheFresh (p : Psg) : Prop :=
  ∀ c, (p.chan c).freqCache = freqPeriod p c ∧ (p.chan c).noiseFreqCache = noisePeriod (p.chan c).noiseControl
    ∧ (p.chan c).outputFunction = chanFn p c

/-- The timestamps of a record are those of one instant and not negative (47_lifecycle_host.md R236, U6). -/
def Record.consistent (r : Record) : Prop := 0 ≤ r.lastTs ∧ ∀ c : ChanIdx, r.ch[c].lastTs = r.lastTs

/-- The host's duty for one operation: timestamps in order (45_update_scheduler.md R175), a new base that is not
negative (47_lifecycle_host.md R229), records with consistent timestamps (R236). -/
def dutiful (p : Psg) : Instr → Prop
  | .wSelect _ _ => True
  | .wGbal ts _ => p.inOrder ts
  | .wFreqLo ts _ => p.inOrder ts
  | .wFreqHi ts _ => p.inOrder ts
  | .wCtrl ts _ => p.inOrder ts
  | .wBal ts _ => p.inOrder ts
  | .wWave ts _ => p.inOrder ts
  | .wNoise ts _ => p.inOrder ts
  | .wLfofreq ts _ => p.inOrder ts
  | .wLfoctrl ts _ => p.inOrder ts
  | .wRsvdA ts _ => p.inOrder ts
  | .wRsvdB ts _ => p.inOrder ts
  | .wRsvdC ts _ => p.inOrder ts
  | .wRsvdD ts _ => p.inOrder ts
  | .wRsvdE ts _ => p.inOrder ts
  | .wRsvdF ts _ => p.inOrder ts
  | .upd ts => p.inOrder ts
  | .pwr ts => p.inOrder ts
  | .rts base => 0 ≤ base
  | .getreg _ => True
  | .setreg _ _ => True
  | .peek _ _ => True
  | .poke _ _ _ => True
  | .save => True
  | .load r => Record.consistent r
  | .constructRev0 _ => True
  | .constructRevA _ => True

/-- `q` differs from `p` at most in the record of channel `c` and in the global record. -/
structure onlyChan (c : ChanIdx) (p q : Psg) : Prop where
  rev : q.rev = p.rev
  hr : q.hr = p.hr
  overrun : q.hrOverrun = p.hrOverrun
  others : ∀ d, d ≠ c → q.chan d = p.chan d

/-- `q` differs from `p` at most in the global record. -/
structure onlyGlobal (p q : Psg) : Prop where
  rev : q.rev = p.rev
  hr : q.hr = p.hr
  overrun : q.hrOverrun = p.hrOverrun
  chan : ∀ d, q.chan d = p.chan d

/-- The fields `SetRegister` accepts (30_encoding.md R101, column settable; 47_lifecycle_host.md R231). -/
def settable : FieldId → Bool
  | .chan _ .freq => true
  | .chan _ .ctrl => true
  | .chan _ .balance => true
  | .chan c .nctrl => decide (4 ≤ c.val)
  | .chan _ .windex => true
  | .chan _ .ddalatch => true
  | .chan _ .lfsr => true
  | .glob .select => true
  | .glob .gbal => true
  | .glob .lfofreq => true
  | .glob .lfoctrl => true
  | _ => false

/-- The caches follow the registers, except where 41_frequency_cache.md R124 lets a period go stale: the periods of
channels 0 and 1 while LFO mode is on. -/
def Psg.cachesKept (p : Psg) : Prop :=
  ∀ c, (p.chan c).noiseFreqCache = noisePeriod (p.chan c).noiseControl
    ∧ (p.chan c).outputFunction = chanFn p c
    ∧ (lfoOn p = false ∨ 2 ≤ c.val → (p.chan c).freqCache = freqPeriod p c)

/-- How often a countdown that stands at `k` and is reloaded with `period` expires within `elapsed` ticks
(44_channel_run.md R159, R169). -/
def stepsWithin (k elapsed : Int) (period : Nat) : Nat :=
  if elapsed < k then 0 else ((elapsed - k) / (period : Int)).toNat + 1

/-! ### Running time, as the statements describe it -/

/-- How a run begins: the flush injection, at the old time stamp and with the level on entry, and the new stamp
(44_channel_run.md R154, R155). -/
def runStart (c : ChanIdx) (target : Int) (p : Psg) : Psg :=
  (inject c (p.chan c).lastTs (level p c) p).modChan c (fun x => { x with lastTs := target })

/-- One expiry of the noise counter: the shift register is clocked; under Noise the level with the new bit 0 is
injected at `target + noise_count`; the counter is reloaded (44_channel_run.md R158). -/
def noiseClock (c : ChanIdx) (target : Int) (p : Psg) : Psg :=
  let q := p.modChan c (fun x => { x with lfsr := clockLfsr x.lfsr })
  let q := if (q.chan c).outputFunction = .noise then inject c (target + (q.chan c).noiseCount) (level q c) q else q
  q.modChan c (fun x => { x with noiseCount := x.noiseCount + x.noiseFreqCache.ticks })

/-- What a run does before the stop conditions: its start, then on channels 4 and 5 the elapsed ticks off the noise
counter and one noise clock per expiry (44_channel_run.md R155, R158, R159). -/
def runHead (c : ChanIdx) (target : Int) (p : Psg) : Psg :=
  let elapsed := target - (p.chan c).lastTs
  if 4 ≤ c.val then
    (noiseClock c target)^[stepsWithin (p.chan c).noiseCount elapsed (p.chan c).noiseFreqCache.ticks]
      ((runStart c target p).modChan c (fun x => { x with noiseCount := x.noiseCount - elapsed }))
  else runStart c target p

/-- The part of a waveform step up to its injection: the index moves on by one modulo 32, the latch follows it, and the
level after that is injected at `target + counter` (44_channel_run.md R165). -/
def tickEmit (c : ChanIdx) (target : Int) (p : Psg) : Psg :=
  let q := p.modChan c (fun x =>
    { x with waveformIndex := x.waveformIndex + 1, ddaLatch := waveRead x (x.waveformIndex + 1).toNat })
  inject c (target + (q.chan c).counter) (level q c) q

/-- One waveform step outside live modulation: the counter is reloaded with the period (44_channel_run.md R165,
R167). -/
def plainTick (c : ChanIdx) (target : Int) (p : Psg) : Psg :=
  (tickEmit c target p).modChan c (fun x => { x with counter := x.counter + x.freqCache.ticks })

/-- One step of the carrier under live modulation: after the injection the modulator is run to the same sub-timestamp,
the carrier's period and output function are recomputed, and the counter is reloaded with the period, but with no less
than the cutoff (44_channel_run.md R166; the cutoff 10 is the default of log 11). -/
def carrierTick (target : Int) (p : Psg) : Psg :=
  (recalcOfn 0 (recalcFreq 0 (runChannel 1 (target + (p.chan 0).counter) false (tickEmit 0 target p)))).modChan 0
    (fun x => { x with counter := x.counter + (max 10 x.freqCache.ticks : Nat) })

/-- All six channels run to `target`, in ascending order (45_update_scheduler.md R179). -/
def runAll (target : Int) (live : Bool) (p : Psg) : Psg :=
  runChannel 5 target live (runChannel 4 target live (runChannel 3 target live
    (runChannel 2 target live (runChannel 1 target live (runChannel 0 target live p)))))

/-- `lfo_live`: LFO mode on, channel 1 enabled, not halted (45_update_scheduler.md R177). -/
def modulationLive (p : Psg) : Bool :=
  modeField p.g.lfoControl != 0 && (p.chan 1).control.getLsbD 7 && !p.g.lfoControl.getLsbD 7

/-- One chunk of `k` ticks: all channels to its end, the crossfade countdown less `k`, a crossfade step where that is 0,
and the global time stamp (45_update_scheduler.md R179 to R181). -/
def chunkOf (live : Bool) (k : Nat) (p : Psg) : Psg :=
  let q := runAll (p.g.lastTs + k) live p
  let q := if q.g.xfCountdown = 0 then q
    else
      let r := q.modGlobal (fun g => { g with xfCountdown := g.xfCountdown - k })
      if r.g.xfCountdown = 0 then xfadeStep r else r
  q.modGlobal (fun g => { g with lastTs := p.g.lastTs + k })

/-! ### Sums and comparisons -/

/-- The signal of a side that the injector still owes an account of: the sum of all cells of a buffer
(43_injector.md R148). -/
def hrTotal (p : Psg) (b : Side) : Int := ((p.hr.get b).cells.map Prod.snd).sum

/-- The sum over the channels of the level last injected on a side (43_injector.md R148). -/
def prevTotal (p : Psg) (b : Side) : Int :=
  (p.chan 0).prev.get b + (p.chan 1).prev.get b + (p.chan 2).prev.get b + (p.chan 3).prev.get b
    + (p.chan 4).prev.get b + (p.chan 5).prev.get b

/-- The two machines differ at most in what the buffers' cells hold: same revision, global record, channels, buffer
lengths and overrun (20_memory.md R66). -/
structure sameButCells (p q : Psg) : Prop where
  rev : q.rev = p.rev
  g : q.g = p.g
  chan : ∀ c, q.chan c = p.chan c
  left_len : q.hr.left.len = p.hr.left.len
  right_len : q.hr.right.len = p.hr.right.len
  overrun : q.hrOverrun = p.hrOverrun

/-- The machines `p` and `q` have the same programmable registers, waveforms, accumulators, noise periods, revision
and buffer lengths: what advancing time never changes (44_channel_run.md R151). -/
structure sameRegisters (p q : Psg) : Prop where
  rev : q.rev = p.rev
  select : q.g.select = p.g.select
  globalBalance : q.g.globalBalance = p.g.globalBalance
  lfoFrequency : q.g.lfoFrequency = p.g.lfoFrequency
  lfoControl : q.g.lfoControl = p.g.lfoControl
  left_len : q.hr.left.len = p.hr.left.len
  right_len : q.hr.right.len = p.hr.right.len
  frequency : ∀ c, (q.chan c).frequency = (p.chan c).frequency
  control : ∀ c, (q.chan c).control = (p.chan c).control
  balance : ∀ c, (q.chan c).balance = (p.chan c).balance
  noiseControl : ∀ c, (q.chan c).noiseControl = (p.chan c).noiseControl
  waveform : ∀ c, (q.chan c).waveform = (p.chan c).waveform
  accumulator : ∀ c, (q.chan c).sampleAccumulator = (p.chan c).sampleAccumulator
  noiseFreqCache : ∀ c, (q.chan c).noiseFreqCache = (p.chan c).noiseFreqCache

end Sys2Proof.Machine
end

