-- ==== Sys2Proof/Certificates/Slice0/Obligations.lean ====
section
/-! DEFINITION. The statements for the provers. Each formalises rules of spec/, or, where its docstring says so, a choice
of this model named in the assumption log. Where a rule named below carries one of the spec's own marks (decision,
derived, general knowledge), the statement says what the model chose to take from that rule (log 7), and its basis in
OBLIGATIONS.json is 'derived'. `update ts s.psg` is the machine at the write's own time, after the flush of
46_register_writes.md R196; what `update` itself does is stated in the section on time. -/

open Sys2Proof Sys2Proof.Machine

/-! ### The encoding -/

/-- Decoding the encoding of a well-formed instruction gives it back, for every instruction and every operand
(30_encoding.md R86, R87, R101). -/
def Obligations.DecodeEncodeAgree : Prop := ∀ i : Instr, Laws.RoundTrip.Statement i

/-- A decoded instruction is well formed, and encoding it writes back every field its format does not ignore: `kind`
always, `a` where the format has a channel, an offset or a revision, `d` and `T` where it has them (30_encoding.md R86,
R87). -/
def Obligations.EncodeDecodedKeepsFields : Prop :=
  ∀ (k : Command) (i : Instr), decode k = .ok i →
    i.wf = true ∧ cwKind (encode i).cw = cwKind k.cw
    ∧ ((cwKind k.cw).toNat ∈ [0x0, 0x4, 0x5, 0x6, 0x7, 0xF] → cwA (encode i).cw = cwA k.cw)
    ∧ ((cwKind k.cw).toNat ∈ [0x0, 0x4, 0x5, 0x6, 0x7] → cwD (encode i).cw = cwD k.cw)
    ∧ ((cwKind k.cw).toNat ∈ [0x0, 0x1, 0x2, 0x3, 0x5, 0x7] → (encode i).t = k.t)

/-- Command words written out from 30_encoding.md R86 to R88, R100 and R101 decode to their operations. -/
def Obligations.WordsDecode : Prop :=
  decode (.plain 0x049F 100) = .ok (.wCtrl 100 0x9F)
  ∧ decode (.plain 0x000D 7) = .ok (.wSelect 7 0x0D)
  ∧ decode (.plain 0x0F00 3) = .ok (.wRsvdF 3 0x00)
  ∧ decode (.plain 0x1000 5000) = .ok (.upd 5000)
  ∧ decode (.plain 0x2000 6000) = .ok (.pwr 6000)
  ∧ decode (.plain 0x3000 0) = .ok (.rts 0)
  ∧ decode (.plain 0x4508 0) = .ok (.getreg (.chan 5 .freqcache))
  ∧ decode (.plain 0x5F03 0x81) = .ok (.setreg (.glob .lfoctrl) 0x81)
  ∧ decode (.plain 0x6221 0) = .ok (.peek 2 33)
  ∧ decode (.plain 0x7023 0xFF) = .ok (.poke 0 35 0xFF)
  ∧ decode (.plain 0x8000 0) = .ok .save
  ∧ decode (.plain 0x9000 0) = .ok (.load Record.zero)
  ∧ decode (.plain 0xF000 0) = .ok (.constructRev0 blankHr)
  ∧ decode (.plain 0xF100 0) = .ok (.constructRevA blankHr)

/-- Exactly the reserved kinds, the bad revision codes, the bad channels and the unlisted field ids are refused
(30_encoding.md R96, R101; 47_lifecycle_host.md R232 for the channel of PEEK). The names of the refusals, `badChannel`
before `badField` where both are bad, and PEEK and POKE with `a = 0xF` as `badChannel`, are the model's choices (log
10). -/
def Obligations.ReservedEncodingsRefused : Prop :=
  ∀ k : Command,
    (decode k = .error .reservedKind ↔ 0xA ≤ (cwKind k.cw).toNat ∧ (cwKind k.cw).toNat ≤ 0xE)
    ∧ (decode k = .error .badRevision ↔ (cwKind k.cw).toNat = 0xF ∧ 2 ≤ (cwA k.cw).toNat)
    ∧ (decode k = .error .badChannel ↔
        ((cwKind k.cw).toNat ∈ [0x4, 0x5] ∧ 6 ≤ (cwA k.cw).toNat ∧ (cwA k.cw).toNat ≠ 0xF)
        ∨ ((cwKind k.cw).toNat ∈ [0x6, 0x7] ∧ 6 ≤ (cwA k.cw).toNat))
    ∧ (decode k = .error .badField ↔
        (cwKind k.cw).toNat ∈ [0x4, 0x5] ∧
          (((cwA k.cw).toNat < 6 ∧ 0x12 ≤ (cwD k.cw).toNat) ∨ ((cwA k.cw).toNat = 0xF ∧ 9 ≤ (cwD k.cw).toNat)))

/-- A step performs the oldest pending operation: when its command decodes to `i`, and in particular when it is the
encoding of a well-formed `i`, the step is `exec i` with that command gone from the queue (00_scope.md R5, 30_encoding.md
R90; that pending operations stand in a queue is the model's choice, log 1). -/
def Obligations.StepRunsOldestOperation : Prop :=
  ∀ (s : State) (k : Command) (rest : List Command) (i : Instr), s.queue = k :: rest →
    (decode k = .ok i → step s = exec i { s with queue := rest })
    ∧ (i.wf = true → k = encode i → step s = exec i { s with queue := rest })

/-- With no operation pending a step changes nothing (the model's choice, log 1: the engine acts only when the host
calls it, 00_scope.md R5), and a command the decoder refuses stops the step under its name (30_encoding.md R96; the
names are the model's, log 10). -/
def Obligations.StepWithoutOperation : Prop :=
  (∀ s : State, s.queue = [] → step s = .next s)
  ∧ ∀ (s : State) (k : Command) (rest : List Command), s.queue = k :: rest →
    (decode k = .error .reservedKind → step s = .refused .reservedKind)
    ∧ (decode k = .error .badChannel → step s = .refused .badChannel)
    ∧ (decode k = .error .badField → step s = .refused .badField)

/-- A CONSTRUCT with a revision code other than 0 and 1 ends in the fault FatalConfig (60_exceptions.md R255). -/
def Obligations.BadRevisionIsFatal : Prop :=
  ∀ (s : State) (k : Command) (rest : List Command), s.queue = k :: rest → (cwKind k.cw).toNat = 0xF →
    2 ≤ (cwA k.cw).toNat → step s = .fault .fatalConfig

/-! ### The tables -/

/-- Attenuation 31 is silence in both tables, so a channel with both attenuations at 31 has level (0, 0) under every
output function; so for every gain (40_envelope_table.md R107). -/
def Obligations.AttenuationThirtyOneIsSilent : Prop :=
  (∀ (rev : Rev) (x : Sample), env rev 31 x = 0) ∧ envVol 31 = 0
  ∧ (∀ (g : Gain) (rev : Rev) (x : Sample), envFor g rev 31 x = 0 ∧ envVolFor g 31 = 0)
  ∧ ∀ (p : Psg) (c : ChanIdx), (p.chan c).attenuation = ⟨31, 31⟩ → level p c = ⟨0, 0⟩

/-- The envelope tables shrink with the attenuation, and map samples as each revision does: from 0 up and not negative
for REV_0, antisymmetric about the middle for REV_A; so for every gain (40_envelope_table.md R108, R109). -/
def Obligations.EnvelopeShape : Prop :=
  (∀ (rev : Rev) (a x : Sample), a ≠ 31 → (env rev (a + 1) x).natAbs ≤ (env rev a x).natAbs)
  ∧ (∀ a : Sample, a ≠ 31 → envVol (a + 1) ≤ envVol a)
  ∧ (∀ a x : Sample, env .rev0 a 0 = 0 ∧ 0 ≤ env .rev0 a x)
  ∧ (∀ a x : Sample, env .revA a x = -env .revA a (31 - x))
  ∧ ∀ (g : Gain) (a x : Sample),
    (a ≠ 31 → (∀ rev, (envFor g rev (a + 1) x).natAbs ≤ (envFor g rev a x).natAbs) ∧ envVolFor g (a + 1) ≤ envVolFor g a)
    ∧ envFor g .rev0 a 0 = 0 ∧ 0 ≤ envFor g .rev0 a x ∧ envFor g .revA a x = -envFor g .revA a (31 - x)

/-- Every entry of the default tables is the one the exact integer form gives: up to its sign the greatest `m` with
`(3 m)^4 2^a <= N^4` (40_envelope_table.md R113), and is the number that 48_envelope_default_tables.md prints (R250 to
R252). A gain `num/den` other than 1 scales the amplitude before the rounding: the greatest `m` with
`(3 den m)^4 2^a <= (num N)^4` (00_scope.md R9, 40_envelope_table.md R110 to R112). That the default gain is taken is the
model's choice, log 11. -/
def Obligations.EnvelopeExactForm : Prop :=
  (∀ a x : Sample, a ≠ 31 →
    (let m := env .rev0 a x
     let n : Int := 512 * (2 * x.toNat)
     0 ≤ m ∧ (3 * m) ^ 4 * 2 ^ a.toNat ≤ n ^ 4 ∧ n ^ 4 < (3 * (m + 1)) ^ 4 * 2 ^ a.toNat)
    ∧ (let m := env .revA a x
       let n : Int := 512 * (2 * x.toNat - 31)
       0 ≤ m * n ∧ (3 * m) ^ 4 * 2 ^ a.toNat ≤ n ^ 4 ∧ n ^ 4 < (3 * (m.natAbs + 1)) ^ 4 * 2 ^ a.toNat)
    ∧ (let m := envVol a
       0 ≤ m ∧ (3 * m) ^ 4 * 2 ^ a.toNat ≤ 262144 ^ 4 ∧ 262144 ^ 4 < (3 * (m + 1)) ^ 4 * 2 ^ a.toNat))
  ∧ (∀ a x : Sample, (∀ rev, env rev a x = envTable rev a x) ∧ envVol a = envVolTable.getD a.toNat 0)
  ∧ ∀ (g : Gain) (a x : Sample), a ≠ 31 →
    (let m := envFor g .rev0 a x
     let n : Int := g.num * (512 * (2 * x.toNat))
     0 ≤ m ∧ (3 * g.den * m) ^ 4 * 2 ^ a.toNat ≤ n ^ 4 ∧ n ^ 4 < (3 * g.den * (m + 1)) ^ 4 * 2 ^ a.toNat)
    ∧ (let m := envFor g .revA a x
       let n : Int := g.num * (512 * (2 * x.toNat - 31))
       0 ≤ m * n ∧ (3 * g.den * m) ^ 4 * 2 ^ a.toNat ≤ n ^ 4 ∧ n ^ 4 < (3 * g.den * (m.natAbs + 1)) ^ 4 * 2 ^ a.toNat)
    ∧ (let m := envVolFor g a
       let n : Int := g.num * 262144
       0 ≤ m ∧ (3 * g.den * m) ^ 4 * 2 ^ a.toNat ≤ n ^ 4 ∧ n ^ 4 < (3 * g.den * (m + 1)) ^ 4 * 2 ^ a.toNat)

/-! ### The caches and the level -/

/-- The period of a channel that is not under LFO is twice its frequency, 0 standing for 4096; so frequency 0 gives
8192, frequency 1 gives 2 and frequency 100 gives 200 (41_frequency_cache.md R118). -/
def Obligations.PlainPeriod : Prop :=
  ∀ (p : Psg) (c : ChanIdx), lfoOn p = false ∨ (c ≠ 0 ∧ c ≠ 1) →
    ((recalcFreq c p).chan c).freqCache.ticks
      = (if (p.chan c).frequency ≠ 0 then (p.chan c).frequency.toNat else 4096) * 2
    ∧ ((p.chan c).frequency = 0 → ((recalcFreq c p).chan c).freqCache.ticks = 8192)
    ∧ ((p.chan c).frequency = 1 → ((recalcFreq c p).chan c).freqCache.ticks = 2)
    ∧ ((p.chan c).frequency = 100 → ((recalcFreq c p).chan c).freqCache.ticks = 200)

/-- Under LFO the carrier's frequency is biased by the modulator's latch, reduced modulo 4096 with 0 folded to 4096, and
doubled (41_frequency_cache.md R119); the modulator's period is multiplied by the LFO rate, 0 standing for 256
(R120). -/
def Obligations.LfoPeriods : Prop :=
  ∀ p : Psg, modeField p.g.lfoControl ≠ 0 →
    (let shift := ((modeField p.g.lfoControl).toNat - 1) * 2
     let off : Int := (((p.chan 1).ddaLatch.toNat : Int) - 16) * 2 ^ shift
     let t : Int := (((p.chan 0).frequency.toNat : Int) + off) % 4096
     (((recalcFreq 0 p).chan 0).freqCache.ticks : Int) = (if t ≠ 0 then t else 4096) * 2)
    ∧ ((recalcFreq 1 p).chan 1).freqCache.ticks
        = (if (p.chan 1).frequency ≠ 0 then (p.chan 1).frequency.toNat else 4096) * 2
          * (if p.g.lfoFrequency ≠ 0 then p.g.lfoFrequency.toNat else 256)

/-- The noise period is 128 times the complement of `NF`, and 64 where that is 0 (so `NF = 30` gives 128, `NF = 0`
gives 3968 and `NF = 31` gives 64); nothing else changes (41_frequency_cache.md R123). -/
def Obligations.NoisePeriod : Prop :=
  ∀ (p : Psg) (c : ChanIdx),
    (let nf := (p.chan c).noiseControl.toNat % 32
     ((recalcNoise c p).chan c).noiseFreqCache.ticks = if nf ≠ 31 then (31 - nf) * 128 else 64)
    ∧ onlyChan c p (recalcNoise c p) ∧ (recalcNoise c p).g = p.g
    ∧ (recalcNoise c p).chan c
        = { p.chan c with noiseFreqCache := ((recalcNoise c p).chan c).noiseFreqCache }

/-- The output function for every combination of `EN`, `DDA`, `NE` and of a low period outside LFO mode, for both
revisions; nothing else changes (42_output_function.md R129, R139; that a low period is one of at most 10 ticks is the
default of 00_scope.md R11, log 11). -/
def Obligations.OutputFunctionTable : Prop :=
  ∀ (p : Psg) (c : ChanIdx),
    (let en := (p.chan c).control.getLsbD 7
     let dda := (p.chan c).control.getLsbD 6
     let ne := (p.chan c).noiseControl.getLsbD 7
     let low := (p.chan c).freqCache.ticks ≤ 10 ∧ ¬ (c = 0 ∧ modeField p.g.lfoControl ≠ 0)
     let f := ((recalcOfn c p).chan c).outputFunction
     (en = false → dda = false → f = .off)
     ∧ (en = false → dda = true → p.rev = .rev0 → f = .off)
     ∧ (en = false → dda = true → p.rev = .revA → f = .normal)
     ∧ (en = true → ne = true → f = .noise)
     ∧ (en = true → ne = false → dda = false → low → f = .accumulate)
     ∧ (en = true → ne = false → dda = false → ¬ low → f = .normal)
     ∧ (en = true → ne = false → dda = true → f = .normal))
    ∧ onlyChan c p (recalcOfn c p) ∧ (recalcOfn c p).g = p.g
    ∧ (recalcOfn c p).chan c = { p.chan c with outputFunction := ((recalcOfn c p).chan c).outputFunction }

/-- The level of each output function on each side (42_output_function.md R131 to R135): the Accumulate level is a floor
division by 8192. -/
def Obligations.LevelOfFunction : Prop :=
  ∀ (p : Psg) (c : ChanIdx) (b : Side),
    let x := p.chan c
    let a := x.attenuation.get b
    (x.outputFunction = .off → (level p c).get b = 0)
    ∧ (x.outputFunction = .normal → (level p c).get b = env p.rev a x.ddaLatch)
    ∧ (x.outputFunction = .noise → (level p c).get b = env p.rev a (if x.lfsr.getLsbD 0 then 31 else 0))
    ∧ (x.outputFunction = .accumulate →
        8192 * (level p c).get b ≤ envVol a * (x.sampleAccumulator - (if p.rev = .revA then 496 else 0))
        ∧ envVol a * (x.sampleAccumulator - (if p.rev = .revA then 496 else 0)) < 8192 * ((level p c).get b + 1))

/-! ### The waveform RAM and the injector -/

/-- Reading index `j` gives cell `j` modulo 32 and changes nothing; a waveform write stores one cell, the accumulator
follows exactly, and the index, the latch and everything else of the channel stay (20_memory.md R64, R65). -/
def Obligations.WaveformWriteRead : Prop :=
  ∀ (x : Chan) (i j : Nat) (w : Sample),
    waveRead x j = x.waveform[j % 32]'(Nat.mod_lt _ (by decide))
    ∧ waveRead (waveWrite x i w) j = (if j % 32 = i % 32 then w else waveRead x j)
    ∧ waveRead x (j + 32) = waveRead x j
    ∧ (waveWrite x i w).sampleAccumulator = x.sampleAccumulator - (waveRead x i).toNat + w.toNat
    ∧ waveWrite x i w
        = { x with waveform := (waveWrite x i w).waveform, sampleAccumulator := (waveWrite x i w).sampleAccumulator }

/-- `Inject` adds, on each side, the change of level times tap `j` of the row `(ts >> 1) & 1` into cell
`((ts >> 2) & HR_MASK) + j`, for the seven taps, and into no other cell; `prev` of the channel becomes the level; nothing
else changes, and a level that has not changed changes nothing at all (43_injector.md R142; the tap values are the
default of R143, log 11). -/
def Obligations.InjectAddsTaps : Prop :=
  ∀ (p : Psg) (c : ChanIdx) (ts : Int) (lv : Stereo Int), 0 ≤ ts → p.ready →
    p.hr.left.wf = true → p.hr.right.wf = true →
    (∀ (b : Side) (k : Nat),
      ((inject c ts lv p).hr.get b).read k = (p.hr.get b).read k
        + (let base := (ts / 4 % 65536).toNat
           let row := if ts / 2 % 2 = 0 then [35, 250, 579, 641, 425, 112, 6] else [6, 112, 425, 641, 579, 250, 35]
           if base ≤ k ∧ k ≤ base + 6 then (lv.get b - (p.chan c).prev.get b) * row.getD (k - base) 0 else 0))
    ∧ (inject c ts lv p).chan c = { p.chan c with prev := lv }
    ∧ (∀ d, d ≠ c → (inject c ts lv p).chan d = p.chan d)
    ∧ (inject c ts lv p).g = p.g ∧ (inject c ts lv p).rev = p.rev
    ∧ (∀ b, ((inject c ts lv p).hr.get b).len = (p.hr.get b).len) ∧ (inject c ts lv p).hrOverrun = false
    ∧ inject c ts (p.chan c).prev p = p

/-- Two injections of one channel in the same two-tick slot are one injection of the final level (43_injector.md R148,
70_reset_and_hazards.md R293). -/
def Obligations.InjectSameSlotMerges : Prop :=
  ∀ (p : Psg) (c : ChanIdx) (ts ts' : Int) (lv lv' : Stereo Int), 0 ≤ ts → ts / 2 = ts' / 2 → p.ready →
    p.hr.left.wf = true → p.hr.right.wf = true →
    inject c ts' lv' (inject c ts lv p) = inject c ts' lv' p

/-- An addition into a buffer too short for the seven taps is an overrun; an overrun stays through injections, runs and
updates; and every operation that advances time with an overrun, at any offset from 1 to 15, UPD or PWR, ends in a fault.
So a channel that owes an injection at the time already reached makes the next UPD fault, if the buffer is too short there
(20_memory.md R78, 93_implementation_defined.md U3; the latch and the fault at the end of the operation are the model's
choice, log 4; timestamps are in order and not negative, log 5). -/
def Obligations.ShortBufferFaults : Prop :=
  (∀ (p : Psg) (c : ChanIdx) (ts : Int) (lv : Stereo Int) (b : Side), 0 ≤ ts →
    (lv.get b ≠ (p.chan c).prev.get b) →
    ((p.hr.get b).len : Int) ≤ ts / 4 % 65536 + 6 → (inject c ts lv p).hrOverrun = true)
  ∧ (∀ (p : Psg) (ts : Int), p.hrOverrun = true → p.inOrder ts →
    (∀ c lv, (inject c ts lv p).hrOverrun = true)
    ∧ (∀ c live, (p.chan c).lastTs ≤ ts → (runChannel c ts live p).hrOverrun = true)
    ∧ (update ts p).hrOverrun = true)
  ∧ (∀ (s : State) (ts : Int) (v : Byte), s.psg.inOrder ts → (update ts s.psg).hrOverrun = true →
    (∀ i ∈ [Instr.upd ts, .wGbal ts v, .wFreqLo ts v, .wFreqHi ts v, .wCtrl ts v, .wBal ts v, .wWave ts v,
        .wNoise ts v, .wLfofreq ts v, .wLfoctrl ts v, .wRsvdA ts v, .wRsvdB ts v, .wRsvdC ts v, .wRsvdD ts v,
        .wRsvdE ts v, .wRsvdF ts v],
      exec i s = .fault .hrOutOfRange)
    ∧ (ts ≠ s.psg.g.lastTs → exec (.pwr ts) s = .fault .hrOutOfRange))
  ∧ ∀ (s : State) (ts : Int) (c : ChanIdx) (b : Side), 0 ≤ s.psg.g.lastTs → s.psg.g.lastTs < ts →
    (s.psg.chan c).lastTs = s.psg.g.lastTs → ¬ (c = 1 ∧ modulationLive s.psg = true) →
    (let u := update s.psg.g.lastTs s.psg
     (level u c).get b ≠ (u.chan c).prev.get b) →
    ((s.psg.hr.get b).len : Int) ≤ s.psg.g.lastTs / 4 % 65536 + 6 → exec (.upd ts) s = .fault .hrOutOfRange

/-! ### Running one channel -/

/-- A clock of the shift register moves it one bit down, with the exclusive or of bits 0, 1, 11, 12 and 17 entering at
bit 17, and never gives 0 (44_channel_run.md R156, 10_state.md R51). -/
def Obligations.LfsrClock : Prop :=
  ∀ l : BitVec 18,
    clockLfsr l ≠ 0
    ∧ (l ≠ 0 →
        (clockLfsr l).toNat
          = l.toNat / 2
            + (if l.getLsbD 0 ^^ l.getLsbD 1 ^^ l.getLsbD 11 ^^ l.getLsbD 12 ^^ l.getLsbD 17 then 2 ^ 17 else 0))

/-- A running channel that is not a carrier under live modulation makes one waveform step per expiry of its counter, on
the fast path and on the per-step loop alike: the index advances by the number of steps, the latch follows it, the
counter stands between 1 and the period (44_channel_run.md R163 to R165, R167, R169). The whole run: it begins with the
flush injection (`runStart`, R155) and, on channels 4 and 5, the noise clocks (`runHead`); on the fast path (no live
modulation and a period of at most the cutoff, R162) nothing more is injected and only index, latch and counter change
(R163); on the loop each step injects, at `target + counter`, the level after the latch refresh (`plainTick`, R165). The
cutoff 10 is the default of log 11. -/
def Obligations.WaveformStepsPerPeriod : Prop :=
  ∀ (p : Psg) (c : ChanIdx) (target : Int) (live : Bool), ¬ (c = 0 ∧ live = true) → (p.chan c).lastTs < target →
    (p.chan c).control.getLsbD 7 = true → (p.chan c).control.getLsbD 6 = false →
    ¬ (c = 0 ∧ p.g.lfoControl.getLsbD 7 = true) →
    let x := p.chan c
    let y := (runChannel c target live p).chan c
    let n := stepsWithin x.counter (target - x.lastTs) x.freqCache.ticks
    y.waveformIndex = x.waveformIndex + BitVec.ofNat 5 n
    ∧ y.counter = x.counter - (target - x.lastTs) + (n : Int) * x.freqCache.ticks
    ∧ 1 ≤ y.counter
    ∧ (n = 0 → y.ddaLatch = x.ddaLatch)
    ∧ (n ≠ 0 → y.ddaLatch = waveRead y y.waveformIndex.toNat ∧ y.counter ≤ x.freqCache.ticks)
    ∧ y.freqCache = x.freqCache ∧ y.lastTs = target
    ∧ (live = false → x.freqCache.ticks ≤ 10 →
      runChannel c target live p = (runHead c target p).modChan c (fun z =>
        { z with waveformIndex := y.waveformIndex, ddaLatch := y.ddaLatch, counter := y.counter }))
    ∧ (live = true ∨ 10 < x.freqCache.ticks →
      runChannel c target live p
        = (plainTick c target)^[n]
            ((runHead c target p).modChan c (fun z => { z with counter := z.counter - (target - x.lastTs) })))

/-- On channels 4 and 5 the shift register is clocked once per expiry of the noise counter, whatever the control bits
and the output function; on channels 0 to 3 neither changes (44_channel_run.md R158, R159). The whole run of a stopped
channel is its flush injection and these clocks (`runHead`), each of which injects under the function Noise, at
`target + noise_count`, the level with the new bit 0 (`noiseClock`, R155, R158). -/
def Obligations.NoiseClocksPerPeriod : Prop :=
  ∀ (p : Psg) (c : ChanIdx) (target : Int) (live : Bool), (p.chan c).lastTs < target →
    let x := p.chan c
    let y := (runChannel c target live p).chan c
    let n := stepsWithin x.noiseCount (target - x.lastTs) x.noiseFreqCache.ticks
    (4 ≤ c.val →
      y.lfsr = clockLfsr^[n] x.lfsr
      ∧ y.noiseCount = x.noiseCount - (target - x.lastTs) + (n : Int) * x.noiseFreqCache.ticks ∧ 1 ≤ y.noiseCount)
    ∧ (c.val < 4 → y.lfsr = x.lfsr ∧ y.noiseCount = x.noiseCount)
    ∧ (x.control.getLsbD 7 = false ∨ x.control.getLsbD 6 = true ∨ (c = 0 ∧ p.g.lfoControl.getLsbD 7 = true) →
      runChannel c target live p = runHead c target p)

/-- A stopped channel (`EN` clear, or `DDA` set, or the carrier under halt) keeps its counter, index and latch; without
a noise section its run is the flush injection at the old time stamp and the new stamp, nothing else (44_channel_run.md
R155, R160). -/
def Obligations.StoppedChannelHolds : Prop :=
  ∀ (p : Psg) (c : ChanIdx) (target : Int) (live : Bool), (p.chan c).lastTs < target →
    ((p.chan c).control.getLsbD 7 = false ∨ (p.chan c).control.getLsbD 6 = true
      ∨ (c = 0 ∧ p.g.lfoControl.getLsbD 7 = true)) →
    ((runChannel c target live p).chan c).counter = (p.chan c).counter
    ∧ ((runChannel c target live p).chan c).waveformIndex = (p.chan c).waveformIndex
    ∧ ((runChannel c target live p).chan c).ddaLatch = (p.chan c).ddaLatch
    ∧ (c.val < 4 →
        runChannel c target live p
          = (emit c (p.chan c).lastTs p).modChan c (fun x => { x with lastTs := target }))

/-- A run over no time changes nothing (44_channel_run.md R154). A run never changes the global record, a programmable
register, an attenuation, a waveform cell, an accumulator or a noise period, nor any other channel but the modulator of
a carrier under live modulation; the period and the output function it changes on that carrier only (R151). -/
def Obligations.RunChangesOnlyItsChannel : Prop :=
  ∀ (p : Psg) (c : ChanIdx) (target : Int) (live : Bool),
    runChannel c (p.chan c).lastTs live p = p
    ∧ sameRegisters p (runChannel c target live p)
    ∧ (runChannel c target live p).g = p.g
    ∧ (∀ d, ((runChannel c target live p).chan d).attenuation = (p.chan d).attenuation)
    ∧ (∀ d, ¬ (d = 0 ∧ c = 0 ∧ live = true) →
      ((runChannel c target live p).chan d).freqCache = (p.chan d).freqCache
      ∧ ((runChannel c target live p).chan d).outputFunction = (p.chan d).outputFunction)
    ∧ ∀ d, d ≠ c → ¬ (c = 0 ∧ live = true ∧ d = 1) → (runChannel c target live p).chan d = p.chan d

/-- The carrier under live modulation: while its counter does not expire it counts down and the modulator is not
touched; at the tick where it expires it steps once, the modulator has been run to that same tick, and the carrier's
period, function and reload follow the modulator's new latch, the reload being at least the cutoff (44_channel_run.md
R164 to R166). A run over any interval is the flush injection, the elapsed ticks off the counter, and one `carrierTick`
after another for as long as the counter is not positive: each injects the level after the latch refresh at the
sub-timestamp, runs channel 1 to it as `RunChannel(1, sub, false)` does, recomputes and reloads. The cutoff 10 is the
default of 00_scope.md R11 (log 11). -/
def Obligations.CarrierStepsWithModulator : Prop :=
  ∀ (p : Psg) (target : Int), (p.chan 0).lastTs < target →
    (p.chan 0).control.getLsbD 7 = true → (p.chan 0).control.getLsbD 6 = false → p.g.lfoControl.getLsbD 7 = false →
    let x := p.chan 0
    let q := runChannel 0 target true p
    let start := (runStart 0 target p).modChan 0 (fun z => { z with counter := z.counter - (target - x.lastTs) })
    (∃ k : Nat, q = (carrierTick target)^[k] start ∧ 1 ≤ (q.chan 0).counter
      ∧ ∀ j, j < k → (((carrierTick target)^[j] start).chan 0).counter ≤ 0)
    ∧ (target - x.lastTs < x.counter → q = start) ∧ (target - x.lastTs = x.counter → q = carrierTick target start)
    ∧ (target - x.lastTs < x.counter →
      (q.chan 0).counter = x.counter - (target - x.lastTs) ∧ (q.chan 0).waveformIndex = x.waveformIndex
      ∧ (q.chan 0).ddaLatch = x.ddaLatch ∧ (q.chan 0).freqCache = x.freqCache ∧ q.chan 1 = p.chan 1)
    ∧ (target - x.lastTs = x.counter →
      (q.chan 0).waveformIndex = x.waveformIndex + 1
      ∧ (q.chan 0).ddaLatch = waveRead x (x.waveformIndex + 1).toNat
      ∧ (q.chan 1).lastTs = target ∧ q.chan 1 = (runChannel 1 target false p).chan 1
      ∧ (q.chan 0).freqCache = freqPeriod q 0 ∧ (q.chan 0).outputFunction = chanFn q 0
      ∧ (q.chan 0).counter = (max 10 (q.chan 0).freqCache.ticks : Nat)
      ∧ (q.chan 0).lastTs = target)

/-! ### Time -/

/-- After `Update` the global time stamp and every channel's are the requested one, and each chunk moves the global
stamp by its length (45_update_scheduler.md R181, 10_state.md R53). What runs in between: after the start test and the
gating recompute (what `Update` does at the time already reached), with the crossfade idle one chunk, in which channels 0
to 5 run in ascending order to the requested time with `lfo_live`; in general one chunk after another, each as long as the
crossfade phase or the rest of the interval, whichever is shorter (R177 to R180). -/
def Obligations.UpdateReachesItsTime : Prop :=
  (∀ (live : Bool) (k : Nat) (p : Psg), (runChunk live k p).g.lastTs = p.g.lastTs + k)
  ∧ (∀ (p : Psg) (ts : Int), p.Inv → p.inOrder ts →
    (update ts p).g.lastTs = ts ∧ ∀ c, ((update ts p).chan c).lastTs = ts)
  ∧ (∀ (p : Psg) (ts : Int), 0 ≤ p.g.lastTs → p.g.lastTs < ts →
    let u := update p.g.lastTs p
    let live := modulationLive p
    update ts p = chunkLoop live (ts - p.g.lastTs).toNat u
    ∧ (u.g.xfCountdown = 0 → update ts p = (runAll ts live u).modGlobal (fun g => { g with lastTs := ts })))
  ∧ ∀ (live : Bool) (n : Nat) (q : Psg),
    chunkLoop live 0 q = q
    ∧ (0 < n →
      let k := if 0 < q.g.xfCountdown ∧ q.g.xfCountdown < n then q.g.xfCountdown else n
      chunkLoop live n q = chunkLoop live (n - k) (chunkOf live k q))

/-- `Update` at the time that is already reached: the start test of the crossfade and the gating recompute of the carrier
run, nothing else happens, and a second one changes nothing (45_update_scheduler.md R176, R177, R182). -/
def Obligations.UpdateAtSameTime : Prop :=
  ∀ p : Psg, 0 ≤ p.g.lastTs →
    let u := update p.g.lastTs p
    u.g = (if p.g.xfPending = true ∧ p.g.xfCountdown = 0 ∧ p.g.xfPhase = 0 then
        { p.g with xfCountdown := 1, xfPending := false } else p.g)
    ∧ u.chan 0 = (if modeField p.g.lfoControl ≠ 0
          ∧ ((p.chan 1).control.getLsbD 7 = false ∨ p.g.lfoControl.getLsbD 7 = true) then
        { p.chan 0 with freqCache := freqPeriod p 0, outputFunction := chanFn u 0 } else p.chan 0)
    ∧ onlyChan 0 p u
    ∧ update p.g.lastTs u = u

/-- Advancing time changes no programmable register, no waveform, no accumulator, no noise period, not the revision and
no buffer length (44_channel_run.md R151, 45_update_scheduler.md R177). -/
def Obligations.UpdateKeepsRegisters : Prop := ∀ (p : Psg) (ts : Int), p.inOrder ts → sameRegisters p (update ts p)

/-- Advancing time adds only into the seven cells from the base cell of some time between the old and the new time
stamp: every other cell of both buffers reads as before (43_injector.md R145, R146, R149; 44_channel_run.md R157). -/
def Obligations.UpdateAddsOnlyInItsInterval : Prop :=
  ∀ (p : Psg) (ts : Int) (b : Side) (k : Nat), p.Inv → p.inOrder ts →
    (∀ at_ : Int, p.g.lastTs ≤ at_ → at_ ≤ ts →
      ¬ ((at_ / 4 % 65536).toNat ≤ k ∧ k ≤ (at_ / 4 % 65536).toNat + 6)) →
    ((update ts p).hr.get b).read k = (p.hr.get b).read k

/-- A machine as constructed stays silent however far time advances: no cell changes and nothing is injected
(70_reset_and_hazards.md R279). -/
def Obligations.ConstructedMachineIsSilent : Prop :=
  ∀ (rev : Rev) (hr : Stereo Memory) (ts : Int), 0 ≤ ts →
    (update ts (Psg.fresh rev hr)).hr = hr
    ∧ ∀ c, ((update ts (Psg.fresh rev hr)).chan c).prev = ⟨0, 0⟩
      ∧ level (update ts (Psg.fresh rev hr)) c = ⟨0, 0⟩

/-! ### The crossfade machine -/

/-- The target attenuation is the saturated sum of the three reductions; the quietest setting of any gives 31, the
loudest of all gives 0 (45_update_scheduler.md R185, R186; the table is the default of R185, log 11). -/
def Obligations.TargetAttenuation : Prop :=
  ∀ (p : Psg) (c : ChanIdx) (b : Side),
    let nibble (v : Byte) : Nat := match b with
      | .left => v.toNat / 16
      | .right => v.toNat % 16
    let scale := [0x00, 0x03, 0x05, 0x07, 0x09, 0x0B, 0x0D, 0x0F, 0x10, 0x13, 0x15, 0x17, 0x19, 0x1B, 0x1D, 0x1F]
    let gb := 31 - scale.getD (nibble p.g.globalBalance) 0
    let cb := 31 - scale.getD (nibble (p.chan c).balance) 0
    let al := 31 - (p.chan c).control.toNat % 32
    (targetAtt p c b).toNat = min 31 (gb + cb + al)

/-- One crossfade step: an even phase samples the target of its channel and side into the latch, an odd phase commits
the latch to that attenuation; the phase moves on modulo 24, the countdown is reloaded with 255 after a sample and 1
after a commit, but at the end of a cycle only if a request is pending, which that clears; nothing else changes
(45_update_scheduler.md R183, R184, R187 to R189). -/
def Obligations.CrossfadeStep : Prop :=
  ∀ (p : Psg) (c : ChanIdx) (b : Side) (commit : Bool),
    p.g.xfPhase = 4 * c.val + (if b = .left then 2 else 0) + (if commit then 1 else 0) →
    let q := xfadeStep p
    q.g.xfPhase = (p.g.xfPhase + 1) % 24
    ∧ q.g.xfLatch = (if commit then p.g.xfLatch else targetAtt p c b)
    ∧ q.g.xfCountdown
        = (if p.g.xfPhase = 23 ∧ p.g.xfPending = false then p.g.xfCountdown else if commit then 1 else 255)
    ∧ q.g.xfPending = (if p.g.xfPhase = 23 then false else p.g.xfPending)
    ∧ q.g = { p.g with xfPhase := q.g.xfPhase, xfLatch := q.g.xfLatch, xfCountdown := q.g.xfCountdown,
                       xfPending := q.g.xfPending }
    ∧ q.chan c = (if commit then
        { p.chan c with attenuation := (p.chan c).attenuation.set b p.g.xfLatch } else p.chan c)
    ∧ onlyChan c p q

/-- The timeline of one crossfade cycle that starts at time `W` on an idle machine with a request: side number `j` (right
then left of each channel in turn) is sampled at `W + 1 + 256 j` and committed at `W + 256 (j + 1)`; after 3072 ticks
every attenuation is the target and the machine is idle (45_update_scheduler.md R190). -/
def Obligations.CrossfadeTimeline : Prop :=
  ∀ p : Psg, 0 ≤ p.g.lastTs → p.g.xfPending = true → p.g.xfCountdown = 0 → p.g.xfPhase = 0 →
    (∀ j : Nat, j ≤ 12 →
      let u := update (p.g.lastTs + 256 * j) p
      (∀ c : ChanIdx,
        (u.chan c).attenuation.right
          = (if 2 * c.val < j then targetAtt p c .right else (p.chan c).attenuation.right)
        ∧ (u.chan c).attenuation.left
          = (if 2 * c.val + 1 < j then targetAtt p c .left else (p.chan c).attenuation.left))
      ∧ u.g.xfPhase = 2 * j % 24 ∧ u.g.xfCountdown = (if j = 12 then 0 else 1) ∧ u.g.xfPending = false)
    ∧ ∀ (c : ChanIdx) (b : Side),
      let j := 2 * c.val + (if b = .left then 1 else 0)
      let v := update (p.g.lastTs + 256 * j + 1) p
      v.g.xfLatch = targetAtt p c b ∧ v.g.xfPhase = 2 * j + 1 ∧ v.g.xfCountdown = 255

/-- Only the balance and control writes, SETREG and LOAD can raise a crossfade request (46_register_writes.md R215;
47_lifecycle_host.md R231, R235 for the debug path). -/
def Obligations.CrossfadeRequestSources : Prop :=
  ∀ (i : Instr) (s t : State), exec i s = .next t → s.psg.g.xfPending = false → t.psg.g.xfPending = true →
    (∃ ts v, i = .wGbal ts v) ∨ (∃ ts v, i = .wCtrl ts v) ∨ (∃ ts v, i = .wBal ts v)
    ∨ (∃ f v, i = .setreg f v) ∨ (∃ r, i = .load r ∧ r.xfPending = true)

/-! ### What every operation keeps -/

/-- The invariants hold in the machine right after reset, and right after a construction over any buffers in canonical
form (10_state.md R47 to R53, R59). -/
def Obligations.ResetMeetsInvariants : Prop :=
  State.reset.psg.Inv
  ∧ ∀ (rev : Rev) (hr : Stereo Memory), hr.left.wf = true → hr.right.wf = true → (Psg.fresh rev hr).Inv

/-- Every step keeps the invariants between operations, if the host keeps its duty for the operation the step performs
(10_state.md R47 to R53; 47_lifecycle_host.md R239). -/
def Obligations.StepKeepsInvariants : Prop :=
  ∀ s t : State, s.psg.Inv →
    (∀ (k : Command) (rest : List Command) (i : Instr), s.queue = k :: rest → decode k = .ok i → dutiful s.psg i) →
    step s = .next t → t.psg.Inv

/-- Every step keeps the caches as fresh as the rules make them: noise periods and output functions always, the stored
periods of channels 2 to 5 always, those of channels 0 and 1 whenever LFO mode is off (10_state.md R54,
41_frequency_cache.md R124, 47_lifecycle_host.md R238). -/
def Obligations.StepKeepsCaches : Prop :=
  State.reset.psg.cachesKept ∧ ∀ s t : State, s.psg.cachesKept → step s = .next t → t.psg.cachesKept

/-- For all channels and all times the accumulator equals the sum of the 32 waveform cells: it does at reset, and every
operation keeps it (10_state.md R52). -/
def Obligations.AccumulatorIsWaveformSum : Prop :=
  (∀ c, (State.reset.psg.chan c).sampleAccumulator = waveSum (State.reset.psg.chan c).waveform)
  ∧ ∀ (i : Instr) (s t : State), (∀ c, (s.psg.chan c).sampleAccumulator = waveSum (s.psg.chan c).waveform) →
    exec i s = .next t → ∀ c, (t.psg.chan c).sampleAccumulator = waveSum (t.psg.chan c).waveform

/-- Telescoping: over any operation but a LOAD and a CONSTRUCT, what is added to all cells of a side is 2048 times the
change of the levels last injected on it (43_injector.md R147, R148; the kernel's sum is that of the default, log
11). -/
def Obligations.BufferSumTelescopes : Prop :=
  ∀ (i : Instr) (s t : State) (b : Side), s.psg.ready → dutiful s.psg i → (∀ r, i ≠ .load r) →
    (∀ hr, i ≠ .constructRev0 hr ∧ i ≠ .constructRevA hr) → exec i s = .next t →
    hrTotal t.psg b - hrTotal s.psg b = 2048 * (prevTotal t.psg b - prevTotal s.psg b)

/-- PSG-CORE never reads the buffers: two machines that differ only in what the cells hold do the same operation alike,
return the same, still differ only in the cells, and add the same to every cell (20_memory.md R66). -/
def Obligations.BuffersAreNeverRead : Prop :=
  ∀ (i : Instr) (s s' t : State), sameButCells s.psg s'.psg → s.psg.ready → dutiful s.psg i →
    s.psg.hr.left.wf = true → s.psg.hr.right.wf = true → s'.psg.hr.left.wf = true → s'.psg.hr.right.wf = true →
    exec i s = .next t →
    ∃ t', exec i s' = .next t' ∧ t'.result = t.result ∧ sameButCells t.psg t'.psg
      ∧ ((∀ hr, i ≠ .constructRev0 hr ∧ i ≠ .constructRevA hr) → ∀ (b : Side) (k : Nat),
          (t'.psg.hr.get b).read k - (s'.psg.hr.get b).read k = (t.psg.hr.get b).read k - (s.psg.hr.get b).read k)

/-! ### Register writes -/

/-- W_SELECT, encoded 0x00vv, stores the low 3 bits at once: no flush, whatever the timestamp; 6 and 7 select no
channel; and the select has no part in how time advances, so a later flush gives the same as if the select had been
written after it (46_register_writes.md R197). -/
def Obligations.SelectWrite : Prop :=
  (∀ (ts : Int) (v : Byte) (s : State),
    ∃ t, exec (.wSelect ts v) s = .next t ∧ t.queue = s.queue ∧ t.result = .nothing ∧ onlyGlobal s.psg t.psg
      ∧ t.psg.g = { s.psg.g with select := t.psg.g.select } ∧ t.psg.g.select.toNat = v.toNat % 8
      ∧ (6 ≤ v.toNat % 8 → selected t.psg = none)
      ∧ ∀ later : Int, s.psg.inOrder later →
        update later t.psg = (update later s.psg).modGlobal (fun g => { g with select := t.psg.g.select }))
  ∧ (∀ (ts : Int) (s t : State), exec (.wSelect ts 0x0D) s = .next t → t.psg.g.select = 5)
  ∧ ∀ (ts : Int) (v : Byte), decode (.plain (BitVec.ofNat 16 v.toNat) ts) = .ok (.wSelect ts v)

/-- W_GBAL: the flush, the global balance, a crossfade request, whatever the select (46_register_writes.md R196, R198).
W_BAL: the same with the balance of the selected channel (R205). -/
def Obligations.BalanceWrites : Prop :=
  ∀ (ts : Int) (v : Byte) (s : State), s.psg.ready → s.psg.inOrder ts →
    (∃ t, exec (.wGbal ts v) s = .next t ∧ t.queue = s.queue ∧ t.result = .nothing
      ∧ t.psg.g = { (update ts s.psg).g with globalBalance := v, xfPending := true }
      ∧ onlyGlobal (update ts s.psg) t.psg)
    ∧ ∀ c : ChanIdx, s.psg.g.select.toNat = c.val →
      ∃ t, exec (.wBal ts v) s = .next t ∧ t.queue = s.queue ∧ t.result = .nothing
        ∧ t.psg.chan c = { (update ts s.psg).chan c with balance := v }
        ∧ t.psg.g = { (update ts s.psg).g with xfPending := true }
        ∧ onlyChan c (update ts s.psg) t.psg

/-- W_FREQ_LO, encoded 0x02vv: the flush; the low byte of the selected channel's frequency is replaced, its period and
output function are recomputed, the counter and everything else stay; with select 6 or 7 only the flush
(46_register_writes.md R199). -/
def Obligations.FrequencyLowWrite : Prop :=
  ∀ (ts : Int) (v : Byte) (s : State), s.psg.ready → s.psg.inOrder ts →
    (∀ c : ChanIdx, s.psg.g.select.toNat = c.val →
      ∃ t, exec (.wFreqLo ts v) s = .next t ∧ t.queue = s.queue ∧ t.result = .nothing
        ∧ (t.psg.chan c).frequency.toNat = ((update ts s.psg).chan c).frequency.toNat / 256 * 256 + v.toNat
        ∧ t.psg.chan c
            = { (update ts s.psg).chan c with
                frequency := (t.psg.chan c).frequency, freqCache := freqPeriod t.psg c,
                outputFunction := chanFn t.psg c }
        ∧ t.psg.g = (update ts s.psg).g ∧ onlyChan c (update ts s.psg) t.psg)
    ∧ (6 ≤ s.psg.g.select.toNat →
      exec (.wFreqLo ts v) s = .next { s with psg := update ts s.psg, result := .nothing })
    ∧ decode (.plain (BitVec.ofNat 16 (0x200 + v.toNat)) ts) = .ok (.wFreqLo ts v)

/-- W_FREQ_HI: the flush; the high four bits of the selected channel's frequency are replaced by the low four of the
value, its period and output function are recomputed, everything else stays (46_register_writes.md R200). -/
def Obligations.FrequencyHighWrite : Prop :=
  ∀ (ts : Int) (v : Byte) (s : State) (c : ChanIdx), s.psg.ready → s.psg.inOrder ts → s.psg.g.select.toNat = c.val →
    ∃ t, exec (.wFreqHi ts v) s = .next t ∧ t.queue = s.queue ∧ t.result = .nothing
      ∧ (t.psg.chan c).frequency.toNat
          = v.toNat % 16 * 256 + ((update ts s.psg).chan c).frequency.toNat % 256
      ∧ t.psg.chan c
          = { (update ts s.psg).chan c with
              frequency := (t.psg.chan c).frequency, freqCache := freqPeriod t.psg c,
              outputFunction := chanFn t.psg c }
      ∧ t.psg.g = (update ts s.psg).g ∧ onlyChan c (update ts s.psg) t.psg

/-- W_CTRL: the flush; a rising `DDA` rewinds the channel, a rising `EN` with the new `DDA` clear advances it one cell;
the byte is stored, period and output function are recomputed, a crossfade is requested (46_register_writes.md R201 to
R204). -/
def Obligations.ControlWrite : Prop :=
  ∀ (ts : Int) (v : Byte) (s : State) (c : ChanIdx), s.psg.ready → s.psg.inOrder ts → s.psg.g.select.toNat = c.val →
    ∃ t, exec (.wCtrl ts v) s = .next t ∧ t.queue = s.queue ∧ t.result = .nothing
      ∧ (let x := (update ts s.psg).chan c
         let y := if x.control.getLsbD 6 = false ∧ v.getLsbD 6 = true then
             { x with waveformIndex := 0, ddaLatch := waveRead x 0, counter := x.freqCache.ticks }
           else if x.control.getLsbD 7 = false ∧ v.getLsbD 7 = true ∧ v.getLsbD 6 = false then
             { x with waveformIndex := x.waveformIndex + 1, ddaLatch := waveRead x (x.waveformIndex + 1).toNat }
           else x
         t.psg.chan c
           = { y with control := v, freqCache := freqPeriod t.psg c, outputFunction := chanFn t.psg c })
      ∧ t.psg.g = { (update ts s.psg).g with xfPending := true }
      ∧ onlyChan c (update ts s.psg) t.psg

/-- W_WAVE: the flush; the low five bits are stored at the index, with the accumulator kept exact (46_register_writes.md
R206); the index advances unless `DDA` is set (R207); the latch takes the value if `EN` is set (R208); no recompute. -/
def Obligations.WaveformDataWrite : Prop :=
  ∀ (ts : Int) (v : Byte) (s : State) (c : ChanIdx), s.psg.ready → s.psg.inOrder ts → s.psg.g.select.toNat = c.val →
    ∃ t, exec (.wWave ts v) s = .next t ∧ t.queue = s.queue ∧ t.result = .nothing
      ∧ (let x := (update ts s.psg).chan c
         let w : Sample := BitVec.ofNat 5 (v.toNat % 32)
         t.psg.chan c
           = { x with
               waveform := x.waveform.setIfInBounds x.waveformIndex.toNat w
               sampleAccumulator := x.sampleAccumulator - (waveRead x x.waveformIndex.toNat).toNat + w.toNat
               waveformIndex := if x.control.getLsbD 6 = true then x.waveformIndex else x.waveformIndex + 1
               ddaLatch := if x.control.getLsbD 7 = true then w else x.ddaLatch })
      ∧ t.psg.g = (update ts s.psg).g ∧ onlyChan c (update ts s.psg) t.psg

/-- W_NOISE: the flush; on channels 4 and 5 the byte is stored, noise period and output function are recomputed, the
noise counter stays; on channels 0 to 3 nothing (46_register_writes.md R209). -/
def Obligations.NoiseWrite : Prop :=
  ∀ (ts : Int) (v : Byte) (s : State) (c : ChanIdx), s.psg.ready → s.psg.inOrder ts → s.psg.g.select.toNat = c.val →
    (4 ≤ c.val →
      ∃ t, exec (.wNoise ts v) s = .next t ∧ t.queue = s.queue ∧ t.result = .nothing
        ∧ t.psg.chan c
            = { (update ts s.psg).chan c with
                noiseControl := v, noiseFreqCache := noisePeriod v, outputFunction := chanFn t.psg c }
        ∧ t.psg.g = (update ts s.psg).g ∧ onlyChan c (update ts s.psg) t.psg)
    ∧ (c.val < 4 → exec (.wNoise ts v) s = .next { s with psg := update ts s.psg, result := .nothing })

/-- W_LFOFREQ: the flush and the store, no recompute (46_register_writes.md R210). W_LFOCTRL: the flush; a value with bit
7 set rewinds channel 1 with the period as it was; the byte is stored; period and output function of channels 0 and 1
are recomputed (R211). -/
def Obligations.LfoWrites : Prop :=
  ∀ (ts : Int) (v : Byte) (s : State), s.psg.ready → s.psg.inOrder ts →
    (∃ t, exec (.wLfofreq ts v) s = .next t ∧ t.queue = s.queue ∧ t.result = .nothing
      ∧ t.psg.g = { (update ts s.psg).g with lfoFrequency := v } ∧ onlyGlobal (update ts s.psg) t.psg)
    ∧ ∃ t, exec (.wLfoctrl ts v) s = .next t ∧ t.queue = s.queue ∧ t.result = .nothing
      ∧ (let u := update ts s.psg
         let x := u.chan 1
         let y := if v.getLsbD 7 = true then
             { x with waveformIndex := 0, ddaLatch := waveRead x 0, counter := x.freqCache.ticks }
           else x
         t.psg.g = { u.g with lfoControl := v }
         ∧ t.psg.chan 0
             = { u.chan 0 with freqCache := freqPeriod t.psg 0, outputFunction := chanFn t.psg 0 }
         ∧ t.psg.chan 1 = { y with freqCache := freqPeriod t.psg 1, outputFunction := chanFn t.psg 1 }
         ∧ (∀ d, d ≠ 0 → d ≠ 1 → t.psg.chan d = u.chan d)
         ∧ t.psg.hr = u.hr ∧ t.psg.rev = u.rev ∧ t.psg.hrOverrun = false)

/-- UPD advances time and does nothing else (45_update_scheduler.md R174, R181); a write at offset 0xA to 0xF is
equivalent to it, whatever its value (46_register_writes.md R212). -/
def Obligations.UpdateAndReservedWrites : Prop :=
  ∀ (ts : Int) (v : Byte) (s : State), s.psg.ready → s.psg.inOrder ts →
    exec (.upd ts) s = .next { s with psg := update ts s.psg, result := .nothing }
    ∧ (update ts s.psg).g.lastTs = ts ∧ (update ts s.psg).ready
    ∧ exec (.wRsvdA ts v) s = .next { s with psg := update ts s.psg, result := .nothing }
    ∧ exec (.wRsvdB ts v) s = .next { s with psg := update ts s.psg, result := .nothing }
    ∧ exec (.wRsvdC ts v) s = .next { s with psg := update ts s.psg, result := .nothing }
    ∧ exec (.wRsvdD ts v) s = .next { s with psg := update ts s.psg, result := .nothing }
    ∧ exec (.wRsvdE ts v) s = .next { s with psg := update ts s.psg, result := .nothing }
    ∧ exec (.wRsvdF ts v) s = .next { s with psg := update ts s.psg, result := .nothing }

/-- With `g.select` 6 or 7 a write to offsets 2 to 7 flushes time and then changes nothing: no store, no recompute, no
crossfade request (46_register_writes.md R213). -/
def Obligations.NoChannelSelectedWrites : Prop :=
  ∀ (ts : Int) (v : Byte) (s : State), s.psg.ready → s.psg.inOrder ts → 6 ≤ s.psg.g.select.toNat →
    ∀ i ∈ [Instr.wFreqLo ts v, .wFreqHi ts v, .wCtrl ts v, .wBal ts v, .wWave ts v, .wNoise ts v],
      exec i s = .next { s with psg := update ts s.psg, result := .nothing }

/-! ### Reset and the time base -/

/-- PWR flushes time if its timestamp differs, then puts every field at its value after reset, but for the time stamps,
the levels last injected, the revision and the buffers (47_lifecycle_host.md R225 to R228; 10_state.md R59). -/
def Obligations.PowerResets : Prop :=
  ∀ (ts : Int) (s : State), s.psg.ready → s.psg.inOrder ts →
    ∃ t, exec (.pwr ts) s = .next t ∧ t.queue = s.queue ∧ t.result = .nothing
      ∧ (let u := if ts = s.psg.g.lastTs then s.psg else update ts s.psg
         t.psg.g = { Global.reset with lastTs := ts }
         ∧ (∀ c, t.psg.chan c = { Chan.reset with prev := (u.chan c).prev, lastTs := (u.chan c).lastTs })
         ∧ t.psg.hr = u.hr ∧ t.psg.rev = s.psg.rev ∧ t.psg.hrOverrun = false)

/-- CONSTRUCT gives a machine of its revision with every field at its reset value, bound to the buffers it is given as
they are (47_lifecycle_host.md R224, 10_state.md R59; that the new machine replaces the old one in the state is the
model's choice, log 13). -/
def Obligations.ConstructResets : Prop :=
  ∀ (hr : Stereo Memory) (s : State),
    exec (.constructRev0 hr) s
      = .next { s with
          psg := { rev := .rev0, g := Global.reset, ch := Vector.replicate 6 Chan.reset, hr := hr, hrOverrun := false }
          result := .nothing }
    ∧ exec (.constructRevA hr) s
      = .next { s with
          psg := { rev := .revA, g := Global.reset, ch := Vector.replicate 6 Chan.reset, hr := hr, hrOverrun := false }
          result := .nothing }

/-- RTS sets the global and every channel's time stamp and changes nothing else (47_lifecycle_host.md R229). -/
def Obligations.TimeBaseRebased : Prop :=
  ∀ (base : Int) (s : State), 0 ≤ base →
    ∃ t, exec (.rts base) s = .next t ∧ t.queue = s.queue ∧ t.result = .nothing
      ∧ t.psg.g = { s.psg.g with lastTs := base }
      ∧ (∀ c, t.psg.chan c = { s.psg.chan c with lastTs := base })
      ∧ t.psg.hr = s.psg.hr ∧ t.psg.rev = s.psg.rev ∧ t.psg.hrOverrun = s.psg.hrOverrun

/-! ### The debug path -/

/-- GETREG, PEEK and SAVE complete in every state, return their value and change nothing of the machine. GETREG reads
each of the 27 fields of 30_encoding.md R101 as the field it names, the output function as 0 to 3 and the crossfade
request as 0 or 1; PEEK reads the cell at the index modulo 32; every field of the saved record is the machine's, its
waveform cell by cell (47_lifecycle_host.md R230, R232, R234; that what is returned stands in the state is the model's
choice, log 8, and that a record is a tuple of integers, log 14). -/
def Obligations.DebugReads : Prop :=
  ∀ s : State,
    (∀ id : FieldId, exec (.getreg id) s = .next { s with result := .value (getField s.psg id) })
    ∧ (∀ (c : ChanIdx) (i : Byte), exec (.peek c i) s
        = .next { s with
            result := .value ((s.psg.chan c).waveform[i.toNat % 32]'(Nat.mod_lt _ (by decide))).toNat })
    ∧ exec .save s = .next { s with result := .record (saveState s.psg) }
    ∧ (let g := s.psg.g
       let get := fun f => getField s.psg (.glob f)
       get .select = g.select.toNat ∧ get .gbal = g.globalBalance.toNat ∧ get .lfofreq = g.lfoFrequency.toNat
       ∧ get .lfoctrl = g.lfoControl.toNat ∧ get .glastts = g.lastTs ∧ get .xfPending = (if g.xfPending then 1 else 0)
       ∧ get .xfCountdown = g.xfCountdown ∧ get .xfPhase = g.xfPhase ∧ get .xfLatch = g.xfLatch.toNat
       ∧ (let r := saveState s.psg
          r.select = get .select ∧ r.globalBalance = get .gbal ∧ r.lfoFrequency = get .lfofreq
          ∧ r.lfoControl = get .lfoctrl ∧ r.lastTs = get .glastts ∧ r.xfPending = g.xfPending
          ∧ r.xfCountdown = get .xfCountdown ∧ r.xfPhase = get .xfPhase ∧ r.xfLatch = get .xfLatch))
    ∧ ∀ c : ChanIdx,
      let x := s.psg.chan c
      let get := fun f => getField s.psg (.chan c f)
      get .freq = x.frequency.toNat ∧ get .ctrl = x.control.toNat ∧ get .balance = x.balance.toNat
      ∧ get .nctrl = x.noiseControl.toNat ∧ get .windex = x.waveformIndex.toNat ∧ get .ddalatch = x.ddaLatch.toNat
      ∧ get .acc = x.sampleAccumulator ∧ get .counter = x.counter ∧ get .freqcache = x.freqCache.ticks
      ∧ get .ncount = x.noiseCount ∧ get .nfreqcache = x.noiseFreqCache.ticks ∧ get .lfsr = x.lfsr.toNat
      ∧ get .attL = x.attenuation.left.toNat ∧ get .attR = x.attenuation.right.toNat
      ∧ get .prevL = x.prev.left ∧ get .prevR = x.prev.right
      ∧ get .ofn = (match x.outputFunction with | .off => 0 | .normal => 1 | .noise => 2 | .accumulate => 3)
      ∧ get .lastts = x.lastTs
      ∧ (let r := (saveState s.psg).ch[c]
         r.frequency = get .freq ∧ r.control = get .ctrl ∧ r.balance = get .balance ∧ r.noiseControl = get .nctrl
         ∧ r.waveformIndex = get .windex ∧ r.ddaLatch = get .ddalatch ∧ r.sampleAccumulator = get .acc
         ∧ r.counter = get .counter ∧ r.freqCache = get .freqcache ∧ r.noiseCount = get .ncount
         ∧ r.noiseFreqCache = get .nfreqcache ∧ r.lfsr = get .lfsr ∧ r.attenuation = ⟨get .attL, get .attR⟩
         ∧ r.prev = ⟨get .prevL, get .prevR⟩ ∧ r.outputFunction = x.outputFunction ∧ r.lastTs = get .lastts
         ∧ ∀ i : Nat, (h : i < 32) → r.waveform[i] = (x.waveform[i].toNat : Int))

/-- SETREG of a channel's field stores the value masked to the field's width, with the recompute and the crossfade request
of the matching write, and no flush, edge action, index advance or trigger (47_lifecycle_host.md R231). Of a negative
value the bits stored are those of its two's complement, as the model reads 00_scope.md R13 (log 15). -/
def Obligations.SetChannelField : Prop :=
  ∀ (s : State) (c : ChanIdx) (v : Int) (f : ChanField), settable (.chan c f) = true →
    ∃ t, exec (.setreg (.chan c f) v) s = .next t ∧ t.queue = s.queue ∧ t.result = .nothing
      ∧ onlyChan c s.psg t.psg
      ∧ t.psg.g = (if f = .ctrl ∨ f = .balance then { s.psg.g with xfPending := true } else s.psg.g)
      ∧ (let x := s.psg.chan c
         (f = .freq → t.psg.chan c = { x with
            frequency := BitVec.ofInt 12 v, freqCache := freqPeriod t.psg c, outputFunction := chanFn t.psg c })
         ∧ (f = .ctrl → t.psg.chan c = { x with
            control := BitVec.ofInt 8 v, freqCache := freqPeriod t.psg c, outputFunction := chanFn t.psg c })
         ∧ (f = .balance → t.psg.chan c = { x with balance := BitVec.ofInt 8 v })
         ∧ (f = .nctrl → t.psg.chan c = { x with
            noiseControl := BitVec.ofInt 8 v, noiseFreqCache := noisePeriod (BitVec.ofInt 8 v),
            outputFunction := chanFn t.psg c })
         ∧ (f = .windex → t.psg.chan c = { x with waveformIndex := BitVec.ofInt 5 v })
         ∧ (f = .ddalatch → t.psg.chan c = { x with ddaLatch := BitVec.ofInt 5 v })
         ∧ (f = .lfsr → t.psg.chan c = { x with
            lfsr := if v % 2 ^ 18 = 0 then 1 else BitVec.ofInt 18 v }))

/-- SETREG of a global field stores the value masked to the field's width; the global balance requests a crossfade, the
LFO control recomputes channels 0 and 1; no flush and no trigger (47_lifecycle_host.md R231). Of a negative value the bits
stored are those of its two's complement, as the model reads 00_scope.md R13 (log 15). -/
def Obligations.SetGlobalField : Prop :=
  ∀ (s : State) (v : Int) (f : GlobField), settable (.glob f) = true →
    ∃ t, exec (.setreg (.glob f) v) s = .next t ∧ t.queue = s.queue ∧ t.result = .nothing
      ∧ t.psg.hr = s.psg.hr ∧ t.psg.rev = s.psg.rev ∧ t.psg.hrOverrun = s.psg.hrOverrun
      ∧ (f = .select → t.psg.g = { s.psg.g with select := BitVec.ofInt 3 v })
      ∧ (f = .gbal → t.psg.g = { s.psg.g with globalBalance := BitVec.ofInt 8 v, xfPending := true })
      ∧ (f = .lfofreq → t.psg.g = { s.psg.g with lfoFrequency := BitVec.ofInt 8 v })
      ∧ (f = .lfoctrl → t.psg.g = { s.psg.g with lfoControl := BitVec.ofInt 8 v })
      ∧ ∀ c, t.psg.chan c = (if f = .lfoctrl ∧ c.val ≤ 1 then
          { s.psg.chan c with freqCache := freqPeriod t.psg c, outputFunction := chanFn t.psg c }
        else s.psg.chan c)

/-- SETREG of any other field is refused to the host and changes nothing (47_lifecycle_host.md R231; that the refusal is
an answer and no stop is the model's choice, log 9). -/
def Obligations.UnsettableFieldDeclined : Prop :=
  ∀ (s : State) (id : FieldId) (v : Int), settable id = false →
    exec (.setreg id v) s = .next { s with result := .declined }

/-- POKE stores the low five bits at the cell, the index counting modulo 32, keeps the accumulator exact, and moves
neither the index nor the latch (47_lifecycle_host.md R233, 20_memory.md R65). Of a negative value the bits stored are
those of its two's complement, as the model reads 00_scope.md R13 (log 15). -/
def Obligations.PokeStores : Prop :=
  ∀ (s : State) (c : ChanIdx) (i : Byte) (v : Int),
    ∃ t, exec (.poke c i v) s = .next t ∧ t.queue = s.queue ∧ t.result = .nothing
      ∧ (let x := s.psg.chan c
         t.psg.chan c
           = { x with
               waveform := x.waveform.setIfInBounds (i.toNat % 32) (BitVec.ofInt 5 v)
               sampleAccumulator := x.sampleAccumulator - (waveRead x i.toNat).toNat + v % 32 })
      ∧ t.psg.g = s.psg.g ∧ onlyChan c s.psg t.psg

/-- LOAD takes every field of the record, masked, clamped and repaired as the rule says, and ends with every cache fresh;
the revision and the buffers stay (47_lifecycle_host.md R235). That a record is a tuple of integers is the model's choice
(log 14); of a negative integer the bits kept are those of its two's complement, as the model reads 00_scope.md R13 (log
15). -/
def Obligations.LoadRepairs : Prop :=
  ∀ (r : Record) (s : State),
    ∃ t, exec (.load r) s = .next t ∧ t.queue = s.queue ∧ t.result = .nothing
      ∧ t.psg.hr = s.psg.hr ∧ t.psg.rev = s.psg.rev ∧ t.psg.hrOverrun = s.psg.hrOverrun ∧ t.psg.cacheFresh
      ∧ t.psg.g.select = BitVec.ofInt 3 r.select ∧ t.psg.g.globalBalance = BitVec.ofInt 8 r.globalBalance
      ∧ t.psg.g.lfoFrequency = BitVec.ofInt 8 r.lfoFrequency ∧ t.psg.g.lfoControl = BitVec.ofInt 8 r.lfoControl
      ∧ t.psg.g.lastTs = r.lastTs ∧ t.psg.g.xfPending = r.xfPending
      ∧ (t.psg.g.xfCountdown : Int) = max 0 (min 255 r.xfCountdown)
      ∧ (t.psg.g.xfPhase : Int) = r.xfPhase % 24 ∧ t.psg.g.xfLatch = BitVec.ofInt 5 r.xfLatch
      ∧ ∀ c : ChanIdx,
        let x := t.psg.chan c
        let y := r.ch[c]
        x.frequency = BitVec.ofInt 12 y.frequency ∧ x.control = BitVec.ofInt 8 y.control
        ∧ x.balance = BitVec.ofInt 8 y.balance
        ∧ x.noiseControl = (if 4 ≤ c.val then BitVec.ofInt 8 y.noiseControl else 0)
        ∧ (∀ i : Nat, (h : i < 32) → x.waveform[i] = BitVec.ofInt 5 y.waveform[i])
        ∧ x.waveformIndex = BitVec.ofInt 5 y.waveformIndex ∧ x.ddaLatch = BitVec.ofInt 5 y.ddaLatch
        ∧ x.attenuation = ⟨BitVec.ofInt 5 y.attenuation.left, BitVec.ofInt 5 y.attenuation.right⟩
        ∧ x.prev = y.prev ∧ x.lastTs = y.lastTs
        ∧ x.lfsr = (if y.lfsr % 2 ^ 18 = 0 then 1 else BitVec.ofInt 18 y.lfsr)
        ∧ x.counter = max 1 y.counter ∧ x.noiseCount = max 1 y.noiseCount
        ∧ x.sampleAccumulator = waveSum x.waveform

/-- Save and restore: for a machine that meets the invariants, restoring what SAVE returned gives the same machine
exactly when every cache is fresh (47_lifecycle_host.md R237). -/
def Obligations.SaveLoadRoundTrip : Prop :=
  ∀ (s : State), s.psg.Inv →
    (exec (.load (saveState s.psg)) s = .next { s with result := .nothing } ↔ s.psg.cacheFresh)
end

