-- ==== Sys2Proof/Laws/Envelope.lean ====
section
/-! SUPPORT. What the envelope builder gives, for every gain (40_envelope_table.md R107 to R113), and that for the
default gain it gives the numbers of 48_envelope_default_tables.md. -/

namespace Sys2Proof.Machine

/-- The search, begun between an accepted and a refused number, ends on an accepted number before a refused one. -/
theorem greatestFrom_spec {ok : Nat → Bool} (k m : Nat) (h : ok m = true) (hk : ok (m + 2 ^ k) = false) :
    ok (greatestFrom ok k m) = true ∧ ok (greatestFrom ok k m + 1) = false := by
  induction k generalizing m with
  | zero => exact ⟨h, hk⟩
  | succ k ih =>
    rw [greatestFrom]
    split
    · next h' => exact ih _ h' (by rwa [Nat.add_assoc, ← Nat.two_mul, ← Nat.pow_succ'])
    · next h' => exact ih _ h (by simpa using h')

/-- A smaller number fits wherever a greater one does. -/
theorem ampFits_mono (g : Gain) (a n x y : Nat) (h : x ≤ y) (hy : ampFits g a n y = true) : ampFits g a n x = true := by
  simp only [ampFits, decide_eq_true_eq] at hy ⊢
  exact Nat.le_trans (Nat.mul_le_mul_right _ (Nat.pow_le_pow_left (Nat.mul_le_mul_left _ h) 4)) hy

/-- The amplitude of a level is the greatest number that fits (40_envelope_table.md R113). -/
theorem ampFloor_spec (g : Gain) (a n : Nat) :
    ampFits g a n (ampFloor g a n) = true ∧ ampFits g a n (ampFloor g a n + 1) = false := by
  refine greatestFrom_spec _ _ (by simp [ampFits]) ?_
  have hlt : g.num * n < 2 ^ (Nat.log2 (g.num * n) + 1) := Nat.lt_log2_self
  have hle : 2 ^ (Nat.log2 (g.num * n) + 1) ≤ 3 * g.den * (0 + 2 ^ (Nat.log2 (g.num * n) + 1)) := by
    have := g.den_pos
    rw [Nat.zero_add]
    exact Nat.le_mul_of_pos_left _ (by omega)
  have hp := Nat.pow_lt_pow_left (Nat.lt_of_lt_of_le hlt hle) (by decide : 4 ≠ 0)
  simp only [ampFits, decide_eq_false_iff_not, Nat.not_le]
  exact Nat.lt_of_lt_of_le hp (Nat.le_mul_of_pos_right _ (Nat.two_pow_pos a))

/-- A fitting number is at most the amplitude. -/
theorem le_ampFloor {g : Gain} {a n m : Nat} (h : ampFits g a n m = true) : m ≤ ampFloor g a n := by
  apply Nat.le_of_lt_succ
  refine Nat.lt_of_not_le fun hge => ?_
  have := ampFits_mono g a n _ _ hge h
  rw [Nat.succ_eq_add_one, (ampFloor_spec g a n).2] at this
  cases this

/-- The amplitude shrinks with the level (40_envelope_table.md R108). -/
theorem ampFloor_antitone (g : Gain) (a n : Nat) : ampFloor g (a + 1) n ≤ ampFloor g a n := by
  apply le_ampFloor
  have h := (ampFloor_spec g (a + 1) n).1
  simp only [ampFits, decide_eq_true_eq] at h ⊢
  exact Nat.le_trans (Nat.mul_le_mul_left _ (Nat.pow_le_pow_right (by decide) (Nat.le_succ a))) h

/-- The table of the default gain is the one the spec prints, for REV_0
(48_envelope_default_tables.md R251). -/
theorem env_rev0_table : ∀ a s : Sample, env .rev0 a s = envTable .rev0 a s := by decide +kernel

/-- The same for REV_A (48_envelope_default_tables.md R252). -/
theorem env_revA_table : ∀ a s : Sample, env .revA a s = envTable .revA a s := by decide +kernel

/-- For the default gain the builder gives the printed `ENV` (48_envelope_default_tables.md R251, R252). -/
theorem env_eq_table (rev : Rev) (a s : Sample) : env rev a s = envTable rev a s := by
  cases rev
  · exact env_rev0_table a s
  · exact env_revA_table a s

/-- For the default gain the builder gives the printed `ENVVOL` (48_envelope_default_tables.md R250). -/
theorem envVol_eq_table : ∀ a : Sample, envVol a = envVolTable.getD a.toNat 0 := by decide +kernel

end Sys2Proof.Machine
end

