-- ==== Sys2Proof/Laws/State.lean ====
section
/-! SUPPORT. The small lemmas of the state's shapes: stereo pairs. -/

namespace Sys2Proof

@[simp] theorem Stereo.get_left {α : Type} (x : Stereo α) : x.get .left = x.left := rfl
@[simp] theorem Stereo.get_right {α : Type} (x : Stereo α) : x.get .right = x.right := rfl
@[simp] theorem Stereo.set_left {α : Type} (x : Stereo α) (v : α) : x.set .left v = ⟨v, x.right⟩ := rfl
@[simp] theorem Stereo.set_right {α : Type} (x : Stereo α) (v : α) : x.set .right v = ⟨x.left, v⟩ := rfl

/-- Reading back an element of a stereo pair. -/
@[simp] theorem Stereo.get_set {α : Type} (x : Stereo α) (a b : Side) (v : α) :
    (x.set a v).get b = if b = a then v else x.get b := by
  cases a <;> cases b <;> rfl

/-- Two stereo pairs with the same elements are equal. -/
theorem Stereo.ext_get {α : Type} {x y : Stereo α} (h : ∀ b, x.get b = y.get b) : x = y := by
  cases x; cases y
  exact (congr (congrArg Stereo.mk (h .left)) (h .right))

/-- Two periods of the same length are equal. -/
theorem Period.ext_ticks {x y : Period} (h : x.ticks = y.ticks) : x = y := by
  cases x; cases y; simp_all

end Sys2Proof
end

