-- ==== Sys2Proof/Laws/Ops.lean ====
section
/-! SUPPORT. The small lemmas of the shared operations: access to channels and to the global record, the waveform
RAM, the bounded loop, `HRAdd`, and the answers of an operation. -/

namespace Sys2Proof.Machine

/-! ### Channels and the global record: one lemma per field per update -/

@[simp] theorem Psg.chan_setChan (p : Psg) (c d : ChanIdx) (x : Chan) :
    (p.setChan c x).chan d = if d = c then x else p.chan d := by
  simp only [Psg.chan, Psg.setChan, Fin.getElem_fin, Vector.getElem_set]
  by_cases h : d = c
  · subst h; simp
  · have : ¬ c.val = d.val := fun e => h (Fin.ext e.symm)
    simp [h, this]

@[simp] theorem Psg.setChan_rev (p : Psg) (c : ChanIdx) (x : Chan) : (p.setChan c x).rev = p.rev := rfl
@[simp] theorem Psg.setChan_g (p : Psg) (c : ChanIdx) (x : Chan) : (p.setChan c x).g = p.g := rfl
@[simp] theorem Psg.setChan_hr (p : Psg) (c : ChanIdx) (x : Chan) : (p.setChan c x).hr = p.hr := rfl
@[simp] theorem Psg.setChan_hrOverrun (p : Psg) (c : ChanIdx) (x : Chan) :
    (p.setChan c x).hrOverrun = p.hrOverrun := rfl

@[simp] theorem Psg.chan_modChan (p : Psg) (c d : ChanIdx) (f : Chan → Chan) :
    (p.modChan c f).chan d = if d = c then f (p.chan c) else p.chan d := Psg.chan_setChan p c d (f (p.chan c))
@[simp] theorem Psg.modChan_rev (p : Psg) (c : ChanIdx) (f : Chan → Chan) : (p.modChan c f).rev = p.rev := rfl
@[simp] theorem Psg.modChan_g (p : Psg) (c : ChanIdx) (f : Chan → Chan) : (p.modChan c f).g = p.g := rfl
@[simp] theorem Psg.modChan_hr (p : Psg) (c : ChanIdx) (f : Chan → Chan) : (p.modChan c f).hr = p.hr := rfl
@[simp] theorem Psg.modChan_hrOverrun (p : Psg) (c : ChanIdx) (f : Chan → Chan) :
    (p.modChan c f).hrOverrun = p.hrOverrun := rfl

@[simp] theorem Psg.modGlobal_rev (p : Psg) (f : Global → Global) : (p.modGlobal f).rev = p.rev := rfl
@[simp] theorem Psg.modGlobal_g (p : Psg) (f : Global → Global) : (p.modGlobal f).g = f p.g := rfl
@[simp] theorem Psg.modGlobal_hr (p : Psg) (f : Global → Global) : (p.modGlobal f).hr = p.hr := rfl
@[simp] theorem Psg.modGlobal_hrOverrun (p : Psg) (f : Global → Global) : (p.modGlobal f).hrOverrun = p.hrOverrun := rfl
@[simp] theorem Psg.chan_modGlobal (p : Psg) (f : Global → Global) (c : ChanIdx) : (p.modGlobal f).chan c = p.chan c :=
  rfl

/-- Two machines with the same revision, global record, channels and buffers are equal. -/
theorem Psg.ext_chan {p q : Psg} (hr : p.rev = q.rev) (hg : p.g = q.g) (hc : ∀ c, p.chan c = q.chan c) (hh : p.hr = q.hr)
    (ho : p.hrOverrun = q.hrOverrun) : p = q := by
  cases p; cases q
  simp only [Psg.mk.injEq]
  refine ⟨hr, hg, ?_, hh, ho⟩
  refine Vector.ext (fun i hi => ?_)
  exact hc ⟨i, hi⟩

/-- Writing a channel's own record back changes nothing. -/
@[simp] theorem Psg.setChan_self (p : Psg) (c : ChanIdx) : p.setChan c (p.chan c) = p := by
  refine Psg.ext_chan rfl rfl (fun d => ?_) rfl rfl
  simp only [Psg.chan_setChan]
  split
  · next h => rw [h]
  · rfl

/-- A change of a channel that leaves its record as it is changes nothing. -/
theorem Psg.modChan_self (p : Psg) (c : ChanIdx) (f : Chan → Chan) (h : f (p.chan c) = p.chan c) : p.modChan c f = p := by
  simp [Psg.modChan, h]

/-- Two changes of one channel are one. -/
@[simp] theorem Psg.modChan_modChan (p : Psg) (c : ChanIdx) (f k : Chan → Chan) :
    (p.modChan c f).modChan c k = p.modChan c (fun x => k (f x)) := by
  refine Psg.ext_chan rfl rfl (fun d => ?_) rfl rfl
  simp only [Psg.chan_modChan]
  split <;> simp

/-- Every channel is one of the six. -/
theorem chan_cases {P : ChanIdx → Prop} (h0 : P 0) (h1 : P 1) (h2 : P 2) (h3 : P 3) (h4 : P 4) (h5 : P 5) (c : ChanIdx) :
    P c := by
  fin_cases c <;> assumption

/-- What holds before a pass over the channels and is kept on every channel holds after it. -/
theorem forChans_inv {P : Psg → Prop} {f : ChanIdx → Psg → Psg} (h : ∀ c p, P p → P (f c p)) {p : Psg} (hp : P p) :
    P (forChans f p) := h 5 _ (h 4 _ (h 3 _ (h 2 _ (h 1 _ (h 0 _ hp)))))

/-! ### The waveform RAM -/

/-- Reading a waveform cell after a write (20_memory.md R64, R65): indices count modulo 32. -/
theorem waveRead_waveWrite (x : Chan) (i j : Nat) (w : Sample) :
    waveRead (waveWrite x i w) j = if j % 32 = i % 32 then w else waveRead x j := by
  simp only [waveRead, waveWrite, cellIdx, Fin.getElem_fin, Vector.getElem_set]
  by_cases h : i % 32 = j % 32
  · simp [h]
  · have h' : ¬ j % 32 = i % 32 := fun e => h e.symm
    simp [h, h']

/-- The sum of a list after one element is replaced. -/
theorem sum_set (l : List Int) (i : Nat) (v : Int) (h : i < l.length) : (l.set i v).sum = l.sum - l[i] + v := by
  induction l generalizing i with
  | nil => simp at h
  | cons a rest ih =>
    cases i with
    | zero => simp; omega
    | succ n =>
      have := ih n (by simpa using h)
      simp only [List.set_cons_succ, List.sum_cons, List.getElem_cons_succ, this]
      omega

/-- The sum of the waveform after one cell is replaced (10_state.md R52). -/
theorem waveSum_set (w : Vector Sample 32) (i : Fin 32) (v : Sample) :
    waveSum (w.set i.val v i.isLt) = waveSum w - (w[i].toNat : Int) + v.toNat := by
  unfold waveSum
  have hl : (w.set i.val v i.isLt).toList.map (fun s => (s.toNat : Int))
      = (w.toList.map (fun s => (s.toNat : Int))).set i.val (v.toNat : Int) := by
    simp [Vector.toList_set, List.map_set]
  rw [hl, sum_set _ _ _ (by simp)]
  simp

/-- A waveform write keeps the accumulator equal to the sum of the cells (10_state.md R52, 20_memory.md R65). -/
theorem waveWrite_sum (x : Chan) (i : Nat) (w : Sample) (h : x.sampleAccumulator = waveSum x.waveform) :
    (waveWrite x i w).sampleAccumulator = waveSum (waveWrite x i w).waveform := by
  simp only [waveWrite, waveSum_set, h, waveRead]

/-! ### The bounded loop -/

/-- What holds on entry and is kept by every iteration holds at the end of a loop. -/
theorem loopWhile_inv {σ : Type} {guard : σ → Bool} {body : σ → σ} {P : σ → Prop}
    (h : ∀ s, guard s = true → P s → P (body s)) (n : Nat) (s : σ) (hs : P s) : P (loopWhile guard body n s) := by
  induction n generalizing s with
  | zero => exact hs
  | succ n ih =>
    simp only [loopWhile]
    split
    · next hg => exact ih _ (h s hg hs)
    · exact hs

/-- A loop whose measure falls on every iteration and is covered by the bound ends because its condition fails. -/
theorem loopWhile_exit {σ : Type} {guard : σ → Bool} {body : σ → σ} {P : σ → Prop} (m : σ → Nat)
    (hP : ∀ s, guard s = true → P s → P (body s)) (hm : ∀ s, guard s = true → P s → m (body s) < m s)
    (h0 : ∀ s, P s → m s = 0 → guard s = false) (n : Nat) (s : σ) (hs : P s) (hn : m s ≤ n) :
    guard (loopWhile guard body n s) = false := by
  induction n generalizing s with
  | zero => exact h0 s hs (by omega)
  | succ n ih =>
    simp only [loopWhile]
    split
    · next hg =>
      have := hm s hg hs
      exact ih _ (hP s hg hs) (by omega)
    · next hg => simpa using hg

/-! ### `HRAdd` and the answers -/

@[simp] theorem hrAdd_rev (b : Side) (i : Nat) (d : Int) (p : Psg) : (hrAdd b i d p).rev = p.rev := by
  unfold hrAdd; split <;> rfl
@[simp] theorem hrAdd_g (b : Side) (i : Nat) (d : Int) (p : Psg) : (hrAdd b i d p).g = p.g := by
  unfold hrAdd; split <;> rfl
@[simp] theorem hrAdd_ch (b : Side) (i : Nat) (d : Int) (p : Psg) : (hrAdd b i d p).ch = p.ch := by
  unfold hrAdd; split <;> rfl
@[simp] theorem hrAdd_chan (b : Side) (i : Nat) (d : Int) (p : Psg) (c : ChanIdx) :
    (hrAdd b i d p).chan c = p.chan c := by
  unfold Psg.chan; simp

/-- Everything `HRAdd` does on a cell of the buffer (20_memory.md R66). -/
theorem hrAdd_inside {b : Side} {i : Nat} {d : Int} {p : Psg} (h : i < (p.hr.get b).len) :
    hrAdd b i d p = { p with hr := p.hr.set b ((p.hr.get b).add i d) } := by
  simp [hrAdd, h]

/-- Everything `HRAdd` does on a cell outside the buffer (20_memory.md R78). -/
theorem hrAdd_outside {b : Side} {i : Nat} {d : Int} {p : Psg} (h : ¬ i < (p.hr.get b).len) :
    hrAdd b i d p = { p with hrOverrun := true } := by
  simp [hrAdd, h]

/-- `HRAdd` keeps the length of every buffer. -/
@[simp] theorem hrAdd_len (b : Side) (i : Nat) (d : Int) (p : Psg) (b' : Side) :
    ((hrAdd b i d p).hr.get b').len = (p.hr.get b').len := by
  unfold hrAdd
  split
  · simp only [Stereo.get_set]
    split
    · next h => simp [h]
    · rfl
  · rfl

/-- Everything `complete` can answer: the next state when no addition fell outside a buffer. -/
theorem complete_ok {s : State} {p : Psg} {r : HostResult} (h : p.hrOverrun = false) :
    complete s p r = .next { s with psg := p, result := r } := by
  simp [complete, h]

/-- If `complete` answers a next state, it is the given machine, and no addition fell outside a buffer. -/
theorem complete_next {s t : State} {p : Psg} {r : HostResult} (h : complete s p r = .next t) :
    p.hrOverrun = false ∧ t = { s with psg := p, result := r } := by
  unfold complete at h
  split at h
  · cases h
  · next hp => exact ⟨by simpa using hp, by simpa using h.symm⟩

/-- If `answer` answers a next state, it is the given machine. -/
theorem answer_next {s t : State} {p : Psg} {r : HostResult} (h : answer s p r = .next t) :
    t = { s with psg := p, result := r } := by
  simpa [answer] using h.symm

end Sys2Proof.Machine
end

