-- ==== Sys2Proof/Laws/Exec.lean ====
section
/-! SUPPORT. Everything `exec` and `step` can do, said once: the machine an operation leaves, whatever else it answers. -/

namespace Sys2Proof.Machine

/-- `complete` turns an overrun into the fault (20_memory.md R78, log 4). -/
theorem complete_overrun {s : State} {p : Psg} {r : HostResult} (h : p.hrOverrun = true) :
    complete s p r = .fault .hrOutOfRange := by
  simp [complete, h]

/-- The machine each operation leaves when it answers a next state. -/
def effect (p : Psg) : Instr → Psg
  | .wSelect _ v => writeSelect v p
  | .wGbal ts v => writeGbal v (update ts p)
  | .wFreqLo ts v => onSelected (writeFreqLo v) (update ts p)
  | .wFreqHi ts v => onSelected (writeFreqHi v) (update ts p)
  | .wCtrl ts v => onSelected (writeCtrl v) (update ts p)
  | .wBal ts v => onSelected (writeBal v) (update ts p)
  | .wWave ts v => onSelected (writeWave v) (update ts p)
  | .wNoise ts v => onSelected (writeNoise v) (update ts p)
  | .wLfofreq ts v => writeLfofreq v (update ts p)
  | .wLfoctrl ts v => writeLfoctrl v (update ts p)
  | .wRsvdA ts _ => update ts p
  | .wRsvdB ts _ => update ts p
  | .wRsvdC ts _ => update ts p
  | .wRsvdD ts _ => update ts p
  | .wRsvdE ts _ => update ts p
  | .wRsvdF ts _ => update ts p
  | .upd ts => update ts p
  | .pwr ts => power ts p
  | .rts base => resetTs base p
  | .getreg _ => p
  | .setreg id v => (setField id v p).getD p
  | .peek _ _ => p
  | .poke c i v => p.modChan c (fun x => waveWrite x i.toNat (maskTo 5 v))
  | .save => p
  | .load r => loadState r p
  | .constructRev0 hr => construct .rev0 hr
  | .constructRevA hr => construct .revA hr

/-- What an operation returns to the host. -/
def returned (p : Psg) : Instr → HostResult
  | .getreg id => .value (getField p id)
  | .setreg id v => if (setField id v p).isSome then .nothing else .declined
  | .peek c i => .value (waveRead (p.chan c) i.toNat).toNat
  | .save => .record (saveState p)
  | _ => .nothing

/-- An operation that answers a next state leaves the machine of `effect`, keeps the queue, and returns `returned`. -/
theorem exec_effect {i : Instr} {s t : State} (h : exec i s = .next t) :
    t = { s with psg := effect s.psg i, result := returned s.psg i } := by
  cases i <;> first
    | exact (complete_next h).2
    | exact answer_next h
    | (simp only [exec, execSetreg] at h
       split at h <;> rename_i hf <;> simpa [effect, returned, hf] using answer_next h)

/-- An operation that leaves no overrun behind completes. -/
theorem exec_next {i : Instr} {s : State} (h : (effect s.psg i).hrOverrun = false) :
    exec i s = .next { s with psg := effect s.psg i, result := returned s.psg i } := by
  cases i <;> first
    | exact complete_ok h
    | rfl
    | (simp only [exec, execSetreg]
       split <;> rename_i hf <;> simp [effect, returned, hf, answer])

/-- An operation never ends in a refusal, and its only fault is that of an addition outside the buffers. -/
theorem exec_outcome (i : Instr) (s : State) :
    exec i s = .next { s with psg := effect s.psg i, result := returned s.psg i }
      ∨ (effect s.psg i).hrOverrun = true ∧ exec i s = .fault .hrOutOfRange := by
  by_cases h : (effect s.psg i).hrOverrun = false
  · exact .inl (exec_next h)
  · simp only [Bool.not_eq_false] at h
    cases i <;> first
      | exact .inl rfl
      | exact .inr ⟨h, complete_overrun h⟩
      | (refine .inl ?_
         simp only [exec, execSetreg]
         split <;> rename_i hf <;> simp [effect, returned, hf, answer])

/-- A step that answers a next state either had nothing to do, or performed the operation the oldest command decodes
to. -/
theorem step_next {s t : State} (h : step s = .next t) :
    s.queue = [] ∧ t = s
      ∨ ∃ k rest i, s.queue = k :: rest ∧ decode k = .ok i ∧ exec i { s with queue := rest } = .next t := by
  unfold step at h
  split at h
  · next hq => exact .inl ⟨hq, by simpa using h.symm⟩
  · next k rest hq =>
    simp only [performCommand] at h
    split at h
    · next i hi => exact .inr ⟨k, rest, i, hq, hi, h⟩
    · next e _ => cases e <;> cases h

end Sys2Proof.Machine
end

