-- ==== Sys2Proof/Laws/Flow.lean ====
section
/-! SUPPORT. One induction over advancing time, packaged once: a relation between two machines (or, with both equal, a
property of one) that holds before `Update` and is kept by the few things advancing time does to a machine holds
after `Update`. Frames, invariants and noninterference of `Update` are instances. -/

namespace Sys2Proof.Machine

/-- `y` differs from `x` at most in the fields stepping changes (44_channel_run.md R151). -/
def RunEdit (x y : Chan) : Prop :=
  y = { x with lfsr := y.lfsr, noiseCount := y.noiseCount, lastTs := y.lastTs, counter := y.counter,
               waveformIndex := y.waveformIndex, ddaLatch := y.ddaLatch }

/-- `k` differs from `g` at most in the fields of time and of the crossfade machine. -/
def TimeEdit (g k : Global) : Prop :=
  k = { g with lastTs := k.lastTs, xfPending := k.xfPending, xfCountdown := k.xfCountdown, xfPhase := k.xfPhase,
               xfLatch := k.xfLatch }

/-- A relation kept by what `RunChannel` does to the channels of a set `S`: injections, edits of run-time fields, and
the carrier's recompute. Related machines have the same channels in `S`, which is all that the runs of those channels
read. -/
structure RunFlow (S : ChanIdx → Prop) (R : Psg → Psg → Prop) : Prop where
  same : ∀ {p q}, R p q → q.rev = p.rev ∧ q.g = p.g ∧ ∀ c, S c → q.chan c = p.chan c
  emit : ∀ {p q c} ts, S c → R p q → R (emit c ts p) (emit c ts q)
  edit : ∀ {p q c} y, S c → R p q → RunEdit (p.chan c) y → R (p.setChan c y) (q.setChan c y)
  tone : ∀ {p q}, S 0 → R p q → R (recalcTone 0 p) (recalcTone 0 q)

/-- A relation kept by what advancing time does: what `RunChannel` does, commits of an attenuation, and edits of the
time and crossfade fields. -/
structure Flow (R : Psg → Psg → Prop) : Prop extends RunFlow (fun _ => True) R where
  commit : ∀ {p q} c a, R p q →
    R (p.setChan c { p.chan c with attenuation := a }) (q.setChan c { p.chan c with attenuation := a })
  glob : ∀ {p q} g, R p q → TimeEdit p.g g → R { p with g := g } { q with g := g }

/-- Two related machines run a loop alike. -/
theorem rel_loop {R : Psg → Psg → Prop} {guard : Psg → Bool} {body : Psg → Psg} (hg : ∀ {p q}, R p q → guard q = guard p)
    (hb : ∀ {p q}, R p q → R (body p) (body q)) (n : Nat) {p q : Psg} (h : R p q) :
    R (loopWhile guard body n p) (loopWhile guard body n q) := by
  induction n generalizing p q with
  | zero => exact h
  | succ n ih =>
    simp only [loopWhile, hg h]
    split
    · exact ih (hb h)
    · exact h

/-- Two related machines run a pass over the channels alike. -/
theorem rel_forChans {R : Psg → Psg → Prop} {f : ChanIdx → Psg → Psg} (hf : ∀ c {p q}, R p q → R (f c p) (f c q)) {p q : Psg} (h : R p q) :
    R (forChans f p) (forChans f q) := hf 5 (hf 4 (hf 3 (hf 2 (hf 1 (hf 0 h)))))

/-- The end of a crossfade phase edits the fields of time and of the crossfade machine only. -/
theorem nextPhase_timeEdit (g : Global) : TimeEdit g (nextPhase g) := by
  simp only [nextPhase]
  split
  · rfl
  · split <;> rfl

section
variable {S : ChanIdx → Prop} {R : Psg → Psg → Prop} (hR : RunFlow S R)
include hR

theorem RunFlow.modChan {p q : Psg} {c : ChanIdx} (hS : S c) (f : Chan → Chan) (h : R p q) (hf : RunEdit (p.chan c) (f (p.chan c))) :
    R (p.modChan c f) (q.modChan c f) := by
  have := hR.edit (f (p.chan c)) hS h hf
  simpa [Psg.modChan, (hR.same h).2.2 c hS] using this

theorem RunFlow.noiseStep {p q : Psg} {c : ChanIdx} (hS : S c) (target : Int) (h : R p q) :
    R (noiseStep c target p) (noiseStep c target q) := by
  have h1 := hR.modChan hS (fun x => { x with lfsr := clockLfsr x.lfsr }) h rfl
  have e1 := (hR.same h1).2.2 c hS
  simp only [Machine.noiseStep, e1]
  split
  · exact hR.modChan hS _ (hR.emit _ hS h1) rfl
  · exact hR.modChan hS _ h1 rfl

theorem RunFlow.noiseSection {p q : Psg} {c : ChanIdx} (hS : S c) (target elapsed : Int) (h : R p q) :
    R (noiseSection c target elapsed p) (noiseSection c target elapsed q) := by
  simp only [Machine.noiseSection]
  split
  · have h1 := hR.modChan hS (fun x => { x with noiseCount := x.noiseCount - elapsed }) h rfl
    rw [(hR.same h1).2.2 c hS]
    refine rel_loop ?_ (fun h => hR.noiseStep hS target h) _ h1
    intro p q h
    simp [noiseDue, (hR.same h).2.2 c hS]
  · exact h

theorem RunFlow.waveStep {p q : Psg} {after : Int → Psg → Psg} (ha : ∀ sub {p q}, R p q → R (after sub p) (after sub q))
    {c : ChanIdx} (hS : S c) (target : Int) (h : R p q) : R (waveStep after c target p) (waveStep after c target q) := by
  have h1 := hR.modChan hS (advanceBy 1) h rfl
  simp only [Machine.waveStep, (hR.same h1).2.2 c hS]
  exact ha _ (hR.emit _ hS h1)

theorem RunFlow.waveSection {p q : Psg} {after : Int → Psg → Psg} (ha : ∀ sub {p q}, R p q → R (after sub p) (after sub q))
    {c : ChanIdx} (hS : S c) (target elapsed : Int) (live : Bool) (h : R p q) :
    R (waveSection after c target elapsed live p) (waveSection after c target elapsed live q) := by
  have h1 := hR.modChan hS (fun x => { x with counter := x.counter - elapsed }) h rfl
  simp only [Machine.waveSection, (hR.same h1).2.2 c hS]
  split
  · refine hR.modChan hS fastPath h1 ?_
    simp only [fastPath]
    split <;> rfl
  · refine rel_loop ?_ (fun h => hR.waveStep ha hS target h) _ h1
    intro p q h
    simp [stepDue, (hR.same h).2.2 c hS]

theorem RunFlow.stopped {p q : Psg} {c : ChanIdx} (hS : S c) (h : R p q) : stopped c q = stopped c p := by
  simp [Machine.stopped, (hR.same h).2.2 c hS, (hR.same h).2.1]

theorem RunFlow.runWith {p q : Psg} {after : Int → Psg → Psg} (ha : ∀ sub {p q}, R p q → R (after sub p) (after sub q))
    {c : ChanIdx} (hS : S c) (target : Int) (live : Bool) (h : R p q) :
    R (runWith after c target live p) (runWith after c target live q) := by
  simp only [Machine.runWith, (hR.same h).2.2 c hS]
  have h1 := hR.modChan hS (fun x => { x with lastTs := target }) h rfl
  split
  · exact h1
  · have h2 := hR.noiseSection hS target (target - (p.chan c).lastTs) (hR.emit (p.chan c).lastTs hS h1)
    rw [hR.stopped hS h2]
    split
    · exact h2
    · exact hR.waveSection ha hS target _ live h2

theorem RunFlow.runPlain {p q : Psg} {c : ChanIdx} (hS : S c) (target : Int) (live : Bool) (h : R p q) :
    R (runPlain c target live p) (runPlain c target live q) :=
  hR.runWith (fun _ _ _ h => hR.modChan hS (fun x => { x with counter := x.counter + x.freqCache.ticks }) h rfl)
    hS target live h

theorem RunFlow.carrierAfter {p q : Psg} (h0 : S 0) (h1 : S 1) (sub : Int) (h : R p q) : R (carrierAfter sub p) (carrierAfter sub q) :=
  hR.modChan h0 (fun x =>
    { x with counter := x.counter + (if x.freqCache.ticks ≤ cutoff then cutoff else x.freqCache.ticks : Nat) })
    (hR.tone h0 (hR.runPlain h1 sub false h)) rfl

theorem RunFlow.runChannel {p q : Psg} {c : ChanIdx} (hS : S c) (target : Int) (live : Bool)
    (h1 : c = 0 ∧ live = true → S 1) (h : R p q) :
    R (runChannel c target live p) (runChannel c target live q) := by
  simp only [Machine.runChannel]
  split
  · next hc =>
    have h0 : S 0 := by rw [← hc.1]; exact hS
    exact hR.runWith (fun sub _ _ h => hR.carrierAfter h0 (h1 hc) sub h) h0 target true h
  · exact hR.runPlain hS target live h

end

section
variable {R : Psg → Psg → Prop} (hR : Flow R)
include hR

theorem Flow.modGlobal {p q : Psg} (f : Global → Global) (h : R p q) (hf : TimeEdit p.g (f p.g)) :
    R (p.modGlobal f) (q.modGlobal f) := by
  have := hR.glob (f p.g) h hf
  simpa [Psg.modGlobal, (hR.same h).2.1] using this

theorem Flow.xfadeStep {p q : Psg} (h : R p q) : R (xfadeStep p) (xfadeStep q) := by
  have hg := (hR.same h).2.1
  have hc := fun c => (hR.same h).2.2 c trivial
  have hmid : R (if p.g.xfPhase % 2 = 0 then xfadeSample p else xfadeCommit p)
      (if q.g.xfPhase % 2 = 0 then xfadeSample q else xfadeCommit q) := by
    rw [hg]
    split
    · simp only [xfadeSample, hg]
      cases phaseChan p.g.xfPhase with
      | none => exact h
      | some c =>
        have : targetAtt q c (phaseSide p.g.xfPhase) = targetAtt p c (phaseSide p.g.xfPhase) := by
          simp [targetAtt, hg, hc]
        simp only [this]
        exact hR.modGlobal _ h rfl
    · simp only [xfadeCommit, hg]
      cases phaseChan p.g.xfPhase with
      | none => exact h
      | some c =>
        have := hR.commit c ((p.chan c).attenuation.set (phaseSide p.g.xfPhase) p.g.xfLatch) h
        simpa [Psg.modChan, hc c] using this
  exact hR.modGlobal nextPhase hmid (nextPhase_timeEdit _)

theorem Flow.tickXfade {p q : Psg} (k : Nat) (h : R p q) : R (tickXfade k p) (tickXfade k q) := by
  simp only [Machine.tickXfade, (hR.same h).2.1]
  split
  · have h1 := hR.modGlobal (fun g => { g with xfCountdown := g.xfCountdown - k }) h rfl
    simp only [(hR.same h1).2.1]
    split
    · exact hR.xfadeStep h1
    · exact h1
  · exact h

theorem Flow.runChunk {p q : Psg} (live : Bool) (k : Nat) (h : R p q) : R (runChunk live k p) (runChunk live k q) := by
  simp only [Machine.runChunk, (hR.same h).2.1]
  exact hR.modGlobal _ (hR.tickXfade k (rel_forChans (fun c _ _ h => hR.runChannel (c := c) trivial _ live (fun _ => trivial) h) h)) rfl

theorem Flow.chunkLoop {p q : Psg} (live : Bool) (n : Nat) (h : R p q) :
    R (chunkLoop live n p) (chunkLoop live n q) := by
  have key : ∀ (n m : Nat) {p q : Psg}, R p q →
      R (loopWhile (fun x : Nat × Psg => decide (0 < x.1)) (chunkStep live) n (m, p)).2
        (loopWhile (fun x : Nat × Psg => decide (0 < x.1)) (chunkStep live) n (m, q)).2 := by
    intro n
    induction n with
    | zero => intro m p q h; exact h
    | succ n ih =>
      intro m p q h
      simp only [loopWhile]
      split
      · have hk : chunkLen m q = chunkLen m p := by simp [chunkLen, (hR.same h).2.1]
        simp only [chunkStep, hk]
        exact ih _ (hR.runChunk live _ h)
      · exact h
  exact key n n h

theorem Flow.startXfade {p q : Psg} (h : R p q) : R (startXfade p) (startXfade q) := by
  simp only [Machine.startXfade, (hR.same h).2.1]
  split
  · exact hR.modGlobal _ h rfl
  · exact h

theorem Flow.lfoLive {p q : Psg} (h : R p q) : lfoLive q = lfoLive p := by
  simp [Machine.lfoLive, lfoOn, (hR.same h).2.1, (hR.same h).2.2 1 trivial]

theorem Flow.gateLfo {p q : Psg} (h : R p q) : R (gateLfo p) (gateLfo q) := by
  have : lfoOn q = lfoOn p := by simp [lfoOn, (hR.same h).2.1]
  simp only [Machine.gateLfo, hR.lfoLive h, this]
  split
  · exact hR.tone trivial h
  · exact h

/-- A relation kept by what advancing time does is kept by `Update` (45_update_scheduler.md R174). -/
theorem Flow.update {p q : Psg} (ts : Int) (h : R p q) : R (update ts p) (update ts q) := by
  have h1 : R (beginUpdate p) (beginUpdate q) := hR.gateLfo (hR.startXfade h)
  simp only [Machine.update, (hR.same h).2.1, hR.lfoLive h1]
  exact hR.chunkLoop _ _ h1

end

/-- A property of one machine kept by what `RunChannel` does to the channels of a set `S`. -/
structure RunKept (S : ChanIdx → Prop) (P : Psg → Prop) : Prop where
  emit : ∀ {p c} ts, S c → P p → P (emit c ts p)
  edit : ∀ {p c} y, S c → P p → RunEdit (p.chan c) y → P (p.setChan c y)
  tone : ∀ {p}, S 0 → P p → P (recalcTone 0 p)

/-- A property of one machine kept by what advancing time does. -/
structure Kept (P : Psg → Prop) : Prop extends RunKept (fun _ => True) P where
  commit : ∀ {p} c a, P p → P (p.setChan c { p.chan c with attenuation := a })
  glob : ∀ {p} g, P p → TimeEdit p.g g → P { p with g := g }

/-- A kept property is a relation between equal machines. -/
theorem RunKept.flow {P : Psg → Prop} {S : ChanIdx → Prop} (h : RunKept S P) : RunFlow S (fun p q => q = p ∧ P p) where
  same := by rintro p q ⟨rfl, _⟩; exact ⟨rfl, rfl, fun _ _ => rfl⟩
  emit := by rintro p q c ts hc ⟨rfl, hp⟩; exact ⟨rfl, h.emit ts hc hp⟩
  edit := by rintro p q c y hc ⟨rfl, hp⟩ hy; exact ⟨rfl, h.edit y hc hp hy⟩
  tone := by rintro p q h0 ⟨rfl, hp⟩; exact ⟨rfl, h.tone h0 hp⟩

/-- A kept property is a relation between equal machines. -/
theorem Kept.flow {P : Psg → Prop} (h : Kept P) : Flow (fun p q => q = p ∧ P p) where
  toRunFlow := h.toRunKept.flow
  commit := by rintro p q c a ⟨rfl, hp⟩; exact ⟨rfl, h.commit c a hp⟩
  glob := by rintro p q g ⟨rfl, hp⟩ hg; exact ⟨rfl, h.glob g hp hg⟩

/-- A property kept by what advancing time does holds after `Update`. -/
theorem Kept.update {P : Psg → Prop} (h : Kept P) {p : Psg} (ts : Int) (hp : P p) : P (update ts p) :=
  (h.flow.update ts ⟨rfl, hp⟩).2

/-- A property kept by what `RunChannel` does holds after it. -/
theorem RunKept.runChannel {S : ChanIdx → Prop} {P : Psg → Prop} (h : RunKept S P) {p : Psg} {c : ChanIdx} (hS : S c)
    (target : Int) (live : Bool) (h1 : c = 0 ∧ live = true → S 1) (hp : P p) : P (runChannel c target live p) :=
  (h.flow.runChannel hS target live h1 ⟨rfl, hp⟩).2

/-- A property kept by what `RunChannel` does holds after the run of a channel that modulates none. -/
theorem RunKept.runPlain {S : ChanIdx → Prop} {P : Psg → Prop} (h : RunKept S P) {p : Psg} {c : ChanIdx} (hS : S c)
    (target : Int) (live : Bool) (hp : P p) : P (runPlain c target live p) :=
  (h.flow.runPlain hS target live ⟨rfl, hp⟩).2

end Sys2Proof.Machine
end

