-- ==== Sys2Proof/Laws/Freq.lean ====
section
/-! SUPPORT. The recomputes (41_frequency_cache.md, 42_output_function.md): what each of `RecalcFreq`, `RecalcNoise`,
`RecalcOfn` changes and leaves unchanged, and what the stored values depend on. -/

namespace Sys2Proof.Machine

/-! ### What a recompute leaves unchanged -/

@[simp] theorem recalcFreq_rev (c : ChanIdx) (p : Psg) : (recalcFreq c p).rev = p.rev := rfl
@[simp] theorem recalcFreq_g (c : ChanIdx) (p : Psg) : (recalcFreq c p).g = p.g := rfl
@[simp] theorem recalcFreq_hr (c : ChanIdx) (p : Psg) : (recalcFreq c p).hr = p.hr := rfl
@[simp] theorem recalcFreq_hrOverrun (c : ChanIdx) (p : Psg) : (recalcFreq c p).hrOverrun = p.hrOverrun := rfl
@[simp] theorem recalcNoise_rev (c : ChanIdx) (p : Psg) : (recalcNoise c p).rev = p.rev := rfl
@[simp] theorem recalcNoise_g (c : ChanIdx) (p : Psg) : (recalcNoise c p).g = p.g := rfl
@[simp] theorem recalcNoise_hr (c : ChanIdx) (p : Psg) : (recalcNoise c p).hr = p.hr := rfl
@[simp] theorem recalcNoise_hrOverrun (c : ChanIdx) (p : Psg) : (recalcNoise c p).hrOverrun = p.hrOverrun := rfl
@[simp] theorem recalcOfn_rev (c : ChanIdx) (p : Psg) : (recalcOfn c p).rev = p.rev := rfl
@[simp] theorem recalcOfn_g (c : ChanIdx) (p : Psg) : (recalcOfn c p).g = p.g := rfl
@[simp] theorem recalcOfn_hr (c : ChanIdx) (p : Psg) : (recalcOfn c p).hr = p.hr := rfl
@[simp] theorem recalcOfn_hrOverrun (c : ChanIdx) (p : Psg) : (recalcOfn c p).hrOverrun = p.hrOverrun := rfl
@[simp] theorem recalcTone_rev (c : ChanIdx) (p : Psg) : (recalcTone c p).rev = p.rev := rfl
@[simp] theorem recalcTone_g (c : ChanIdx) (p : Psg) : (recalcTone c p).g = p.g := rfl
@[simp] theorem recalcTone_hr (c : ChanIdx) (p : Psg) : (recalcTone c p).hr = p.hr := rfl
@[simp] theorem recalcTone_hrOverrun (c : ChanIdx) (p : Psg) : (recalcTone c p).hrOverrun = p.hrOverrun := rfl

@[simp] theorem requestXfade_rev (p : Psg) : (requestXfade p).rev = p.rev := rfl
@[simp] theorem requestXfade_g (p : Psg) : (requestXfade p).g = { p.g with xfPending := true } := rfl
@[simp] theorem requestXfade_hr (p : Psg) : (requestXfade p).hr = p.hr := rfl
@[simp] theorem requestXfade_hrOverrun (p : Psg) : (requestXfade p).hrOverrun = p.hrOverrun := rfl
@[simp] theorem requestXfade_chan (p : Psg) (c : ChanIdx) : (requestXfade p).chan c = p.chan c := rfl

/-- `RecalcFreq` writes `freq_cache` of its channel and nothing else (41_frequency_cache.md R117). -/
@[simp] theorem recalcFreq_chan (c : ChanIdx) (p : Psg) (d : ChanIdx) :
    (recalcFreq c p).chan d = if d = c then { p.chan c with freqCache := freqPeriod p c } else p.chan d := by
  simp [recalcFreq]

/-- `RecalcNoise` writes `noise_freq_cache` of its channel and nothing else (41_frequency_cache.md R123). -/
@[simp] theorem recalcNoise_chan (c : ChanIdx) (p : Psg) (d : ChanIdx) :
    (recalcNoise c p).chan d
      = if d = c then { p.chan c with noiseFreqCache := noisePeriod (p.chan c).noiseControl } else p.chan d := by
  simp [recalcNoise]

/-- `RecalcOfn` writes `output_function` of its channel and nothing else (42_output_function.md R127). -/
@[simp] theorem recalcOfn_chan (c : ChanIdx) (p : Psg) (d : ChanIdx) :
    (recalcOfn c p).chan d = if d = c then { p.chan c with outputFunction := chanFn p c } else p.chan d := by
  simp [recalcOfn]

/-! ### What the stored values depend on -/

/-- The period depends on the frequencies, the modulator's latch and the two LFO registers (41_frequency_cache.md
R117). -/
theorem freqPeriod_congr {p q : Psg} (hg : q.g.lfoControl = p.g.lfoControl) (hf : q.g.lfoFrequency = p.g.lfoFrequency)
    (c : ChanIdx) (hc : (q.chan c).frequency = (p.chan c).frequency)
    (hl : (q.chan 1).ddaLatch = (p.chan 1).ddaLatch) : freqPeriod q c = freqPeriod p c := by
  have ho : lfoOn q = lfoOn p := by simp [lfoOn, hg]
  simp only [freqPeriod, ho, hg, hf]
  split
  · next h => obtain ⟨rfl, -⟩ := h; rw [hc, hl]
  · split
    · next h => obtain ⟨rfl, -⟩ := h; rw [hc]
    · rw [hc]

/-- Without LFO mode, and on channels 2 to 5, the period depends on the channel's frequency alone
(41_frequency_cache.md R118). -/
theorem freqPeriod_plain {p : Psg} {c : ChanIdx} (h : lfoOn p = false ∨ (c ≠ 0 ∧ c ≠ 1)) :
    freqPeriod p c = basePeriod (p.chan c).frequency.toNat := by
  rcases h with h | ⟨h0, h1⟩
  · simp [freqPeriod, h]
  · simp [freqPeriod, h0, h1]

/-- The output function depends on the revision, the channel's control bits, its stored period, and, for the carrier,
the LFO mode (42_output_function.md R128). -/
theorem chanFn_congr {p q : Psg} (c : ChanIdx) (hr : q.rev = p.rev) (hc : (q.chan c).control = (p.chan c).control)
    (hn : (q.chan c).noiseControl = (p.chan c).noiseControl) (hf : (q.chan c).freqCache = (p.chan c).freqCache)
    (hg : c = 0 → lfoOn q = lfoOn p) : chanFn q c = chanFn p c := by
  simp only [chanFn, lowPeriod, hr, hc, hn, hf]
  by_cases h : c = 0
  · rw [hg h]
  · simp [h]

@[simp] theorem freqPeriod_recalcFreq (c d : ChanIdx) (p : Psg) : freqPeriod (recalcFreq c p) d = freqPeriod p d := by
  apply freqPeriod_congr <;> simp <;> split <;> simp_all

@[simp] theorem freqPeriod_recalcNoise (c d : ChanIdx) (p : Psg) : freqPeriod (recalcNoise c p) d = freqPeriod p d := by
  apply freqPeriod_congr <;> simp <;> split <;> simp_all

@[simp] theorem freqPeriod_recalcOfn (c d : ChanIdx) (p : Psg) : freqPeriod (recalcOfn c p) d = freqPeriod p d := by
  apply freqPeriod_congr <;> simp <;> split <;> simp_all

@[simp] theorem freqPeriod_requestXfade (d : ChanIdx) (p : Psg) : freqPeriod (requestXfade p) d = freqPeriod p d :=
  freqPeriod_congr rfl rfl d rfl rfl

@[simp] theorem freqPeriod_recalcTone (c d : ChanIdx) (p : Psg) : freqPeriod (recalcTone c p) d = freqPeriod p d := by
  simp [recalcTone]

@[simp] theorem chanFn_recalcOfn (c d : ChanIdx) (p : Psg) : chanFn (recalcOfn c p) d = chanFn p d := by
  apply chanFn_congr
  · simp
  · simp; split <;> simp_all
  · simp; split <;> simp_all
  · simp; split <;> simp_all
  · intro; simp [lfoOn]

@[simp] theorem chanFn_requestXfade (d : ChanIdx) (p : Psg) : chanFn (requestXfade p) d = chanFn p d :=
  chanFn_congr d rfl rfl rfl rfl (fun _ => rfl)

/-- Everything the cascade of a register write does (42_output_function.md R137): the period and the output function
of the channel become what they are in the state after it. -/
theorem recalcTone_chan (c : ChanIdx) (p : Psg) (d : ChanIdx) :
    (recalcTone c p).chan d
      = if d = c then
          { p.chan c with freqCache := freqPeriod p c, outputFunction := chanFn (recalcTone c p) c }
        else p.chan d := by
  simp only [recalcTone, recalcOfn_chan, recalcFreq_chan, chanFn_recalcOfn]
  split <;> simp_all

/-- The period and the output function a channel holds after the cascade are fresh. -/
theorem recalcTone_fresh (c : ChanIdx) (p : Psg) :
    ((recalcTone c p).chan c).freqCache = freqPeriod (recalcTone c p) c
      ∧ ((recalcTone c p).chan c).outputFunction = chanFn (recalcTone c p) c := by
  rw [recalcTone_chan]
  simp

/-- The cascade changes nothing of another channel. -/
theorem recalcTone_other {c d : ChanIdx} (h : d ≠ c) (p : Psg) : (recalcTone c p).chan d = p.chan d := by
  rw [recalcTone_chan]; simp [h]

/-- The period of `RecalcFreq` is positive and legal (10_state.md R48). -/
theorem zeroAs_range (n z m : Nat) (hn : n ≤ m) (hz : 1 ≤ z) (hm : z ≤ m) : 1 ≤ zeroAs n z ∧ zeroAs n z ≤ m := by
  unfold zeroAs
  split <;> omega

end Sys2Proof.Machine
end

