-- ==== Sys2Proof/Laws/Inject.lean ====
section
/-! SUPPORT. Everything the injector can do (43_injector.md): what `HRAdd`, the seven taps, `Inject` and `Emit` change
and leave unchanged. -/

namespace Sys2Proof.Machine

/-- A buffer of a stereo pair fits (20_memory.md R78). -/
theorem fits_get {p : Psg} (h : p.buffersFit) (b : Side) : Config.hrMask + 7 ≤ (p.hr.get b).len := by
  cases b
  · exact h.1
  · exact h.2

/-- Both buffers are in canonical form. -/
def hrWf (p : Psg) : Prop := ∀ b, (p.hr.get b).wf = true

theorem hrAdd_wf {p : Psg} (h : hrWf p) (b : Side) (i : Nat) (d : Int) : hrWf (hrAdd b i d p) := by
  intro b'
  unfold hrAdd
  split
  · next hi =>
    simp only [Stereo.get_set]
    split
    · exact Memory.wf_add (h b) hi d
    · exact h b'
  · exact h b'

theorem hrAdd_read {p : Psg} (h : hrWf p) {b : Side} {i : Nat} (hi : i < (p.hr.get b).len) (d : Int) (b' : Side)
    (k : Nat) : ((hrAdd b i d p).hr.get b').read k = (p.hr.get b').read k + (if b' = b ∧ k = i then d else 0) := by
  rw [hrAdd_inside hi]
  simp only [Stereo.get_set]
  by_cases hb : b' = b
  · subst hb
    simp [Memory.read_add (h b') i k d]
  · simp [hb]

/-- The sum of the listed cells after adding into a cell. -/
theorem sum_addCell (i : Nat) (d : Int) (l : List (Nat × Int)) :
    ((addCell i d l).map Prod.snd).sum = (l.map Prod.snd).sum + d := by
  induction l with
  | nil => by_cases hd : d = 0 <;> simp [addCell, hd]
  | cons e rest ih =>
    obtain ⟨j, v⟩ := e
    simp only [addCell]
    split
    · split
      · next hd => simp [hd]
      · simp only [List.map_cons, List.sum_cons]; omega
    · split
      · split
        · next hs => simp only [List.map_cons, List.sum_cons]; omega
        · simp only [List.map_cons, List.sum_cons]; omega
      · simp only [List.map_cons, List.sum_cons, ih]; omega

theorem hrAdd_total {p : Psg} {b : Side} {i : Nat} (hi : i < (p.hr.get b).len) (d : Int) (b' : Side) :
    hrTotal (hrAdd b i d p) b' = hrTotal p b' + (if b' = b then d else 0) := by
  rw [hrAdd_inside hi]
  simp only [hrTotal, Stereo.get_set]
  by_cases hb : b' = b
  · subst hb
    simp [Memory.add, sum_addCell]
  · simp [hb]

/-! ### The taps -/

@[simp] theorem addTaps_rev (b : Side) (delta : Int) (i : Nat) (l : List Int) (p : Psg) :
    (addTaps b delta i l p).rev = p.rev := by
  induction l generalizing i p with
  | nil => rfl
  | cons t l ih => simp [addTaps, ih]

@[simp] theorem addTaps_g (b : Side) (delta : Int) (i : Nat) (l : List Int) (p : Psg) :
    (addTaps b delta i l p).g = p.g := by
  induction l generalizing i p with
  | nil => rfl
  | cons t l ih => simp [addTaps, ih]

@[simp] theorem addTaps_ch (b : Side) (delta : Int) (i : Nat) (l : List Int) (p : Psg) :
    (addTaps b delta i l p).ch = p.ch := by
  induction l generalizing i p with
  | nil => rfl
  | cons t l ih => simp [addTaps, ih]

@[simp] theorem addTaps_chan (b : Side) (delta : Int) (i : Nat) (l : List Int) (p : Psg) (c : ChanIdx) :
    (addTaps b delta i l p).chan c = p.chan c := by
  unfold Psg.chan; simp

@[simp] theorem addTaps_len (b : Side) (delta : Int) (i : Nat) (l : List Int) (p : Psg) (b' : Side) :
    ((addTaps b delta i l p).hr.get b').len = (p.hr.get b').len := by
  induction l generalizing i p with
  | nil => rfl
  | cons t l ih => simp [addTaps, ih]

theorem addTaps_wf {p : Psg} (h : hrWf p) (b : Side) (delta : Int) (i : Nat) (l : List Int) :
    hrWf (addTaps b delta i l p) := by
  induction l generalizing i p with
  | nil => exact h
  | cons t l ih => exact ih (hrAdd_wf h b i (delta * t)) (i + 1)

/-- Taps that fall inside the buffer record no overrun. -/
theorem addTaps_overrun (b : Side) (delta : Int) (i : Nat) (l : List Int) (p : Psg)
    (h : i + l.length ≤ (p.hr.get b).len) : (addTaps b delta i l p).hrOverrun = p.hrOverrun := by
  induction l generalizing i p with
  | nil => rfl
  | cons t l ih =>
    simp only [List.length_cons] at h
    have hi : i < (p.hr.get b).len := by omega
    simp only [addTaps]
    rw [ih (i + 1) _ (by simp only [hrAdd_len]; omega), hrAdd_inside hi]

/-- What every cell reads after the taps: tap `k - i` times the difference is added into cell `k` of the side. -/
theorem addTaps_read {p : Psg} (hw : hrWf p) (b : Side) (delta : Int) (i : Nat) (l : List Int)
    (h : i + l.length ≤ (p.hr.get b).len) (b' : Side) (k : Nat) :
    ((addTaps b delta i l p).hr.get b').read k
      = (p.hr.get b').read k + (if b' = b ∧ i ≤ k then delta * l.getD (k - i) 0 else 0) := by
  induction l generalizing i p with
  | nil => simp [addTaps]
  | cons t l ih =>
    simp only [List.length_cons] at h
    have hi : i < (p.hr.get b).len := by omega
    simp only [addTaps]
    rw [ih (hrAdd_wf hw b i _) (i + 1) (by simp only [hrAdd_len]; omega), hrAdd_read hw hi]
    by_cases hb : b' = b
    · rcases Nat.lt_trichotomy k i with hlt | heq | hgt
      · have h1 : ¬ i + 1 ≤ k := by omega
        have h2 : ¬ i ≤ k := by omega
        have h3 : k ≠ i := by omega
        simp [h1, h2, h3]
      · subst heq
        simp [hb]
      · have h1 : i + 1 ≤ k := by omega
        have h2 : i ≤ k := by omega
        have h3 : k ≠ i := by omega
        obtain ⟨m, hm⟩ : ∃ m, k - i = m + 1 := ⟨k - i - 1, by omega⟩
        have hm' : k - (i + 1) = m := by omega
        simp only [hb, h1, h2, h3, hm, hm', List.getD_cons_succ, true_and, if_true, if_false]
        omega
    · simp [hb]

theorem addTaps_total (b : Side) (delta : Int) (i : Nat) (l : List Int) (p : Psg)
    (h : i + l.length ≤ (p.hr.get b).len) (b' : Side) :
    hrTotal (addTaps b delta i l p) b' = hrTotal p b' + (if b' = b then delta * l.sum else 0) := by
  induction l generalizing i p with
  | nil => simp [addTaps]
  | cons t l ih =>
    simp only [List.length_cons] at h
    have hi : i < (p.hr.get b).len := by omega
    simp only [addTaps]
    rw [ih (i + 1) _ (by simp only [hrAdd_len]; omega), hrAdd_total hi]
    by_cases hb : b' = b
    · simp only [hb, if_true, List.sum_cons, Int.mul_add]; omega
    · simp [hb]

/-! ### The kernel and the base cell -/

@[simp] theorem kernel_length (row : Nat) : (kernel row).length = 7 := by
  unfold kernel; split <;> rfl

/-- Both rows of the kernel have the sum 2048 (43_injector.md R143). -/
@[simp] theorem kernel_sum (row : Nat) : (kernel row).sum = 2048 := by
  unfold kernel; split <;> rfl

/-- The base cell is at most `HR_MASK` (43_injector.md R145). -/
theorem hrBase_le (ts : Int) : hrBase ts ≤ Config.hrMask := by
  unfold hrBase Config.hrMask
  omega

/-- All seven taps fall inside a buffer that fits (43_injector.md R146). -/
theorem taps_fit {p : Psg} (h : p.buffersFit) (b : Side) (ts : Int) :
    hrBase ts + (kernel (kernelRow ts)).length ≤ (p.hr.get b).len := by
  have h1 := fits_get h b
  have h2 := hrBase_le ts
  rw [kernel_length]
  omega

/-! ### One side of an injection -/

@[simp] theorem injectSide_rev (c : ChanIdx) (ts : Int) (b : Side) (lv : Int) (p : Psg) :
    (injectSide c ts b lv p).rev = p.rev := by
  simp only [injectSide]; split <;> simp

@[simp] theorem injectSide_g (c : ChanIdx) (ts : Int) (b : Side) (lv : Int) (p : Psg) :
    (injectSide c ts b lv p).g = p.g := by
  simp only [injectSide]; split <;> simp

@[simp] theorem injectSide_chan (c : ChanIdx) (ts : Int) (b : Side) (lv : Int) (p : Psg) (d : ChanIdx) :
    (injectSide c ts b lv p).chan d
      = if d = c then { p.chan c with prev := (p.chan c).prev.set b lv } else p.chan d := by
  simp only [injectSide]
  split
  · next h =>
    split
    · next hd =>
      subst hd
      have he : (p.chan d).prev.set b lv = (p.chan d).prev := by
        refine Stereo.ext_get (fun b' => ?_)
        simp only [Stereo.get_set]
        split
        · next hb => subst hb; omega
        · rfl
      rw [he]
    · rfl
  · simp

@[simp] theorem injectSide_len (c : ChanIdx) (ts : Int) (b : Side) (lv : Int) (p : Psg) (b' : Side) :
    ((injectSide c ts b lv p).hr.get b').len = (p.hr.get b').len := by
  simp only [injectSide]; split <;> simp

theorem injectSide_wf {p : Psg} (h : hrWf p) (c : ChanIdx) (ts : Int) (b : Side) (lv : Int) :
    hrWf (injectSide c ts b lv p) := by
  simp only [injectSide]
  split
  · exact h
  · exact addTaps_wf h b _ _ _

theorem injectSide_overrun {p : Psg} (h : p.buffersFit) (c : ChanIdx) (ts : Int) (b : Side) (lv : Int) :
    (injectSide c ts b lv p).hrOverrun = p.hrOverrun := by
  simp only [injectSide]
  split
  · rfl
  · simp only [Psg.modChan_hrOverrun]
    exact addTaps_overrun b _ _ _ p (taps_fit h b ts)

/-- What every cell reads after one side of an injection (43_injector.md R142). -/
theorem injectSide_read {p : Psg} (hw : hrWf p) (h : p.buffersFit) (c : ChanIdx) (ts : Int) (b : Side) (lv : Int)
    (b' : Side) (k : Nat) :
    ((injectSide c ts b lv p).hr.get b').read k
      = (p.hr.get b').read k
        + (if b' = b ∧ hrBase ts ≤ k then
            (lv - (p.chan c).prev.get b) * (kernel (kernelRow ts)).getD (k - hrBase ts) 0 else 0) := by
  simp only [injectSide]
  split
  · next h0 => simp [h0]
  · simp only [Psg.modChan_hr]
    exact addTaps_read hw b _ _ _ (taps_fit h b ts) b' k

theorem injectSide_total {p : Psg} (h : p.buffersFit) (c : ChanIdx) (ts : Int) (b : Side) (lv : Int) (b' : Side) :
    hrTotal (injectSide c ts b lv p) b'
      = hrTotal p b' + (if b' = b then (lv - (p.chan c).prev.get b) * 2048 else 0) := by
  simp only [injectSide]
  split
  · next h0 => simp [h0]
  · have := addTaps_total b (lv - (p.chan c).prev.get b) (hrBase ts) (kernel (kernelRow ts)) p (taps_fit h b ts) b'
    rw [kernel_sum] at this
    exact this

/-! ### `Inject` and `Emit` -/

@[simp] theorem inject_rev (c : ChanIdx) (ts : Int) (lv : Stereo Int) (p : Psg) : (inject c ts lv p).rev = p.rev := by
  simp [inject]

@[simp] theorem inject_g (c : ChanIdx) (ts : Int) (lv : Stereo Int) (p : Psg) : (inject c ts lv p).g = p.g := by
  simp [inject]

/-- `Inject` changes `prev` of its channel and no other field of any channel (43_injector.md R147). -/
@[simp] theorem inject_chan (c : ChanIdx) (ts : Int) (lv : Stereo Int) (p : Psg) (d : ChanIdx) :
    (inject c ts lv p).chan d = if d = c then { p.chan c with prev := lv } else p.chan d := by
  simp only [inject, injectSide_chan]
  split <;> simp

@[simp] theorem inject_len (c : ChanIdx) (ts : Int) (lv : Stereo Int) (p : Psg) (b : Side) :
    ((inject c ts lv p).hr.get b).len = (p.hr.get b).len := by
  simp [inject]

theorem fits_of_len {p q : Psg} (h : p.buffersFit) (hl : ∀ b, (q.hr.get b).len = (p.hr.get b).len) : q.buffersFit := by
  have h1 := hl .left
  have h2 := hl .right
  simp only [Stereo.get_left, Stereo.get_right] at h1 h2
  exact ⟨by rw [h1]; exact h.1, by rw [h2]; exact h.2⟩

theorem inject_wf {p : Psg} (h : hrWf p) (c : ChanIdx) (ts : Int) (lv : Stereo Int) : hrWf (inject c ts lv p) :=
  injectSide_wf (injectSide_wf h c ts .left lv.left) c ts .right lv.right

theorem inject_overrun {p : Psg} (h : p.buffersFit) (c : ChanIdx) (ts : Int) (lv : Stereo Int) :
    (inject c ts lv p).hrOverrun = p.hrOverrun := by
  simp only [inject]
  rw [injectSide_overrun (fits_of_len h (by simp)), injectSide_overrun h]

/-- What every cell reads after `Inject` (43_injector.md R142): the difference of the side times tap `k - base` is
added into cell `k`, from the base cell on. -/
theorem inject_read {p : Psg} (hw : hrWf p) (h : p.buffersFit) (c : ChanIdx) (ts : Int) (lv : Stereo Int) (b : Side)
    (k : Nat) :
    ((inject c ts lv p).hr.get b).read k
      = (p.hr.get b).read k
        + (if hrBase ts ≤ k then
            (lv.get b - (p.chan c).prev.get b) * (kernel (kernelRow ts)).getD (k - hrBase ts) 0 else 0) := by
  simp only [inject]
  rw [injectSide_read (injectSide_wf hw _ _ _ _) (fits_of_len h (by simp)), injectSide_read hw h]
  cases b <;> simp

theorem inject_total {p : Psg} (h : p.buffersFit) (c : ChanIdx) (ts : Int) (lv : Stereo Int) (b : Side) :
    hrTotal (inject c ts lv p) b = hrTotal p b + (lv.get b - (p.chan c).prev.get b) * 2048 := by
  simp only [inject]
  rw [injectSide_total (fits_of_len h (by simp)), injectSide_total h]
  cases b <;> simp

/-- An injection of the level the channel already has changes nothing (43_injector.md R142, R148). -/
theorem inject_same (c : ChanIdx) (ts : Int) (p : Psg) : inject c ts (p.chan c).prev p = p := by
  simp [inject, injectSide]

@[simp] theorem emit_rev (c : ChanIdx) (ts : Int) (p : Psg) : (emit c ts p).rev = p.rev := by simp [emit]
@[simp] theorem emit_g (c : ChanIdx) (ts : Int) (p : Psg) : (emit c ts p).g = p.g := by simp [emit]
@[simp] theorem emit_len (c : ChanIdx) (ts : Int) (p : Psg) (b : Side) :
    ((emit c ts p).hr.get b).len = (p.hr.get b).len := by simp [emit]

/-- `Emit` changes `prev` of its channel to the level it presents, and no other field of any channel
(42_output_function.md R136). -/
@[simp] theorem emit_chan (c : ChanIdx) (ts : Int) (p : Psg) (d : ChanIdx) :
    (emit c ts p).chan d = if d = c then { p.chan c with prev := level p c } else p.chan d := by
  simp [emit]

/-! ### An overrun stays -/

/-- Once an addition has fallen outside its buffer, further taps leave that recorded. -/
theorem addTaps_overrun_stays (b : Side) (delta : Int) (i : Nat) (l : List Int) {p : Psg} (h : p.hrOverrun = true) :
    (addTaps b delta i l p).hrOverrun = true := by
  induction l generalizing i p with
  | nil => exact h
  | cons t l ih =>
    apply ih
    unfold hrAdd
    split
    · exact h
    · rfl

/-- An injection leaves a recorded overrun recorded. -/
theorem inject_overrun_stays (c : ChanIdx) (ts : Int) (lv : Stereo Int) {p : Psg} (h : p.hrOverrun = true) :
    (inject c ts lv p).hrOverrun = true := by
  have side : ∀ (b : Side) (v : Int) (p : Psg), p.hrOverrun = true → (injectSide c ts b v p).hrOverrun = true := by
    intro b v p h
    simp only [injectSide]
    split
    · exact h
    · exact addTaps_overrun_stays b _ _ _ h
  exact side .right _ _ (side .left _ _ h)

/-! ### Injections and the fields they do not read -/

/-- The taps do not touch the channels. -/
theorem addTaps_setChan (b : Side) (delta : Int) (i : Nat) (l : List Int) (p : Psg) (c : ChanIdx) (x : Chan) :
    addTaps b delta i l (p.setChan c x) = (addTaps b delta i l p).setChan c x := by
  induction l generalizing i p with
  | nil => rfl
  | cons t l ih =>
    simp only [addTaps]
    rw [← ih]
    congr 1
    by_cases hi : i < (p.hr.get b).len
    · rw [hrAdd_inside hi, hrAdd_inside (by simpa using hi)]; rfl
    · rw [hrAdd_outside hi, hrAdd_outside (by simpa using hi)]; rfl

/-- An injection and a change of its channel's time stamp may change places. -/
theorem inject_stamp (c : ChanIdx) (ts target : Int) (lv : Stereo Int) (p : Psg) :
    inject c ts lv (p.modChan c (fun x => { x with lastTs := target }))
      = (inject c ts lv p).modChan c (fun x => { x with lastTs := target }) := by
  have side : ∀ (b : Side) (v : Int) (p : Psg),
      injectSide c ts b v (p.modChan c (fun x => { x with lastTs := target }))
        = (injectSide c ts b v p).modChan c (fun x => { x with lastTs := target }) := by
    intro b v p
    have e : ((p.modChan c (fun x => { x with lastTs := target })).chan c).prev = (p.chan c).prev := by simp
    simp only [injectSide, e]
    split
    · rfl
    · show Psg.modChan (addTaps _ _ _ _ (p.setChan c _)) c _ = _
      rw [addTaps_setChan]
      refine Psg.ext_chan rfl rfl (fun d => ?_) rfl rfl
      simp only [Psg.chan_modChan, Psg.chan_setChan]
      split <;> simp
  simp only [inject, side]

end Sys2Proof.Machine
end

