-- ==== Sys2Proof/Laws/Run.lean ====
section
/-! SUPPORT. Everything `RunChannel` does to its channel (44_channel_run.md R152): the loops in closed form, and what
the call leaves unchanged. -/

namespace Sys2Proof.Machine

/-! ### Counting loops -/

/-- A loop that runs while a countdown is not positive, and adds a constant positive period to it, runs exactly as often
as the countdown expires. -/
theorem loopWhile_iterate {σ : Type} {guard : σ → Bool} {body : σ → σ} {Q : σ → Prop} {v : σ → Int} {P : Nat} (hP : 0 < P)
    (hQ : ∀ s, Q s → Q (body s)) (hg : ∀ s, Q s → guard s = decide (v s ≤ 0))
    (hv : ∀ s, Q s → v (body s) = v s + P) (fuel : Nat) (s : σ) (hs : Q s) (hf : 1 - v s ≤ fuel) :
    loopWhile guard body fuel s = body^[stepsWithin (v s) 0 P] s := by
  induction fuel generalizing s with
  | zero =>
    have : (0 : Int) < v s := by omega
    simp [loopWhile, stepsWithin, this]
  | succ n ih =>
    simp only [loopWhile, hg s hs]
    by_cases h : v s ≤ 0
    · have hb := hv s hs
      have hPi : (0 : Int) < (P : Int) := by omega
      rw [if_pos (by simpa using h), ih (body s) (hQ s hs) (by omega)]
      have hn : ¬ (0 : Int) < v s := by omega
      have key : stepsWithin (v s) 0 P = stepsWithin (v (body s)) 0 P + 1 := by
        simp only [stepsWithin, hb, if_neg hn]
        by_cases h1 : (0 : Int) < v s + P
        · rw [if_pos h1]
          have : (0 - v s) / (P : Int) = 0 := Int.ediv_eq_zero_of_lt (by omega) (by omega)
          rw [this]; rfl
        · rw [if_neg h1]
          have e : 0 - v s = (0 - (v s + P)) + P := by omega
          have : (0 - v s) / (P : Int) = (0 - (v s + P)) / (P : Int) + 1 := by
            rw [e, Int.add_ediv_of_dvd_right (Int.dvd_refl _), Int.ediv_self (by omega)]
          have h0 : 0 ≤ (0 - (v s + P)) / (P : Int) := Int.ediv_nonneg (by omega) (by omega)
          rw [this]; omega
      rw [key, Function.iterate_succ_apply]
    · have hpos : (0 : Int) < v s := by omega
      rw [if_neg (by simpa using h)]
      simp [stepsWithin, hpos]

/-- The expiries of a countdown do not depend on when the elapsed ticks are taken off. -/
theorem stepsWithin_sub (k e : Int) (P : Nat) : stepsWithin (k - e) 0 P = stepsWithin k e P := by
  simp only [stepsWithin]
  have h : (0 < k - e) ↔ (e < k) := by omega
  have h2 : 0 - (k - e) = e - k := by omega
  simp only [h, h2]

/-- After its expiries a countdown stands between 1 and its period, if it expired at all. -/
theorem stepsWithin_rest (k e : Int) (P : Nat) (hP : 0 < P) :
    1 ≤ k - e + (stepsWithin k e P : Int) * P
      ∧ (stepsWithin k e P ≠ 0 → k - e + (stepsWithin k e P : Int) * P ≤ P) := by
  have hPi : (0 : Int) < (P : Int) := by omega
  simp only [stepsWithin]
  split
  · simp; omega
  · next h =>
    have h0 : 0 ≤ (e - k) / (P : Int) := Int.ediv_nonneg (by omega) (by omega)
    have h1 := Int.mul_ediv_add_emod (e - k) P
    have h2 := Int.emod_nonneg (e - k) (b := (P : Int)) (by omega)
    have h3 := Int.emod_lt_of_pos (e - k) hPi
    have hc : (((e - k) / (P : Int)).toNat : Int) = (e - k) / (P : Int) := Int.toNat_of_nonneg h0
    have h4 : (P : Int) * ((e - k) / (P : Int)) = ((e - k) / (P : Int)) * P := Int.mul_comm _ _
    push_cast
    rw [hc, Int.add_mul]
    omega

/-! ### What a run leaves unchanged -/

theorem RunEdit.modChan {P : Psg → Prop} {S : ChanIdx → Prop} (h : RunKept S P) {p : Psg} {c : ChanIdx} (hS : S c)
    (f : Chan → Chan) (hf : RunEdit (p.chan c) (f (p.chan c))) (hp : P p) : P (p.modChan c f) := h.edit _ hS hp hf

/-- What a run of the channels in `S` never changes: the global record, the revision, the buffers' lengths, the other
channels, and on every channel the registers, the waveform, the accumulator, the noise period and the attenuation; the
tone caches are changed on channel 0 only (44_channel_run.md R151). -/
structure RunFrame (S : ChanIdx → Prop) (p q : Psg) : Prop where
  g : q.g = p.g
  rev : q.rev = p.rev
  len : ∀ b, (q.hr.get b).len = (p.hr.get b).len
  other : ∀ d, ¬ S d → q.chan d = p.chan d
  frequency : ∀ d, (q.chan d).frequency = (p.chan d).frequency
  control : ∀ d, (q.chan d).control = (p.chan d).control
  balance : ∀ d, (q.chan d).balance = (p.chan d).balance
  noiseControl : ∀ d, (q.chan d).noiseControl = (p.chan d).noiseControl
  waveform : ∀ d, (q.chan d).waveform = (p.chan d).waveform
  accumulator : ∀ d, (q.chan d).sampleAccumulator = (p.chan d).sampleAccumulator
  noiseFreqCache : ∀ d, (q.chan d).noiseFreqCache = (p.chan d).noiseFreqCache
  attenuation : ∀ d, (q.chan d).attenuation = (p.chan d).attenuation
  freqCache : ∀ d, d ≠ 0 → (q.chan d).freqCache = (p.chan d).freqCache
  outputFunction : ∀ d, d ≠ 0 → (q.chan d).outputFunction = (p.chan d).outputFunction

theorem RunFrame.refl (S : ChanIdx → Prop) (p : Psg) : RunFrame S p p := by
  constructor <;> intros <;> rfl

/-- The frame of a run is kept by everything a run does. -/
theorem runFrame_kept (S : ChanIdx → Prop) (p : Psg) : RunKept S (RunFrame S p) where
  emit := by
    intro q c ts hS h
    constructor
    · simpa using h.g
    · simpa using h.rev
    · simpa using h.len
    · intro d hd
      have : d ≠ c := fun e => hd (e ▸ hS)
      simpa [this] using h.other d hd
    all_goals intro d
    · simp only [emit_chan]; split <;> simp_all [h.frequency]
    · simp only [emit_chan]; split <;> simp_all [h.control]
    · simp only [emit_chan]; split <;> simp_all [h.balance]
    · simp only [emit_chan]; split <;> simp_all [h.noiseControl]
    · simp only [emit_chan]; split <;> simp_all [h.waveform]
    · simp only [emit_chan]; split <;> simp_all [h.accumulator]
    · simp only [emit_chan]; split <;> simp_all [h.noiseFreqCache]
    · simp only [emit_chan]; split <;> simp_all [h.attenuation]
    · intro hd; have := h.freqCache d hd; simp only [emit_chan]; split <;> simp_all
    · intro hd; have := h.outputFunction d hd; simp only [emit_chan]; split <;> simp_all
  edit := by
    intro q c y hS h hy
    rw [RunEdit] at hy
    constructor
    · simpa using h.g
    · simpa using h.rev
    · simpa using h.len
    · intro d hd
      have : d ≠ c := fun e => hd (e ▸ hS)
      simpa [this] using h.other d hd
    all_goals intro d
    · simp only [Psg.chan_setChan]; split
      · next e => rw [e, hy, ← h.frequency]
      · exact h.frequency d
    · simp only [Psg.chan_setChan]; split
      · next e => rw [e, hy, ← h.control]
      · exact h.control d
    · simp only [Psg.chan_setChan]; split
      · next e => rw [e, hy, ← h.balance]
      · exact h.balance d
    · simp only [Psg.chan_setChan]; split
      · next e => rw [e, hy, ← h.noiseControl]
      · exact h.noiseControl d
    · simp only [Psg.chan_setChan]; split
      · next e => rw [e, hy, ← h.waveform]
      · exact h.waveform d
    · simp only [Psg.chan_setChan]; split
      · next e => rw [e, hy, ← h.accumulator]
      · exact h.accumulator d
    · simp only [Psg.chan_setChan]; split
      · next e => rw [e, hy, ← h.noiseFreqCache]
      · exact h.noiseFreqCache d
    · simp only [Psg.chan_setChan]; split
      · next e => rw [e, hy, ← h.attenuation]
      · exact h.attenuation d
    · intro hd; simp only [Psg.chan_setChan]; split
      · next e => rw [hy, ← e]; exact h.freqCache d hd
      · exact h.freqCache d hd
    · intro hd; simp only [Psg.chan_setChan]; split
      · next e => rw [hy, ← e]; exact h.outputFunction d hd
      · exact h.outputFunction d hd
  tone := by
    intro q h0 h
    constructor
    · simpa using h.g
    · simpa using h.rev
    · simpa using h.len
    · intro d hd
      have : d ≠ 0 := fun e => hd (e ▸ h0)
      simpa [recalcTone_chan, this] using h.other d hd
    all_goals intro d
    · simp only [recalcTone_chan]; split <;> simp_all [h.frequency]
    · simp only [recalcTone_chan]; split <;> simp_all [h.control]
    · simp only [recalcTone_chan]; split <;> simp_all [h.balance]
    · simp only [recalcTone_chan]; split <;> simp_all [h.noiseControl]
    · simp only [recalcTone_chan]; split <;> simp_all [h.waveform]
    · simp only [recalcTone_chan]; split <;> simp_all [h.accumulator]
    · simp only [recalcTone_chan]; split <;> simp_all [h.noiseFreqCache]
    · simp only [recalcTone_chan]; split <;> simp_all [h.attenuation]
    · intro hd; simpa [recalcTone_chan, hd] using h.freqCache d hd
    · intro hd; simpa [recalcTone_chan, hd] using h.outputFunction d hd

/-- The channels a call of `RunChannel` may change: its own, and the modulator for the carrier under live modulation
(44_channel_run.md R151, R168). -/
def runs (c : ChanIdx) (live : Bool) (d : ChanIdx) : Prop := d = c ∨ (c = 0 ∧ live = true ∧ d = 1)

/-- What `RunChannel` leaves unchanged (44_channel_run.md R151). -/
theorem runChannel_frame (c : ChanIdx) (target : Int) (live : Bool) (p : Psg) :
    RunFrame (runs c live) p (runChannel c target live p) :=
  (runFrame_kept (runs c live) p).runChannel (.inl rfl) target live (fun h => .inr ⟨h.1, h.2, rfl⟩) (.refl _ p)

/-- What the run of a channel that modulates none leaves unchanged. -/
theorem runPlain_frame (c : ChanIdx) (target : Int) (live : Bool) (p : Psg) :
    RunFrame (fun d => d = c) p (runPlain c target live p) :=
  (runFrame_kept (fun d => d = c) p).runPlain (c := c) rfl target live (.refl _ p)

@[simp] theorem runChannel_g (c : ChanIdx) (target : Int) (live : Bool) (p : Psg) :
    (runChannel c target live p).g = p.g := (runChannel_frame c target live p).g

@[simp] theorem runChannel_rev (c : ChanIdx) (target : Int) (live : Bool) (p : Psg) :
    (runChannel c target live p).rev = p.rev := (runChannel_frame c target live p).rev

@[simp] theorem runChannel_len (c : ChanIdx) (target : Int) (live : Bool) (p : Psg) (b : Side) :
    ((runChannel c target live p).hr.get b).len = (p.hr.get b).len := (runChannel_frame c target live p).len b

@[simp] theorem runPlain_g (c : ChanIdx) (target : Int) (live : Bool) (p : Psg) :
    (runPlain c target live p).g = p.g := (runPlain_frame c target live p).g

theorem runPlain_other {c d : ChanIdx} (h : d ≠ c) (target : Int) (live : Bool) (p : Psg) :
    (runPlain c target live p).chan d = p.chan d := (runPlain_frame c target live p).other d h

/-! ### The noise section -/

/-- The channel after the noise section, apart from the level it last injected: the shift register is clocked once per
expiry (44_channel_run.md R158, R159). -/
def afterNoise (c : ChanIdx) (elapsed : Int) (x : Chan) : Chan :=
  if 4 ≤ c.val then
    { x with
      lfsr := clockLfsr^[stepsWithin x.noiseCount elapsed x.noiseFreqCache.ticks] x.lfsr
      noiseCount := x.noiseCount - elapsed
        + (stepsWithin x.noiseCount elapsed x.noiseFreqCache.ticks : Int) * x.noiseFreqCache.ticks }
  else x

/-- One iteration of the noise loop on its channel. -/
theorem noiseStep_chan (c : ChanIdx) (target : Int) (p : Psg) :
    ∃ pv, (noiseStep c target p).chan c
      = { p.chan c with
          lfsr := clockLfsr (p.chan c).lfsr, noiseCount := (p.chan c).noiseCount + (p.chan c).noiseFreqCache.ticks,
          prev := pv } := by
  simp only [noiseStep]
  split
  · exact ⟨_, by simp only [Psg.chan_modChan, emit_chan, if_true]; rfl⟩
  · exact ⟨(p.chan c).prev, by simp⟩

/-- The iterated noise loop on its channel. -/
theorem noiseStep_iterate (c : ChanIdx) (target : Int) (n : Nat) (p : Psg) :
    ∃ pv, ((noiseStep c target)^[n] p).chan c
      = { p.chan c with
          lfsr := clockLfsr^[n] (p.chan c).lfsr,
          noiseCount := (p.chan c).noiseCount + (n : Int) * (p.chan c).noiseFreqCache.ticks, prev := pv } := by
  induction n generalizing p with
  | zero => exact ⟨(p.chan c).prev, by simp⟩
  | succ n ih =>
    obtain ⟨pv, h⟩ := ih (noiseStep c target p)
    obtain ⟨pv', h'⟩ := noiseStep_chan c target p
    refine ⟨pv, ?_⟩
    rw [Function.iterate_succ_apply, h, h']
    simp only [Function.iterate_succ_apply, Chan.mk.injEq, true_and, and_true]
    push_cast
    rw [Int.add_mul]; omega

/-- The noise loop ends, after as many iterations as the countdown expires. -/
theorem noiseSection_eq {c : ChanIdx} (hc : 4 ≤ c.val) (target elapsed : Int) (p : Psg) :
    noiseSection c target elapsed p
      = (noiseStep c target)^[stepsWithin (p.chan c).noiseCount elapsed (p.chan c).noiseFreqCache.ticks]
          (p.modChan c (fun x => { x with noiseCount := x.noiseCount - elapsed })) := by
  simp only [noiseSection, hc, if_true]
  have := loopWhile_iterate (guard := noiseDue c) (body := noiseStep c target)
    (Q := fun q => (q.chan c).noiseFreqCache = (p.chan c).noiseFreqCache) (v := fun q => (q.chan c).noiseCount)
    (P := (p.chan c).noiseFreqCache.ticks) (p.chan c).noiseFreqCache.pos
    (by
      intro q hq
      obtain ⟨pv, h⟩ := noiseStep_chan c target q
      rw [h]; exact hq)
    (by intro q _; rfl)
    (by
      intro q hq
      obtain ⟨pv, h⟩ := noiseStep_chan c target q
      simp only [h, hq])
    _ (p.modChan c (fun x => { x with noiseCount := x.noiseCount - elapsed })) (by simp) (Int.self_le_toNat _)
  rw [this]
  simp [stepsWithin_sub]

/-- Everything the noise section does to its channel (44_channel_run.md R158, R159). -/
theorem noiseSection_chan (c : ChanIdx) (target elapsed : Int) (p : Psg) :
    ∃ pv, (noiseSection c target elapsed p).chan c = { afterNoise c elapsed (p.chan c) with prev := pv } := by
  by_cases hc : 4 ≤ c.val
  · rw [noiseSection_eq hc]
    obtain ⟨pv, h⟩ := noiseStep_iterate c target
      (stepsWithin (p.chan c).noiseCount elapsed (p.chan c).noiseFreqCache.ticks)
      (p.modChan c (fun x => { x with noiseCount := x.noiseCount - elapsed }))
    refine ⟨pv, ?_⟩
    rw [h]
    simp [afterNoise, hc]
  · exact ⟨(p.chan c).prev, by simp [noiseSection, afterNoise, hc]⟩

/-! ### The waveform section of a channel that modulates none -/

/-- The channel after the waveform section, apart from the level it last injected (44_channel_run.md R163 to R167,
R169). -/
def afterWave (elapsed : Int) (x : Chan) : Chan :=
  let n := stepsWithin x.counter elapsed x.freqCache.ticks
  { (if n = 0 then x else advanceBy n x) with counter := x.counter - elapsed + (n : Int) * x.freqCache.ticks }

/-- Two advances are one. -/
theorem advanceBy_add (m n : Nat) (x : Chan) : advanceBy n (advanceBy m x) = advanceBy (m + n) x := by
  simp only [advanceBy, BitVec.ofNat_add, BitVec.add_assoc]
  rfl

/-- One waveform step of a channel that modulates none, on its channel (44_channel_run.md R165, R167). -/
theorem plainStep_chan (c : ChanIdx) (target : Int) (p : Psg) :
    ∃ pv, (waveStep (fun _ => plainReload c) c target p).chan c
      = { advanceBy 1 (p.chan c) with
          counter := (p.chan c).counter + (p.chan c).freqCache.ticks, prev := pv } :=
  ⟨_, by simp only [waveStep, plainReload, Psg.chan_modChan, emit_chan, if_true]; rfl⟩

/-- The iterated per-step loop on its channel. -/
theorem plainStep_iterate (c : ChanIdx) (target : Int) (n : Nat) (p : Psg) :
    ∃ pv, ((waveStep (fun _ => plainReload c) c target)^[n + 1] p).chan c
      = { advanceBy (n + 1) (p.chan c) with
          counter := (p.chan c).counter + ((n : Int) + 1) * (p.chan c).freqCache.ticks, prev := pv } := by
  induction n generalizing p with
  | zero =>
    obtain ⟨pv, h⟩ := plainStep_chan c target p
    exact ⟨pv, by simpa using h⟩
  | succ n ih =>
    obtain ⟨pv, h⟩ := ih (waveStep (fun _ => plainReload c) c target p)
    obtain ⟨pv', h'⟩ := plainStep_chan c target p
    refine ⟨pv, ?_⟩
    rw [Function.iterate_succ_apply, h, h']
    have e := advanceBy_add 1 (n + 1) (p.chan c)
    rw [show 1 + (n + 1) = n + 1 + 1 by omega] at e
    rw [← e]
    simp only [advanceBy, Chan.mk.injEq, true_and, and_true]
    refine ⟨rfl, ?_⟩
    push_cast
    rw [Int.add_mul, Int.add_mul, Int.add_mul]; omega

/-- Everything the waveform section of a channel that modulates none does to its channel (44_channel_run.md R161 to
R167): the fast path and the per-step loop make the same steps (R163). -/
theorem plainSection_chan (c : ChanIdx) (target elapsed : Int) (live : Bool) (p : Psg) :
    ∃ pv, (waveSection (fun _ => plainReload c) c target elapsed live p).chan c
      = { afterWave elapsed (p.chan c) with prev := pv } := by
  simp only [waveSection]
  split
  · refine ⟨(p.chan c).prev, ?_⟩
    simp only [Psg.chan_modChan, if_true, fastPath, afterWave]
    by_cases h : (p.chan c).counter - elapsed ≤ 0
    · have hn : ¬ elapsed < (p.chan c).counter := by omega
      have he : -((p.chan c).counter - elapsed) = elapsed - (p.chan c).counter := by omega
      simp only [h, if_true, fastCount, stepsWithin, if_neg hn, he, Nat.add_eq_zero_iff, Nat.one_ne_zero, and_false,
        if_false]
      rfl
    · have hn : elapsed < (p.chan c).counter := by omega
      simp [h, stepsWithin, hn]
  · have := loopWhile_iterate (guard := stepDue c) (body := waveStep (fun _ => plainReload c) c target)
      (Q := fun q => (q.chan c).freqCache = (p.chan c).freqCache) (v := fun q => (q.chan c).counter)
      (P := (p.chan c).freqCache.ticks) (p.chan c).freqCache.pos
      (by
        intro q hq
        obtain ⟨pv, h⟩ := plainStep_chan c target q
        rw [h]; exact hq)
      (by intro q _; rfl)
      (by
        intro q hq
        obtain ⟨pv, h⟩ := plainStep_chan c target q
        simp only [h, hq])
      _ (p.modChan c (fun x => { x with counter := x.counter - elapsed })) (by simp) (Int.self_le_toNat _)
    rw [this]
    simp only [Psg.chan_modChan, if_true, stepsWithin_sub, afterWave]
    generalize hn : stepsWithin (p.chan c).counter elapsed (p.chan c).freqCache.ticks = n
    cases n with
    | zero => exact ⟨(p.chan c).prev, by simp⟩
    | succ n =>
      obtain ⟨pv, h⟩ := plainStep_iterate c target n (p.modChan c (fun x => { x with counter := x.counter - elapsed }))
      refine ⟨pv, ?_⟩
      rw [h]
      simp only [Psg.chan_modChan, if_true, Nat.add_eq_zero_iff, Nat.one_ne_zero, and_false, if_false]
      rfl

/-! ### The whole run of a channel that modulates none -/

/-- The stop conditions depend on the control byte of the channel and the LFO control byte. -/
theorem stopped_congr {p q : Psg} (c : ChanIdx) (hg : q.g = p.g) (hc : (q.chan c).control = (p.chan c).control) :
    stopped c q = stopped c p := by
  simp [stopped, hg, hc]

/-- Everything a run does before the stop conditions, on its channel: the time stamp, the flush injection, the noise
section (44_channel_run.md R154, R155, R158). -/
theorem runStart_chan (c : ChanIdx) (target start elapsed : Int) (p : Psg) :
    ∃ pv, (noiseSection c target elapsed (emit c start (p.modChan c (fun x => { x with lastTs := target })))).chan c
      = { afterNoise c elapsed (p.chan c) with lastTs := target, prev := pv } := by
  obtain ⟨pv, h⟩ := noiseSection_chan c target elapsed (emit c start (p.modChan c (fun x => { x with lastTs := target })))
  refine ⟨pv, ?_⟩
  rw [h]
  simp only [emit_chan, Psg.chan_modChan, if_true, afterNoise]
  split <;> rfl

/-- Everything a run of a channel that modulates none does to its channel, over an interval that is not empty
(44_channel_run.md R152, R169). -/
theorem runPlain_chan (c : ChanIdx) (target : Int) (live : Bool) (p : Psg) (h : target ≠ (p.chan c).lastTs) :
    ∃ pv, (runPlain c target live p).chan c
      = { (if stopped c p then afterNoise c (target - (p.chan c).lastTs) (p.chan c)
           else afterWave (target - (p.chan c).lastTs) (afterNoise c (target - (p.chan c).lastTs) (p.chan c))) with
          lastTs := target, prev := pv } := by
  have he : ¬ target - (p.chan c).lastTs = 0 := by omega
  simp only [runPlain, runWith, if_neg he]
  obtain ⟨pv, hs⟩ := runStart_chan c target (p.chan c).lastTs (target - (p.chan c).lastTs) p
  have hst : stopped c (noiseSection c target (target - (p.chan c).lastTs)
      (emit c (p.chan c).lastTs (p.modChan c (fun x => { x with lastTs := target })))) = stopped c p := by
    have hR := (runFrame_kept (fun d => d = c) p).flow
    have h1 := hR.noiseSection (p := emit c (p.chan c).lastTs (p.modChan c (fun x => { x with lastTs := target })))
      (c := c) rfl target (target - (p.chan c).lastTs)
      ⟨rfl, (runFrame_kept (fun d => d = c) p).emit _ rfl
        ((runFrame_kept (fun d => d = c) p).edit _ rfl (.refl _ p) (by rfl))⟩
    exact stopped_congr c h1.2.g (h1.2.control c)
  rw [hst]
  split
  · exact ⟨pv, hs⟩
  · obtain ⟨pv', hw⟩ := plainSection_chan c target (target - (p.chan c).lastTs) live
      (noiseSection c target (target - (p.chan c).lastTs)
        (emit c (p.chan c).lastTs (p.modChan c (fun x => { x with lastTs := target }))))
    refine ⟨pv', ?_⟩
    rw [hw, hs]
    simp only [afterWave]
    split <;> rfl

/-- A run over an empty interval changes nothing (44_channel_run.md R154). -/
theorem runChannel_empty (c : ChanIdx) (live : Bool) (p : Psg) : runChannel c (p.chan c).lastTs live p = p := by
  have key : ∀ after, runWith after c (p.chan c).lastTs live p = p := by
    intro after
    simp only [runWith, Int.sub_self, if_true]
    exact Psg.modChan_self p c _ rfl
  simp only [runChannel]
  split
  · next h => obtain ⟨rfl, rfl⟩ := h; exact key carrierAfter
  · exact key _

/-! ### The run in the words of Safety.lean -/

/-- The start of a run (44_channel_run.md R154, R155). -/
theorem runStart_eq (c : ChanIdx) (target : Int) (p : Psg) :
    runStart c target p = emit c (p.chan c).lastTs (p.modChan c (fun x => { x with lastTs := target })) := by
  have hl : level (p.modChan c (fun x => { x with lastTs := target })) c = level p c := by simp [level, levelOn]
  rw [runStart, emit, hl, inject_stamp]

/-- A noise clock is one iteration of the noise loop (44_channel_run.md R158). -/
theorem noiseClock_eq (c : ChanIdx) (target : Int) : noiseClock c target = noiseStep c target := rfl

/-- A step outside live modulation is one iteration of the per-step loop (44_channel_run.md R165, R167). -/
theorem plainTick_eq (c : ChanIdx) (target : Int) : plainTick c target = waveStep (fun _ => plainReload c) c target := rfl

/-- A carrier step is one iteration of the carrier's loop (44_channel_run.md R166). -/
theorem carrierTick_eq (target : Int) : carrierTick target = waveStep carrierAfter 0 target := by
  funext p
  have hmax : ∀ n : Nat, (if n ≤ cutoff then cutoff else n) = max 10 n := by
    intro n
    unfold cutoff
    split <;> omega
  have hsub : ((p.modChan 0 (advanceBy 1)).chan 0).counter = (p.chan 0).counter := by simp [advanceBy]
  have htick : tickEmit 0 target p = emit 0 (target + (p.chan 0).counter) (p.modChan 0 (advanceBy 1)) := by
    rw [← hsub]; rfl
  have hrun : ∀ sub q, runChannel 1 sub false q = runPlain 1 sub false q := fun _ _ => if_neg (by decide)
  simp only [carrierTick, waveStep, carrierAfter, carrierReload, recalcTone, hmax, hsub, htick, hrun]

/-- What a run does before the stop conditions (44_channel_run.md R155, R158). -/
theorem runHead_eq (c : ChanIdx) (target : Int) (p : Psg) :
    runHead c target p
      = noiseSection c target (target - (p.chan c).lastTs)
          (emit c (p.chan c).lastTs (p.modChan c (fun x => { x with lastTs := target }))) := by
  rw [← runStart_eq]
  by_cases h : 4 ≤ c.val
  · have hn : ((runStart c target p).chan c).noiseCount = (p.chan c).noiseCount
        ∧ ((runStart c target p).chan c).noiseFreqCache = (p.chan c).noiseFreqCache := by
      simp [runStart_eq]
    simp only [runHead, h, if_true, noiseSection_eq h, hn.1, hn.2, noiseClock_eq]
  · simp [runHead, noiseSection, h]

/-- The stop conditions are the same before a run and after its head. -/
theorem stopped_runHead (c : ChanIdx) (target : Int) (p : Psg) : stopped c (runHead c target p) = stopped c p := by
  have hR := runFrame_kept (fun d => d = c) p
  have h := hR.flow.noiseSection (c := c) rfl target (target - (p.chan c).lastTs)
    ⟨rfl, hR.emit (p.chan c).lastTs rfl (hR.edit { p.chan c with lastTs := target } rfl (.refl _ p) rfl)⟩
  rw [runHead_eq]
  exact stopped_congr c h.2.g (h.2.control c)

/-- A run over an interval that is not empty: its head, and, unless the channel is stopped, the waveform section
(44_channel_run.md R152). -/
theorem runWith_eq (after : Int → Psg → Psg) {c : ChanIdx} {target : Int} (live : Bool) {p : Psg}
    (h : target ≠ (p.chan c).lastTs) :
    runWith after c target live p
      = if stopped c p then runHead c target p
        else waveSection after c target (target - (p.chan c).lastTs) live (runHead c target p) := by
  have he : ¬ target - (p.chan c).lastTs = 0 := by omega
  simp only [runWith, if_neg he, ← runHead_eq, stopped_runHead]

/-! ### What a run reads -/

/-- Two machines with the same revision, global record and channel `c`. -/
def sameOwn (c : ChanIdx) (p q : Psg) : Prop := q.rev = p.rev ∧ q.g = p.g ∧ q.chan c = p.chan c

/-- A channel that is no carrier reads no other channel and no buffer while it runs. -/
theorem sameOwn_flow {c : ChanIdx} (hc : c ≠ 0) : RunFlow (· = c) (sameOwn c) where
  same := by rintro p q ⟨hr, hg, hx⟩; exact ⟨hr, hg, by rintro _ rfl; exact hx⟩
  emit := by
    intro p q d ts hd h
    subst hd
    obtain ⟨hr, hg, hx⟩ := h
    have hl : level q d = level p d := by simp only [level, hr, hx]
    exact ⟨by simpa using hr, by simpa using hg, by simp only [emit_chan, if_true, hl, hx]⟩
  edit := by
    rintro p q d y rfl ⟨hr, hg, _⟩ _
    exact ⟨hr, hg, by simp⟩
  tone := fun h0 => absurd h0.symm hc

/-- The run of a channel that is no carrier depends, on that channel, on nothing else. -/
theorem runPlain_own {c : ChanIdx} (hc : c ≠ 0) (target : Int) (live : Bool) {p q : Psg} (h : sameOwn c p q) :
    (runPlain c target live q).chan c = (runPlain c target live p).chan c :=
  ((sameOwn_flow hc).runPlain rfl target live h).2.2

end Sys2Proof.Machine
end

