-- ==== Sys2Proof/Laws/Update.lean ====
section
/-! SUPPORT. Everything `Update` does (45_update_scheduler.md R174): time stamps, the chunk loop, the crossfade machine,
and that an operation which advances time completes when the buffers fit. -/

namespace Sys2Proof.Machine

/-! ### Countdowns and time stamps over one run -/

@[simp] theorem clockLfsr_ne (l : BitVec 18) : clockLfsr l ≠ 0 := by
  unfold clockLfsr nonzeroLfsr
  split
  · decide
  · assumption

theorem clockLfsr_iterate_ne (n : Nat) (l : BitVec 18) (h : l ≠ 0) : clockLfsr^[n] l ≠ 0 := by
  cases n with
  | zero => exact h
  | succ n => rw [Function.iterate_succ_apply']; exact clockLfsr_ne _

/-- The countdowns of a channel are positive and its shift register is not zero (10_state.md R47, R50, R51). -/
def Chan.Live (x : Chan) : Prop := 1 ≤ x.counter ∧ 1 ≤ x.noiseCount ∧ x.lfsr ≠ 0

theorem afterNoise_live {c : ChanIdx} {e : Int} {x : Chan} (h : 1 ≤ x.noiseCount ∧ x.lfsr ≠ 0) :
    1 ≤ (afterNoise c e x).noiseCount ∧ (afterNoise c e x).lfsr ≠ 0 := by
  simp only [afterNoise]
  split
  · exact ⟨(stepsWithin_rest _ _ _ x.noiseFreqCache.pos).1, clockLfsr_iterate_ne _ _ h.2⟩
  · exact h

@[simp] theorem afterNoise_counter (c : ChanIdx) (e : Int) (x : Chan) : (afterNoise c e x).counter = x.counter := by
  simp only [afterNoise]; split <;> rfl

@[simp] theorem afterNoise_freqCache (c : ChanIdx) (e : Int) (x : Chan) :
    (afterNoise c e x).freqCache = x.freqCache := by
  simp only [afterNoise]; split <;> rfl

@[simp] theorem afterWave_counter (e : Int) (x : Chan) :
    (afterWave e x).counter = x.counter - e + (stepsWithin x.counter e x.freqCache.ticks : Int) * x.freqCache.ticks := rfl

@[simp] theorem afterWave_noiseCount (e : Int) (x : Chan) : (afterWave e x).noiseCount = x.noiseCount := by
  simp only [afterWave]; split <;> rfl

@[simp] theorem afterWave_lfsr (e : Int) (x : Chan) : (afterWave e x).lfsr = x.lfsr := by
  simp only [afterWave]; split <;> rfl

/-- A run of a channel that modulates none sets its time stamp. -/
theorem runPlain_lastTs (c : ChanIdx) (target : Int) (live : Bool) (p : Psg) :
    ((runPlain c target live p).chan c).lastTs = target := by
  by_cases h : target = (p.chan c).lastTs
  · simp [runPlain, runWith, h]
  · obtain ⟨pv, hr⟩ := runPlain_chan c target live p h
    rw [hr]

/-- A run of a channel that modulates none keeps the countdowns positive and the shift register not zero. -/
theorem runPlain_live (c : ChanIdx) (target : Int) (live : Bool) (p : Psg) (h : (p.chan c).Live) :
    ((runPlain c target live p).chan c).Live := by
  by_cases he : target = (p.chan c).lastTs
  · have : runPlain c target live p = p := by
      simp only [runPlain, runWith, he, Int.sub_self, if_true]
      exact Psg.modChan_self p c _ rfl
    rw [this]; exact h
  · obtain ⟨pv, hr⟩ := runPlain_chan c target live p he
    obtain ⟨h1, h2, h3⟩ := h
    have hn := afterNoise_live (c := c) (e := target - (p.chan c).lastTs) ⟨h2, h3⟩
    rw [hr]
    split
    · exact ⟨by simpa using h1, hn⟩
    · refine ⟨?_, by simpa using hn⟩
      exact (stepsWithin_rest _ _ _ (p.chan c).freqCache.pos |> fun h => by simpa using h.1)

/-- What holds throughout the carrier's loop of one channel-0 run: the carrier keeps its time stamp and its noise
fields, the modulator stays live. -/
theorem carrierStep_facts (target : Int) (p : Psg) (h : (p.chan 1).Live) :
    ((waveStep carrierAfter 0 target p).chan 1).Live
      ∧ ((waveStep carrierAfter 0 target p).chan 0).lastTs = (p.chan 0).lastTs
      ∧ ((waveStep carrierAfter 0 target p).chan 0).noiseCount = (p.chan 0).noiseCount
      ∧ ((waveStep carrierAfter 0 target p).chan 0).lfsr = (p.chan 0).lfsr
      ∧ (p.chan 0).counter + 1 ≤ ((waveStep carrierAfter 0 target p).chan 0).counter := by
  have h01 : (0 : ChanIdx) ≠ 1 := by decide
  have h10 : (1 : ChanIdx) ≠ 0 := by decide
  simp only [waveStep, carrierAfter, carrierReload, Psg.chan_modChan, if_neg h10, if_true,
    recalcTone_chan, runPlain_other h01, emit_chan, advanceBy]
  refine ⟨runPlain_live 1 _ false _ (by simpa using h), trivial, trivial, trivial, ?_⟩
  have := (freqPeriod (runPlain 1 (target + (p.chan 0).counter) false
    (emit 0 (target + (p.chan 0).counter) (p.modChan 0 (advanceBy 1)))) 0).pos
  split
  · simp [cutoff]
  · omega

/-- Everything a live carrier's run does to the time stamp and the countdowns of channels 0 and 1. -/
theorem runCarrier_facts (target : Int) (p : Psg) (h0 : (p.chan 0).Live) (h1 : (p.chan 1).Live) :
    ((runChannel 0 target true p).chan 0).Live ∧ ((runChannel 0 target true p).chan 1).Live
      ∧ ((runChannel 0 target true p).chan 0).lastTs = target := by
  have h10 : (1 : ChanIdx) ≠ 0 := by decide
  simp only [runChannel, and_self, if_true, runWith]
  split
  · simp only [Psg.chan_modChan, if_true, if_neg h10]
    exact ⟨h0, h1, trivial⟩
  · have hn : ¬ 4 ≤ (0 : ChanIdx).val := by decide
    simp only [noiseSection, if_neg hn]
    split
    · simp only [emit_chan, Psg.chan_modChan, if_true, if_neg h10]
      exact ⟨h0, h1, trivial⟩
    · simp only [waveSection, Bool.not_true, Bool.false_and, Bool.false_eq_true, if_false]
      generalize hq : Psg.modChan (emit 0 (p.chan 0).lastTs (p.modChan 0 fun x => { x with lastTs := target })) 0
        (fun x => { x with counter := x.counter - (target - (p.chan 0).lastTs) }) = q
      have q1 : q.chan 1 = p.chan 1 := by
        subst hq
        simp only [Psg.chan_modChan, emit_chan, if_neg h10]
      have q0 : (q.chan 0).lastTs = target ∧ (q.chan 0).noiseCount = (p.chan 0).noiseCount
          ∧ (q.chan 0).lfsr = (p.chan 0).lfsr := by
        subst hq
        simp only [Psg.chan_modChan, emit_chan, if_true, and_self]
      let Q : Psg → Prop := fun r => (r.chan 1).Live ∧ (r.chan 0).lastTs = target
        ∧ (r.chan 0).noiseCount = (p.chan 0).noiseCount ∧ (r.chan 0).lfsr = (p.chan 0).lfsr
      have hQ : ∀ r, stepDue 0 r = true → Q r → Q (waveStep carrierAfter 0 target r) := by
        intro r _ hr
        obtain ⟨a, b, c, d, _⟩ := carrierStep_facts target r hr.1
        exact ⟨a, b.trans hr.2.1, c.trans hr.2.2.1, d.trans hr.2.2.2⟩
      have hs : Q q := ⟨by rw [q1]; exact h1, q0.1, q0.2.1, q0.2.2⟩
      have hI := loopWhile_inv (P := Q) hQ (1 - (q.chan 0).counter).toNat q hs
      have hE := loopWhile_exit (P := Q) (fun r => (1 - (r.chan 0).counter).toNat) hQ
        (by
          intro r hg hr
          obtain ⟨_, _, _, _, e⟩ := carrierStep_facts target r hr.1
          simp only [stepDue, decide_eq_true_eq] at hg
          omega)
        (by
          intro r _ h0
          simp only [stepDue, decide_eq_false_iff_not]
          omega)
        (1 - (q.chan 0).counter).toNat q hs (le_refl _)
      simp only [stepDue, decide_eq_false_iff_not] at hE
      refine ⟨⟨by omega, ?_, ?_⟩, hI.1, hI.2.1⟩
      · rw [hI.2.2.1]; exact h0.2.1
      · rw [hI.2.2.2]; exact h0.2.2

/-- A run sets its channel's time stamp (44_channel_run.md R154), if the modulator's countdowns are in order. -/
theorem runChannel_lastTs (c : ChanIdx) (target : Int) (live : Bool) (p : Psg) (h : ∀ d, (p.chan d).Live) :
    ((runChannel c target live p).chan c).lastTs = target := by
  by_cases hc : c = 0 ∧ live = true
  · obtain ⟨rfl, rfl⟩ := hc
    exact (runCarrier_facts target p (h 0) (h 1)).2.2
  · simp only [runChannel, if_neg hc]
    exact runPlain_lastTs c target live p

/-- A run keeps the countdowns positive and the shift registers not zero (44_channel_run.md R169). -/
theorem runChannel_live (c : ChanIdx) (target : Int) (live : Bool) (p : Psg) (h : ∀ d, (p.chan d).Live) (d : ChanIdx) :
    ((runChannel c target live p).chan d).Live := by
  by_cases hc : c = 0 ∧ live = true
  · obtain ⟨rfl, rfl⟩ := hc
    obtain ⟨a, b, _⟩ := runCarrier_facts target p (h 0) (h 1)
    by_cases h0 : d = 0
    · subst h0; exact a
    · by_cases h1 : d = 1
      · subst h1; exact b
      · rw [(runChannel_frame 0 target true p).other d (by simp [runs, h0, h1])]; exact h d
  · by_cases hd : d = c
    · subst hd
      simp only [runChannel, if_neg hc]
      exact runPlain_live d target live p (h d)
    · rw [(runChannel_frame c target live p).other d (by
        simp only [runs]; rintro (rfl | ⟨a, b, -⟩)
        · exact hd rfl
        · exact hc ⟨a, b⟩)]
      exact h d

/-! ### The pass over the channels -/

/-- The pass over the channels is the model's `for` over them (45_update_scheduler.md R179). -/
theorem runAll_eq (target : Int) (live : Bool) (p : Psg) :
    runAll target live p = forChans (fun c => runChannel c target live) p := rfl

theorem RunFrame.mono {S T : ChanIdx → Prop} (hST : ∀ c, S c → T c) {p q : Psg} (h : RunFrame S p q) : RunFrame T p q :=
  { h with other := fun d hd => h.other d (fun hs => hd (hST d hs)) }

theorem RunFrame.trans {S : ChanIdx → Prop} {p q r : Psg} (h : RunFrame S p q) (k : RunFrame S q r) : RunFrame S p r where
  g := k.g.trans h.g
  rev := k.rev.trans h.rev
  len := fun b => (k.len b).trans (h.len b)
  other := fun d hd => (k.other d hd).trans (h.other d hd)
  frequency := fun d => (k.frequency d).trans (h.frequency d)
  control := fun d => (k.control d).trans (h.control d)
  balance := fun d => (k.balance d).trans (h.balance d)
  noiseControl := fun d => (k.noiseControl d).trans (h.noiseControl d)
  waveform := fun d => (k.waveform d).trans (h.waveform d)
  accumulator := fun d => (k.accumulator d).trans (h.accumulator d)
  noiseFreqCache := fun d => (k.noiseFreqCache d).trans (h.noiseFreqCache d)
  attenuation := fun d => (k.attenuation d).trans (h.attenuation d)
  freqCache := fun d hd => (k.freqCache d hd).trans (h.freqCache d hd)
  outputFunction := fun d hd => (k.outputFunction d hd).trans (h.outputFunction d hd)

/-- What the pass over the channels leaves unchanged. -/
theorem runAll_frame (target : Int) (live : Bool) (p : Psg) : RunFrame (fun _ => True) p (runAll target live p) :=
  forChans_inv (P := RunFrame (fun _ => True) p)
    (fun c q h => h.trans ((runChannel_frame c target live q).mono (fun _ _ => trivial))) (.refl _ p)

@[simp] theorem runAll_g (target : Int) (live : Bool) (p : Psg) : (runAll target live p).g = p.g :=
  (runAll_frame target live p).g

/-- The pass keeps the countdowns in order. -/
theorem runAll_live (target : Int) (live : Bool) (p : Psg) (h : ∀ d, (p.chan d).Live) (d : ChanIdx) :
    ((runAll target live p).chan d).Live :=
  forChans_inv (P := fun q => ∀ d, (q.chan d).Live) (fun c q h => runChannel_live c target live q h) h d

/-- After the pass every channel stands at the target. -/
theorem runAll_lastTs (target : Int) (live : Bool) (p : Psg) (h : ∀ d, (p.chan d).Live) (d : ChanIdx) :
    ((runAll target live p).chan d).lastTs = target := by
  have hl := fun c q (hq : ∀ d, (q.chan d : Chan).Live) => runChannel_live c target live q hq
  have h0 := hl 0 p h
  have h1 := hl 1 _ h0
  have h2 := hl 2 _ h1
  have h3 := hl 3 _ h2
  have h4 := hl 4 _ h3
  have keep : ∀ (c d : ChanIdx) (q : Psg), d ≠ c → (c = 0 → d ≠ 1) →
      (runChannel c target live q).chan d = q.chan d := by
    intro c d q hdc h01
    refine (runChannel_frame c target live q).other d ?_
    rintro (rfl | ⟨e, -, e'⟩)
    · exact hdc rfl
    · exact h01 e e'
  simp only [runAll]
  refine chan_cases (P := fun d => Chan.lastTs ((runChannel 5 target live _).chan d) = target) ?_ ?_ ?_ ?_ ?_ ?_ d
  · rw [keep 5 0 _ (by decide) (by decide), keep 4 0 _ (by decide) (by decide), keep 3 0 _ (by decide) (by decide),
      keep 2 0 _ (by decide) (by decide), keep 1 0 _ (by decide) (by decide)]
    exact runChannel_lastTs 0 target live p h
  · rw [keep 5 1 _ (by decide) (by decide), keep 4 1 _ (by decide) (by decide), keep 3 1 _ (by decide) (by decide),
      keep 2 1 _ (by decide) (by decide)]
    exact runChannel_lastTs 1 target live _ h0
  · rw [keep 5 2 _ (by decide) (by decide), keep 4 2 _ (by decide) (by decide), keep 3 2 _ (by decide) (by decide)]
    exact runChannel_lastTs 2 target live _ h1
  · rw [keep 5 3 _ (by decide) (by decide), keep 4 3 _ (by decide) (by decide)]
    exact runChannel_lastTs 3 target live _ h2
  · rw [keep 5 4 _ (by decide) (by decide)]
    exact runChannel_lastTs 4 target live _ h3
  · exact runChannel_lastTs 5 target live _ h4

/-! ### The crossfade machine -/

/-- The target attenuation depends on the balances and the control byte (45_update_scheduler.md R186). -/
theorem targetAtt_congr {p q : Psg} (c : ChanIdx) (b : Side) (hg : q.g.globalBalance = p.g.globalBalance)
    (hb : (q.chan c).balance = (p.chan c).balance) (hc : (q.chan c).control = (p.chan c).control) :
    targetAtt q c b = targetAtt p c b := by
  simp [targetAtt, hg, hb, hc]

/-- The crossfade step changes attenuations and the crossfade fields, nothing else. -/
theorem xfadeStep_chan (p : Psg) (c : ChanIdx) :
    (xfadeStep p).chan c
      = if p.g.xfPhase % 2 = 1 ∧ phaseChan p.g.xfPhase = some c then
          { p.chan c with attenuation := (p.chan c).attenuation.set (phaseSide p.g.xfPhase) p.g.xfLatch }
        else p.chan c := by
  simp only [xfadeStep, Psg.chan_modGlobal]
  split
  · next h =>
    have h1 : ¬ p.g.xfPhase % 2 = 1 := by omega
    simp only [h1, false_and, if_false, xfadeSample]
    cases phaseChan p.g.xfPhase <;> rfl
  · next h =>
    have h1 : p.g.xfPhase % 2 = 1 := by omega
    simp only [h1, true_and, xfadeCommit]
    cases hp : phaseChan p.g.xfPhase with
    | none => simp
    | some d =>
      simp only [Psg.chan_modChan, Option.some.injEq]
      by_cases hcd : c = d
      · subst hcd; simp
      · have : ¬ d = c := fun e => hcd e.symm
        simp [hcd, this]

@[simp] theorem xfadeStep_rev (p : Psg) : (xfadeStep p).rev = p.rev := by
  simp only [xfadeStep, Psg.modGlobal_rev]
  split
  · simp only [xfadeSample]; split <;> rfl
  · simp only [xfadeCommit]; split <;> rfl

@[simp] theorem xfadeStep_hr (p : Psg) : (xfadeStep p).hr = p.hr := by
  simp only [xfadeStep, Psg.modGlobal_hr]
  split
  · simp only [xfadeSample]; split <;> rfl
  · simp only [xfadeCommit]; split <;> rfl

/-- The global record after a crossfade step (45_update_scheduler.md R183). -/
theorem xfadeStep_g (p : Psg) :
    (xfadeStep p).g
      = nextPhase (if p.g.xfPhase % 2 = 0 then
          match phaseChan p.g.xfPhase with
          | some c => { p.g with xfLatch := targetAtt p c (phaseSide p.g.xfPhase) }
          | none => p.g
        else p.g) := by
  simp only [xfadeStep, Psg.modGlobal_g]
  congr 1
  split
  · simp only [xfadeSample]; cases phaseChan p.g.xfPhase <;> rfl
  · simp only [xfadeCommit]; cases phaseChan p.g.xfPhase <;> rfl

/-- A crossfade step keeps a channel but for its attenuation. -/
theorem xfadeStep_only (p : Psg) (c : ChanIdx) :
    ∃ a, (xfadeStep p).chan c = { p.chan c with attenuation := a } := by
  rw [xfadeStep_chan]
  split
  · exact ⟨_, rfl⟩
  · exact ⟨(p.chan c).attenuation, rfl⟩

theorem tickXfade_only (k : Nat) (p : Psg) (c : ChanIdx) :
    ∃ a, (tickXfade k p).chan c = { p.chan c with attenuation := a } := by
  simp only [tickXfade]
  split
  · split
    · exact xfadeStep_only _ c
    · exact ⟨(p.chan c).attenuation, rfl⟩
  · exact ⟨(p.chan c).attenuation, rfl⟩

/-! ### The chunk loop -/

theorem chunkLen_pos {n : Nat} (h : 0 < n) (p : Psg) : 0 < chunkLen n p := by
  simp only [chunkLen]; split <;> omega

theorem chunkLen_le (n : Nat) (p : Psg) : chunkLen n p ≤ n := by
  simp only [chunkLen]; split <;> omega

/-- A chunk never passes the end of the running crossfade phase (45_update_scheduler.md R178). -/
theorem chunkLen_countdown (n : Nat) (p : Psg) (h : 0 < p.g.xfCountdown) : chunkLen n p ≤ p.g.xfCountdown := by
  simp only [chunkLen]; split <;> omega

/-- A bound on the iterations beyond the ticks that remain does not matter. -/
theorem chunk_fuel (live : Bool) (fuel : Nat) (x : Nat × Psg) (h : x.1 ≤ fuel) :
    loopWhile (fun x => decide (0 < x.1)) (chunkStep live) fuel x
      = loopWhile (fun x => decide (0 < x.1)) (chunkStep live) x.1 x := by
  have key : ∀ (n : Nat) (x : Nat × Psg), x.1 ≤ n → ∀ f, x.1 ≤ f →
      loopWhile (fun x => decide (0 < x.1)) (chunkStep live) f x
        = loopWhile (fun x => decide (0 < x.1)) (chunkStep live) n x := by
    intro n
    induction n with
    | zero =>
      intro x hx f _
      have h0 : x.1 = 0 := by omega
      cases f <;> simp [loopWhile, h0]
    | succ n ih =>
      intro x hx f hf
      cases f with
      | zero =>
        have h0 : x.1 = 0 := by omega
        simp [loopWhile, h0]
      | succ f =>
        simp only [loopWhile]
        split
        · next hg =>
          have hp : 0 < x.1 := by simpa using hg
          have := chunkLen_pos hp x.2
          exact ih _ (by simp only [chunkStep]; omega) f (by simp only [chunkStep]; omega)
        · rfl
  exact key x.1 x (le_refl _) fuel h

@[simp] theorem chunkLoop_zero (live : Bool) (p : Psg) : chunkLoop live 0 p = p := rfl

/-- The chunk loop runs one chunk and goes on with what remains (45_update_scheduler.md R178). -/
theorem chunkLoop_next (live : Bool) {n : Nat} (h : 0 < n) (p : Psg) :
    chunkLoop live n p = chunkLoop live (n - chunkLen n p) (runChunk live (chunkLen n p) p) := by
  obtain ⟨m, rfl⟩ : ∃ m, n = m + 1 := ⟨n - 1, by omega⟩
  have hp := chunkLen_pos h p
  simp only [chunkLoop, loopWhile]
  rw [if_pos (by simp)]
  rw [chunk_fuel live m (chunkStep live (m + 1, p)) (by simp only [chunkStep]; omega)]
  rfl

/-- What holds before the chunk loop, with the ticks that remain, and is kept by every chunk holds after it, with no
ticks remaining. -/
theorem chunkLoop_inv {live : Bool} {P : Nat → Psg → Prop}
    (h : ∀ n p, 0 < n → P n p → P (n - chunkLen n p) (runChunk live (chunkLen n p) p)) (n : Nat) (p : Psg) (hp : P n p) :
    P 0 (chunkLoop live n p) := by
  induction n using Nat.strong_induction_on generalizing p with
  | _ n ih =>
    by_cases h0 : 0 < n
    · rw [chunkLoop_next live h0]
      have := chunkLen_pos h0 p
      exact ih _ (by omega) _ (h n p h0 hp)
    · have : n = 0 := by omega
      subst this
      exact hp

/-- The parts of one chunk. -/
theorem runChunk_eq (live : Bool) (k : Nat) (p : Psg) :
    runChunk live k p
      = (tickXfade k (runAll (p.g.lastTs + k) live p)).modGlobal (fun g => { g with lastTs := p.g.lastTs + k }) := rfl

/-- A chunk in the words of Safety.lean (45_update_scheduler.md R179 to R181). -/
theorem chunkOf_eq (live : Bool) (k : Nat) (p : Psg) : chunkOf live k p = runChunk live k p := by
  simp only [chunkOf, runChunk_eq, tickXfade, Nat.pos_iff_ne_zero, ne_eq, ite_not]

@[simp] theorem runChunk_lastTs (live : Bool) (k : Nat) (p : Psg) :
    (runChunk live k p).g.lastTs = p.g.lastTs + k := rfl

/-- A chunk keeps the countdowns in order. -/
theorem runChunk_live (live : Bool) (k : Nat) (p : Psg) (h : ∀ d, (p.chan d).Live) (d : ChanIdx) :
    ((runChunk live k p).chan d).Live := by
  simp only [runChunk_eq, Psg.chan_modGlobal]
  obtain ⟨a, ha⟩ := tickXfade_only k (runAll (p.g.lastTs + k) live p) d
  rw [ha]
  exact runAll_live _ live p h d

/-- After a chunk every channel stands at its end (45_update_scheduler.md R179, R181). -/
theorem runChunk_stamps (live : Bool) (k : Nat) (p : Psg) (h : ∀ d, (p.chan d).Live) (d : ChanIdx) :
    ((runChunk live k p).chan d).lastTs = (runChunk live k p).g.lastTs := by
  simp only [runChunk_eq, Psg.chan_modGlobal]
  obtain ⟨a, ha⟩ := tickXfade_only k (runAll (p.g.lastTs + k) live p) d
  rw [ha]
  exact runAll_lastTs _ live p h d

@[simp] theorem beginUpdate_lastTs (p : Psg) : (beginUpdate p).g.lastTs = p.g.lastTs := by
  simp only [beginUpdate, gateLfo, startXfade]
  split <;> split <;> rfl

/-- `lfo_live` in the words of Safety.lean, and before the gating as after it (45_update_scheduler.md R177). -/
theorem modulationLive_eq (p : Psg) : lfoLive (beginUpdate p) = modulationLive p := by
  have h1 : ∀ p, modulationLive p = lfoLive p := fun _ => rfl
  have h2 : ∀ p, lfoLive (gateLfo p) = lfoLive p := by
    intro p
    simp only [gateLfo]
    split
    · simp [lfoLive, lfoOn, recalcTone_chan]
    · rfl
  have h3 : lfoLive (startXfade p) = lfoLive p := by simp only [startXfade]; split <;> rfl
  rw [beginUpdate, h2, h3, h1]

/-- `Update` at the time already reached is the part before the chunk loop (45_update_scheduler.md R182). -/
theorem update_same (p : Psg) : update p.g.lastTs p = beginUpdate p := by simp [update, chunkLoop, loopWhile]

/-- The part of `Update` before the chunk loop changes the caches of channel 0 at most (45_update_scheduler.md R177). -/
theorem beginUpdate_chan (p : Psg) (d : ChanIdx) :
    ∃ f o, (beginUpdate p).chan d = { p.chan d with freqCache := f, outputFunction := o } ∧
      (d ≠ 0 → f = (p.chan d).freqCache ∧ o = (p.chan d).outputFunction) := by
  have hs : ∀ d, (startXfade p).chan d = p.chan d := by
    intro d; simp only [startXfade]; split <;> rfl
  simp only [beginUpdate, gateLfo]
  split
  · rw [recalcTone_chan]
    split
    · next h => subst h; rw [hs]; exact ⟨_, _, rfl, fun h => absurd rfl h⟩
    · rw [hs]; exact ⟨_, _, rfl, fun _ => ⟨rfl, rfl⟩⟩
  · rw [hs]; exact ⟨_, _, rfl, fun _ => ⟨rfl, rfl⟩⟩

/-- After `Update` the global time stamp is the requested one (45_update_scheduler.md R181). -/
theorem update_lastTs {p : Psg} {ts : Int} (h : p.g.lastTs ≤ ts) : (update ts p).g.lastTs = ts := by
  have := chunkLoop_inv (live := lfoLive (beginUpdate p)) (P := fun n q => q.g.lastTs + n = ts)
    (by
      intro n q _ hq
      have := chunkLen_le n q
      simp only [runChunk_lastTs]
      omega)
    (ts - p.g.lastTs).toNat (beginUpdate p) (by simp only [beginUpdate_lastTs]; omega)
  simpa [update] using this

/-- `Update` keeps the countdowns in order (44_channel_run.md R169). -/
theorem update_live {p : Psg} (ts : Int) (h : ∀ d, (p.chan d).Live) (d : ChanIdx) : ((update ts p).chan d).Live := by
  refine chunkLoop_inv (live := lfoLive (beginUpdate p)) (P := fun _ q => ∀ d, (q.chan d).Live)
    (fun n q _ hq => runChunk_live _ _ q hq) (ts - p.g.lastTs).toNat (beginUpdate p) ?_ d
  intro d
  obtain ⟨f, o, hb, -⟩ := beginUpdate_chan p d
  rw [hb]; exact h d

/-- After `Update` every channel stands at the global time stamp (10_state.md R53, 45_update_scheduler.md R181). -/
theorem update_stamps {p : Psg} (ts : Int) (h : ∀ d, (p.chan d).Live) (hs : ∀ d, (p.chan d).lastTs = p.g.lastTs)
    (d : ChanIdx) : ((update ts p).chan d).lastTs = (update ts p).g.lastTs := by
  refine (chunkLoop_inv (live := lfoLive (beginUpdate p))
    (P := fun _ q => (∀ d, (q.chan d).Live) ∧ ∀ d, (q.chan d).lastTs = q.g.lastTs)
    (fun n q _ hq => ⟨runChunk_live _ _ q hq.1, runChunk_stamps _ _ q hq.1⟩) (ts - p.g.lastTs).toNat
    (beginUpdate p) ⟨?_, ?_⟩).2 d
  · intro d
    obtain ⟨f, o, hb, -⟩ := beginUpdate_chan p d
    rw [hb]; exact h d
  · intro d
    obtain ⟨f, o, hb, -⟩ := beginUpdate_chan p d
    rw [hb, beginUpdate_lastTs]; exact hs d

/-! ### What advancing time keeps -/

@[simp] theorem setChan_hrTotal (p : Psg) (c : ChanIdx) (x : Chan) (b : Side) : hrTotal (p.setChan c x) b = hrTotal p b := rfl
@[simp] theorem recalcTone_hrTotal (p : Psg) (c : ChanIdx) (b : Side) : hrTotal (recalcTone c p) b = hrTotal p b := rfl

/-- That the buffers fit and no addition fell outside them is kept by everything time does. -/
theorem ready_kept : Kept Psg.ready where
  emit := by
    intro p c ts _ h
    exact ⟨fits_of_len h.1 (emit_len c ts p), by rw [emit, inject_overrun h.1]; exact h.2⟩
  edit := fun _ _ h _ => h
  tone := fun _ h => h
  commit := fun _ _ h => h
  glob := fun _ h _ => h

/-- `Update` over buffers that fit adds nothing outside them (20_memory.md R78). -/
theorem update_ready {p : Psg} (ts : Int) (h : p.ready) : (update ts p).ready := ready_kept.update ts h

/-- A recorded overrun is kept by everything time does (log 4). -/
theorem overrun_kept : Kept (fun p => p.hrOverrun = true) where
  emit := fun ts _ h => inject_overrun_stays _ ts _ h
  edit := fun _ _ h _ => h
  tone := fun _ h => h
  commit := fun _ _ h => h
  glob := fun _ h _ => h

/-- The canonical form of the buffers is kept by everything time does. -/
theorem hrWf_kept : Kept hrWf where
  emit := fun ts _ h => inject_wf h _ ts _
  edit := fun _ _ h _ => h
  tone := fun _ h => h
  commit := fun _ _ h => h
  glob := fun _ h _ => h

/-- `Update` keeps the canonical form of the buffers. -/
theorem update_hrWf {p : Psg} (ts : Int) (h : hrWf p) : hrWf (update ts p) := hrWf_kept.update ts h

/-- `Update` keeps the revision and the lengths of the buffers. -/
theorem update_rev_len (ts : Int) (p : Psg) :
    (update ts p).rev = p.rev ∧ ∀ b, ((update ts p).hr.get b).len = (p.hr.get b).len := by
  refine Kept.update (P := fun q => q.rev = p.rev ∧ ∀ b, (q.hr.get b).len = (p.hr.get b).len) ?_ ts ⟨rfl, fun _ => rfl⟩
  exact
    { emit := fun ts _ h => ⟨by simpa using h.1, by simpa using h.2⟩
      edit := fun _ _ h _ => h
      tone := fun _ h => h
      commit := fun _ _ h => h
      glob := fun _ h _ => h }

theorem sameRegisters.refl (p : Psg) : sameRegisters p p := by
  constructor <;> intros <;> rfl

theorem sameRegisters.trans {p q r : Psg} (h : sameRegisters p q) (k : sameRegisters q r) : sameRegisters p r where
  rev := k.rev.trans h.rev
  select := k.select.trans h.select
  globalBalance := k.globalBalance.trans h.globalBalance
  lfoFrequency := k.lfoFrequency.trans h.lfoFrequency
  lfoControl := k.lfoControl.trans h.lfoControl
  left_len := k.left_len.trans h.left_len
  right_len := k.right_len.trans h.right_len
  frequency := fun c => (k.frequency c).trans (h.frequency c)
  control := fun c => (k.control c).trans (h.control c)
  balance := fun c => (k.balance c).trans (h.balance c)
  noiseControl := fun c => (k.noiseControl c).trans (h.noiseControl c)
  waveform := fun c => (k.waveform c).trans (h.waveform c)
  accumulator := fun c => (k.accumulator c).trans (h.accumulator c)
  noiseFreqCache := fun c => (k.noiseFreqCache c).trans (h.noiseFreqCache c)

/-- A run changes no register. -/
theorem RunFrame.registers {S : ChanIdx → Prop} {p q : Psg} (h : RunFrame S p q) : sameRegisters p q where
  rev := h.rev
  select := by rw [h.g]
  globalBalance := by rw [h.g]
  lfoFrequency := by rw [h.g]
  lfoControl := by rw [h.g]
  left_len := h.len .left
  right_len := h.len .right
  frequency := h.frequency
  control := h.control
  balance := h.balance
  noiseControl := h.noiseControl
  waveform := h.waveform
  accumulator := h.accumulator
  noiseFreqCache := h.noiseFreqCache

/-- An edit of a channel that keeps its registers, waveform, accumulator and noise period changes no register. -/
theorem sameRegisters.setChan {p q : Psg} (h : sameRegisters p q) (c : ChanIdx) (y : Chan)
    (hy : y = { q.chan c with
      lfsr := y.lfsr, noiseCount := y.noiseCount, lastTs := y.lastTs, counter := y.counter,
      waveformIndex := y.waveformIndex, ddaLatch := y.ddaLatch, attenuation := y.attenuation }) :
    sameRegisters p (q.setChan c y) := by
  have key : ∀ {α : Type} (f : Chan → α), (∀ d, f (q.chan d) = f (p.chan d)) → f y = f (q.chan c) →
      ∀ d, f ((q.setChan c y).chan d) = f (p.chan d) := by
    intro α f hf hp d
    simp only [Psg.chan_setChan]
    split
    · next e => subst e; rw [hp]; exact hf d
    · exact hf d
  exact
    { rev := h.rev, select := h.select, globalBalance := h.globalBalance, lfoFrequency := h.lfoFrequency
      lfoControl := h.lfoControl, left_len := h.left_len, right_len := h.right_len
      frequency := key _ h.frequency (by rw [hy]), control := key _ h.control (by rw [hy])
      balance := key _ h.balance (by rw [hy]), noiseControl := key _ h.noiseControl (by rw [hy])
      waveform := key _ h.waveform (by rw [hy]), accumulator := key _ h.accumulator (by rw [hy])
      noiseFreqCache := key _ h.noiseFreqCache (by rw [hy]) }

/-- That no register has changed is kept by everything time does (44_channel_run.md R151). -/
theorem sameRegisters_kept (p : Psg) : Kept (sameRegisters p) where
  emit := by
    intro q c ts hc h
    exact h.trans ((runFrame_kept (fun _ => True) q).emit ts hc (.refl _ q)).registers
  edit := by
    intro q c y hc h hy
    exact h.trans ((runFrame_kept (fun _ => True) q).edit y hc (.refl _ q) hy).registers
  tone := by
    intro q hc h
    exact h.trans ((runFrame_kept (fun _ => True) q).tone hc (.refl _ q)).registers
  commit := fun c a h => h.setChan c _ rfl
  glob := by
    intro q g h hg
    rw [TimeEdit] at hg
    exact { h with select := by rw [hg]; exact h.select, globalBalance := by rw [hg]; exact h.globalBalance, lfoFrequency := by rw [hg]; exact h.lfoFrequency, lfoControl := by rw [hg]; exact h.lfoControl }

/-- `Update` does not change the select. -/
@[simp] theorem update_select (ts : Int) (p : Psg) : (update ts p).g.select = p.g.select :=
  ((sameRegisters_kept p).update ts (.refl p)).select

/-- An operation that advances time to `ts` and then changes the machine without touching the buffers completes. -/
theorem complete_update {s : State} {ts : Int} {r : HostResult} {f : Psg → Psg} (h : s.psg.ready)
    (hf : (f (update ts s.psg)).hrOverrun = (update ts s.psg).hrOverrun) :
    complete s (f (update ts s.psg)) r = .next { s with psg := f (update ts s.psg), result := r } :=
  complete_ok (by rw [hf]; exact (update_ready ts h).2)

end Sys2Proof.Machine
end

