-- ==== Sys2Proof/Laws/Writes.lean ====
section
/-! SUPPORT. Everything the register writes, the reset, the time base and the debug path do to PSG-CORE after the flush:
one lemma per part of the state. -/

namespace Sys2Proof.Machine

/-! ### The bank select and passes over the channels -/

/-- With a channel selected a banked write reaches it (20_memory.md R62). -/
theorem onSelected_some {p : Psg} {c : ChanIdx} (h : p.g.select.toNat = c.val) (f : ChanIdx → Psg → Psg) :
    onSelected f p = f c p := by
  have hc := c.isLt
  have : selected p = some c := by simp [selected, h]
  simp [onSelected, this]

/-- With select 6 or 7 a banked write changes nothing (46_register_writes.md R213). -/
theorem onSelected_none {p : Psg} (h : 6 ≤ p.g.select.toNat) (f : ChanIdx → Psg → Psg) : onSelected f p = p := by
  have : selected p = none := by simp [selected]; omega
  simp [onSelected, this]

/-- What holds of a machine, and of every channel's write to it, holds after a banked write. -/
theorem onSelected_inv {P : Psg → Prop} {f : ChanIdx → Psg → Psg} {p : Psg} (hp : P p) (hf : ∀ c, P (f c p)) :
    P (onSelected f p) := by
  unfold onSelected
  split
  · exact hf _
  · exact hp

/-- A pass whose step changes its own channel alone, by a function of that channel, changes every channel by it. -/
theorem forChans_chan {f : ChanIdx → Psg → Psg} {I : Psg → Prop} {X : ChanIdx → Chan → Chan}
    (hI : ∀ c p, I p → I (f c p)) (hf : ∀ c p, I p → ∀ d, (f c p).chan d = if d = c then X c (p.chan c) else p.chan d)
    {p : Psg} (hp : I p) (d : ChanIdx) : (forChans f p).chan d = X d (p.chan d) := by
  have h0 := hI 0 _ hp
  have h1 := hI 1 _ h0
  have h2 := hI 2 _ h1
  have h3 := hI 3 _ h2
  have h4 := hI 4 _ h3
  simp only [forChans]
  rw [hf 5 _ h4, hf 4 _ h3, hf 3 _ h2, hf 2 _ h1, hf 1 _ h0, hf 0 _ hp]
  fin_cases d <;> simp [hf 4 _ h3, hf 3 _ h2, hf 2 _ h1, hf 1 _ h0, hf 0 _ hp]

/-- What every step of a pass leaves unchanged, the pass leaves unchanged. -/
theorem forChans_eq {α : Type} (v : Psg → α) {f : ChanIdx → Psg → Psg} (h : ∀ c p, v (f c p) = v p) (p : Psg) :
    v (forChans f p) = v p := forChans_inv (P := fun q => v q = v p) (fun c q hq => (h c q).trans hq) rfl

/-! ### The register writes after the flush -/

@[simp] theorem writeSelect_g (v : Byte) (p : Psg) : (writeSelect v p).g = { p.g with select := selectOf v } := rfl
@[simp] theorem writeSelect_chan (v : Byte) (p : Psg) (c : ChanIdx) : (writeSelect v p).chan c = p.chan c := rfl
@[simp] theorem writeGbal_g (v : Byte) (p : Psg) :
    (writeGbal v p).g = { p.g with globalBalance := v, xfPending := true } := rfl
@[simp] theorem writeGbal_chan (v : Byte) (p : Psg) (c : ChanIdx) : (writeGbal v p).chan c = p.chan c := rfl
@[simp] theorem writeLfofreq_g (v : Byte) (p : Psg) : (writeLfofreq v p).g = { p.g with lfoFrequency := v } := rfl
@[simp] theorem writeLfofreq_chan (v : Byte) (p : Psg) (c : ChanIdx) : (writeLfofreq v p).chan c = p.chan c := rfl
@[simp] theorem writeFreqLo_g (v : Byte) (c : ChanIdx) (p : Psg) : (writeFreqLo v c p).g = p.g := rfl
@[simp] theorem writeFreqHi_g (v : Byte) (c : ChanIdx) (p : Psg) : (writeFreqHi v c p).g = p.g := rfl
@[simp] theorem writeWave_g (v : Byte) (c : ChanIdx) (p : Psg) : (writeWave v c p).g = p.g := rfl
@[simp] theorem writeBal_g (v : Byte) (c : ChanIdx) (p : Psg) : (writeBal v c p).g = { p.g with xfPending := true } := rfl
@[simp] theorem writeCtrl_g (v : Byte) (c : ChanIdx) (p : Psg) : (writeCtrl v c p).g = { p.g with xfPending := true } :=
  rfl
@[simp] theorem writeNoise_g (v : Byte) (c : ChanIdx) (p : Psg) : (writeNoise v c p).g = p.g := by
  unfold writeNoise; split <;> rfl

@[simp] theorem writeLfoctrl_g (v : Byte) (p : Psg) : (writeLfoctrl v p).g = { p.g with lfoControl := v } := by
  unfold writeLfoctrl; split <;> rfl

/-- A frequency low write on its channel (46_register_writes.md R199). -/
theorem writeFreqLo_chan (v : Byte) (c : ChanIdx) (p : Psg) (d : ChanIdx) :
    (writeFreqLo v c p).chan d
      = if d = c then
          { p.chan c with
            frequency := withFreqLo (p.chan c).frequency v, freqCache := freqPeriod (writeFreqLo v c p) c,
            outputFunction := chanFn (writeFreqLo v c p) c }
        else p.chan d := by
  simp only [writeFreqLo]
  rw [recalcTone_chan]
  split <;> simp_all

/-- A frequency high write on its channel (46_register_writes.md R200). -/
theorem writeFreqHi_chan (v : Byte) (c : ChanIdx) (p : Psg) (d : ChanIdx) :
    (writeFreqHi v c p).chan d
      = if d = c then
          { p.chan c with
            frequency := withFreqHi (p.chan c).frequency v, freqCache := freqPeriod (writeFreqHi v c p) c,
            outputFunction := chanFn (writeFreqHi v c p) c }
        else p.chan d := by
  simp only [writeFreqHi]
  rw [recalcTone_chan]
  split <;> simp_all

/-- A control write on its channel (46_register_writes.md R201 to R204). -/
theorem writeCtrl_chan (v : Byte) (c : ChanIdx) (p : Psg) (d : ChanIdx) :
    (writeCtrl v c p).chan d
      = if d = c then
          { controlEdges v (p.chan c) with
            control := v, freqCache := freqPeriod (writeCtrl v c p) c, outputFunction := chanFn (writeCtrl v c p) c }
        else p.chan d := by
  simp only [writeCtrl, requestXfade_chan, freqPeriod_requestXfade, chanFn_requestXfade]
  rw [recalcTone_chan]
  split <;> simp_all

/-- The edge actions move the index, the latch and the counter only (46_register_writes.md R202, R203). -/
theorem controlEdges_only (v : Byte) (x : Chan) :
    controlEdges v x
      = { x with
          waveformIndex := (controlEdges v x).waveformIndex, ddaLatch := (controlEdges v x).ddaLatch,
          counter := (controlEdges v x).counter } := by
  simp only [controlEdges]
  split <;> split <;> rfl

@[simp] theorem writeBal_chan (v : Byte) (c : ChanIdx) (p : Psg) (d : ChanIdx) :
    (writeBal v c p).chan d = if d = c then { p.chan c with balance := v } else p.chan d := by
  simp [writeBal]

/-- A waveform write on its channel (46_register_writes.md R206 to R208). -/
theorem writeWave_chan (v : Byte) (c : ChanIdx) (p : Psg) (d : ChanIdx) :
    (writeWave v c p).chan d
      = if d = c then
          { waveWrite (p.chan c) (p.chan c).waveformIndex.toNat (sampleOf v) with
            waveformIndex :=
              if ddaBit (p.chan c).control then (p.chan c).waveformIndex else (p.chan c).waveformIndex + 1
            ddaLatch := if enBit (p.chan c).control then sampleOf v else (p.chan c).ddaLatch }
        else p.chan d := by
  simp only [writeWave, Psg.chan_modChan]
  split
  · have hc : (waveWrite (p.chan c) (p.chan c).waveformIndex.toNat (sampleOf v)).control = (p.chan c).control := rfl
    cases hd : ddaBit (p.chan c).control <;> cases he : enBit (p.chan c).control <;> simp [hc, hd, he] <;> constructor <;> rfl
  · rfl

/-- A noise write on a channel without a noise register (46_register_writes.md R209). -/
theorem writeNoise_low {c : ChanIdx} (h : c.val < 4) (v : Byte) (p : Psg) : writeNoise v c p = p := by
  have : ¬ 4 ≤ c.val := by omega
  simp [writeNoise, this]

/-- A noise write on channels 4 and 5 (46_register_writes.md R209). -/
theorem writeNoise_chan {c : ChanIdx} (h : 4 ≤ c.val) (v : Byte) (p : Psg) (d : ChanIdx) :
    (writeNoise v c p).chan d
      = if d = c then
          { p.chan c with
            noiseControl := v, noiseFreqCache := noisePeriod v, outputFunction := chanFn (writeNoise v c p) c }
        else p.chan d := by
  simp only [writeNoise, h, if_true, chanFn_recalcOfn, recalcOfn_chan, recalcNoise_chan, Psg.chan_modChan]
  split <;> simp_all

/-- The store of LFO control and its recompute (46_register_writes.md R211, 47_lifecycle_host.md R231). -/
theorem storeLfoctrl_chan (v : Byte) (p : Psg) (d : ChanIdx) :
    (storeLfoctrl v p).chan d
      = if d = 0 ∨ d = 1 then
          { p.chan d with
            freqCache := freqPeriod (storeLfoctrl v p) d, outputFunction := chanFn (storeLfoctrl v p) d }
        else p.chan d := by
  have h01 : (0 : ChanIdx) ≠ 1 := by decide
  simp only [storeLfoctrl]
  generalize hq : p.modGlobal (fun g => { g with lfoControl := v }) = q
  have hqc : ∀ c, q.chan c = p.chan c := by intro c; subst hq; rfl
  by_cases h1 : d = 1
  · subst h1
    rw [recalcTone_chan]
    simp [recalcTone_other (by decide : (1 : ChanIdx) ≠ 0), hqc]
  · rw [recalcTone_other h1, recalcTone_chan]
    by_cases h0 : d = 0
    · subst h0
      have : chanFn (recalcTone 1 (recalcTone 0 q)) 0 = chanFn (recalcTone 0 q) 0 := by
        apply chanFn_congr
        · rfl
        · rw [recalcTone_other h01]
        · rw [recalcTone_other h01]
        · rw [recalcTone_other h01]
        · intro; simp [lfoOn]
      simp [hqc, this]
    · simp [h0, h1, hqc]

@[simp] theorem storeLfoctrl_g (v : Byte) (p : Psg) : (storeLfoctrl v p).g = { p.g with lfoControl := v } := rfl

/-! ### Reset and the time base -/

/-- `ResetTS` on a channel (47_lifecycle_host.md R229). -/
@[simp] theorem resetTs_chan (base : Int) (p : Psg) (d : ChanIdx) :
    (resetTs base p).chan d = { p.chan d with lastTs := base } := by
  simp only [resetTs]
  rw [forChans_chan (f := fun c p => p.modChan c (fun x => { x with lastTs := base })) (I := fun _ => True)
    (X := fun _ x => { x with lastTs := base }) (fun _ _ _ => trivial)
    (fun c p _ d => Psg.chan_modChan p c d _) trivial]
  rfl

@[simp] theorem resetTs_g (base : Int) (p : Psg) : (resetTs base p).g = { p.g with lastTs := base } :=
  forChans_eq (fun q => q.g) (fun _ _ => rfl) _
@[simp] theorem resetTs_rev (base : Int) (p : Psg) : (resetTs base p).rev = p.rev :=
  forChans_eq (fun q => q.rev) (fun _ _ => rfl) _
@[simp] theorem resetTs_hr (base : Int) (p : Psg) : (resetTs base p).hr = p.hr :=
  forChans_eq (fun q => q.hr) (fun _ _ => rfl) _
@[simp] theorem resetTs_hrOverrun (base : Int) (p : Psg) : (resetTs base p).hrOverrun = p.hrOverrun :=
  forChans_eq (fun q => q.hrOverrun) (fun _ _ => rfl) _

/-- `Power` on one channel, with LFO mode off (47_lifecycle_host.md R225, R226). -/
theorem powerChan_chan {p : Psg} (h : p.g.lfoControl = 0) (c d : ChanIdx) :
    (powerChan c p).chan d
      = if d = c then { Chan.reset with prev := (p.chan c).prev, lastTs := (p.chan c).lastTs } else p.chan d := by
  have ho : lfoOn p = false := by simp [lfoOn, h, modeField]
  simp only [powerChan, Psg.chan_modChan, recalcNoise_chan]
  split
  · next hd =>
    subst hd
    have hf : freqPeriod (p.modChan d clearChan) d = Chan.reset.freqCache := by
      rw [freqPeriod_plain (p := p.modChan d clearChan) (.inl ho)]
      simp only [Psg.chan_modChan, if_true]
      rfl
    have hfn : chanFn (recalcTone d (p.modChan d clearChan)) d = .off := by
      have e : chanFn (recalcTone d (p.modChan d clearChan)) d = chanFn (recalcFreq d (p.modChan d clearChan)) d := by
        simp [recalcTone]
      rw [e]
      simp only [chanFn, recalcFreq_chan, Psg.chan_modChan, if_true, clearChan]
      cases (recalcFreq d (p.modChan d clearChan)).rev <;> rfl
    simp only [if_true]
    rw [recalcTone_chan, if_pos rfl, hfn, hf]
    simp only [Psg.chan_modChan, if_true]
    rfl
  · next hd => rw [recalcTone_other hd]; simp [hd]

@[simp] theorem powerReset_g (p : Psg) : (powerReset p).g = clearGlobal p.g :=
  forChans_eq (fun q => q.g) (f := powerChan) (fun _ _ => rfl) (p.modGlobal clearGlobal)
@[simp] theorem powerReset_rev (p : Psg) : (powerReset p).rev = p.rev :=
  forChans_eq (fun q => q.rev) (f := powerChan) (fun _ _ => rfl) (p.modGlobal clearGlobal)
@[simp] theorem powerReset_hr (p : Psg) : (powerReset p).hr = p.hr :=
  forChans_eq (fun q => q.hr) (f := powerChan) (fun _ _ => rfl) (p.modGlobal clearGlobal)
@[simp] theorem powerReset_hrOverrun (p : Psg) : (powerReset p).hrOverrun = p.hrOverrun :=
  forChans_eq (fun q => q.hrOverrun) (f := powerChan) (fun _ _ => rfl) (p.modGlobal clearGlobal)

/-- The reset part of `Power` puts every channel at its reset value but for the fields of time (47_lifecycle_host.md R225
to R228). -/
@[simp] theorem powerReset_chan (p : Psg) (d : ChanIdx) :
    (powerReset p).chan d = { Chan.reset with prev := (p.chan d).prev, lastTs := (p.chan d).lastTs } := by
  simp only [powerReset]
  rw [forChans_chan (f := powerChan) (I := fun q => q.g.lfoControl = 0)
    (X := fun _ x => { Chan.reset with prev := x.prev, lastTs := x.lastTs }) (fun _ _ h => h)
    (fun c p h d => powerChan_chan h c d) rfl]
  rfl

/-- Every channel of a machine as constructed is at its reset value. -/
@[simp] theorem fresh_chan (rev : Rev) (hr : Stereo Memory) (c : ChanIdx) : (Psg.fresh rev hr).chan c = Chan.reset := by
  simp [Psg.fresh, Psg.chan]

/-- `Construct` gives the machine of the table of 10_state.md R59. -/
theorem construct_eq (rev : Rev) (hr : Stereo Memory) : construct rev hr = Psg.fresh rev hr := by
  have h : ¬ (0 : Int) ≠ (Psg.fresh rev hr).g.lastTs := by simp [Psg.fresh, Global.reset]
  simp only [construct, power, if_neg h]
  refine Psg.ext_chan (by simp) (by simp; rfl) (fun c => ?_) (by simp) (by simp)
  simp [Chan.reset]

/-! ### Save and restore -/

/-- The full recompute of a channel (47_lifecycle_host.md R235). -/
theorem recalcAll_chan (c : ChanIdx) (p : Psg) (d : ChanIdx) :
    (recalcAll c p).chan d
      = if d = c then
          { p.chan c with
            freqCache := freqPeriod p c, noiseFreqCache := noisePeriod (p.chan c).noiseControl,
            outputFunction := selectFn p.rev (enBit (p.chan c).control) (ddaBit (p.chan c).control)
              (neBit (p.chan c).noiseControl) (decide ((freqPeriod p c).ticks ≤ cutoff)) (decide (c = 0) && lfoOn p) }
        else p.chan d := by
  simp only [recalcAll, recalcOfn_chan, recalcNoise_chan, recalcFreq_chan, if_true, chanFn, lowPeriod]
  split <;> rfl

/-- The full recompute of all channels: each cache becomes what its recompute stores for the machine before
(47_lifecycle_host.md R235). -/
theorem recalcEvery_chan (p : Psg) (d : ChanIdx) :
    (forChans recalcAll p).chan d
      = { p.chan d with
          freqCache := freqPeriod p d, noiseFreqCache := noisePeriod (p.chan d).noiseControl,
          outputFunction := selectFn p.rev (enBit (p.chan d).control) (ddaBit (p.chan d).control)
            (neBit (p.chan d).noiseControl) (decide ((freqPeriod p d).ticks ≤ cutoff)) (decide (d = 0) && lfoOn p) } := by
  rw [forChans_chan (f := recalcAll)
    (I := fun q => q.g = p.g ∧ q.rev = p.rev ∧ ∀ c, (q.chan c).frequency = (p.chan c).frequency
      ∧ (q.chan c).ddaLatch = (p.chan c).ddaLatch)
    (X := fun d x =>
      { x with
        freqCache := freqPeriod p d, noiseFreqCache := noisePeriod x.noiseControl,
        outputFunction := selectFn p.rev (enBit x.control) (ddaBit x.control) (neBit x.noiseControl)
          (decide ((freqPeriod p d).ticks ≤ cutoff)) (decide (d = 0) && lfoOn p) })]
  · intro c q ⟨hg, hr, hc⟩
    refine ⟨hg, hr, fun d => ?_⟩
    rw [recalcAll_chan]
    split
    · next e => subst e; exact hc d
    · exact hc d
  · intro c q ⟨hg, hr, hc⟩ d
    rw [recalcAll_chan, freqPeriod_congr (p := p) (by rw [hg]) (by rw [hg]) c (hc c).1 (hc 1).2, hr]
    have ho : lfoOn q = lfoOn p := by simp [lfoOn, hg]
    rw [ho]
  · exact ⟨rfl, rfl, fun _ => ⟨rfl, rfl⟩⟩

@[simp] theorem loadState_g (r : Record) (p : Psg) : (loadState r p).g = loadGlobal r :=
  (forChans_eq (fun q => q.g) (f := recalcAll) (fun _ _ => rfl) _).trans
    (forChans_eq (fun q => q.g) (f := fun c p => p.modChan c (loadChan c r.ch[c])) (fun _ _ => rfl) _)
@[simp] theorem loadState_rev (r : Record) (p : Psg) : (loadState r p).rev = p.rev :=
  (forChans_eq (fun q => q.rev) (f := recalcAll) (fun _ _ => rfl) _).trans
    (forChans_eq (fun q => q.rev) (f := fun c p => p.modChan c (loadChan c r.ch[c])) (fun _ _ => rfl) _)
@[simp] theorem loadState_hr (r : Record) (p : Psg) : (loadState r p).hr = p.hr :=
  (forChans_eq (fun q => q.hr) (f := recalcAll) (fun _ _ => rfl) _).trans
    (forChans_eq (fun q => q.hr) (f := fun c p => p.modChan c (loadChan c r.ch[c])) (fun _ _ => rfl) _)
@[simp] theorem loadState_hrOverrun (r : Record) (p : Psg) : (loadState r p).hrOverrun = p.hrOverrun :=
  (forChans_eq (fun q => q.hrOverrun) (f := recalcAll) (fun _ _ => rfl) _).trans
    (forChans_eq (fun q => q.hrOverrun) (f := fun c p => p.modChan c (loadChan c r.ch[c])) (fun _ _ => rfl) _)

/-- `LoadState` on a channel, but for the caches (47_lifecycle_host.md R235). -/
theorem loadState_chan (r : Record) (p : Psg) (c : ChanIdx) :
    ∃ f n o, (loadState r p).chan c
      = { loadChan c r.ch[c] (p.chan c) with freqCache := f, noiseFreqCache := n, outputFunction := o } := by
  have h : (forChans (fun c p => p.modChan c (loadChan c r.ch[c])) { p with g := loadGlobal r }).chan c
      = loadChan c r.ch[c] (p.chan c) :=
    forChans_chan (f := fun c p => p.modChan c (loadChan c r.ch[c])) (I := fun _ => True)
      (X := fun c x => loadChan c r.ch[c] x) (fun _ _ _ => trivial) (fun c p _ d => Psg.chan_modChan p c d _) trivial c
  simp only [loadState]
  rw [recalcEvery_chan, h]
  exact ⟨_, _, _, rfl⟩

end Sys2Proof.Machine
end

