-- ==== Sys2Proof/Tests/Slice0.lean ====
section
/-! SUPPORT. Tests: the checks of WellFormed, words written out by hand, one-step examples with the values the spec gives
(its worked examples and 95_test_vectors.md), and, for each statement with hypotheses, a concrete case that meets
them. -/

-- Proofs one after another: elaborated side by side they ask for one thread, and its stack, each.
set_option Elab.async false

namespace Sys2Proof.Tests

open Sys2Proof.Machine

/-! ### Helpers -/

/-- The machine after `Construct` with blank buffers. -/
def fresh (rev : Rev) : Psg := Psg.fresh rev blankHr

/-- A state around a machine. -/
def st (p : Psg) : State := ⟨p, [], .nothing⟩

/-- A machine with a channel selected. -/
def sel (n : Nat) (p : Psg) : Psg := p.modGlobal (fun g => { g with select := BitVec.ofNat 3 n })

/-- What `f` reads in the machine after an operation that answers a next state. -/
def after {α : Type} (i : Instr) (p : Psg) (f : Psg → α) : Option α :=
  match exec i (st p) with
  | .next t => some (f t.psg)
  | _ => none

/-- What an operation returns. -/
def result (i : Instr) (p : Psg) : Option HostResult :=
  match exec i (st p) with
  | .next t => some t.result
  | _ => none

/-- The word of a plain command, decoded. -/
def word (w : BitVec 16) (t : Int) : Except DecodeError Instr := decode (.plain w t)

/-! ### WellFormed refuses each ill-formed buffer -/

def badOrder : Memory := ⟨10, [(3, 1), (2, 1)]⟩
def badTwice : Memory := ⟨10, [(3, 1), (3, 1)]⟩
def badZero : Memory := ⟨10, [(3, 0)]⟩
def badCell : Memory := ⟨10, [(10, 1)]⟩
def goodCells : Memory := ⟨10, [(0, -4), (3, 1), (9, 7)]⟩

theorem test_wf_refuses_falling_cells : (Instr.constructRev0 ⟨badOrder, goodCells⟩).wf = false := by decide
theorem test_wf_refuses_repeated_cell : (Instr.constructRev0 ⟨goodCells, badTwice⟩).wf = false := by decide
theorem test_wf_refuses_zero_cell : (Instr.constructRevA ⟨badZero, goodCells⟩).wf = false := by decide
theorem test_wf_refuses_cell_outside : (Instr.constructRevA ⟨goodCells, badCell⟩).wf = false := by decide
theorem test_wf_accepts : (Instr.constructRevA ⟨goodCells, goodCells⟩).wf = true := by decide

/-! ### Decoding, one word per constructor, written out from 30_encoding.md R86 to R88 and R101 -/

theorem test_decode_writes :
    word 0b0000000000000101 9 = .ok (.wSelect 9 5) ∧ word 0b0000000111111000 9 = .ok (.wGbal 9 0xF8)
    ∧ word 0b0000001001100100 50 = .ok (.wFreqLo 50 100) ∧ word 0b0000001111110001 50 = .ok (.wFreqHi 50 0xF1)
    ∧ word 0b0000010010011111 100 = .ok (.wCtrl 100 0x9F) ∧ word 0b0000010100001111 20 = .ok (.wBal 20 0x0F)
    ∧ word 0b0000011000110101 1 = .ok (.wWave 1 0x35) ∧ word 0b0000011110011110 30 = .ok (.wNoise 30 0x9E)
    ∧ word 0b0000100000000010 40 = .ok (.wLfofreq 40 2) ∧ word 0b0000100110000001 60 = .ok (.wLfoctrl 60 0x81) := by
  decide

theorem test_decode_reserved_writes :
    word 0x0A01 1 = .ok (.wRsvdA 1 1) ∧ word 0x0B02 1 = .ok (.wRsvdB 1 2) ∧ word 0x0C03 1 = .ok (.wRsvdC 1 3)
    ∧ word 0x0D04 1 = .ok (.wRsvdD 1 4) ∧ word 0x0E05 1 = .ok (.wRsvdE 1 5) ∧ word 0x0FFF 1 = .ok (.wRsvdF 1 0xFF) := by
  decide

theorem test_decode_control :
    word 0b0001000000000000 5000 = .ok (.upd 5000) ∧ word 0b0010000000000000 6000 = .ok (.pwr 6000)
    ∧ word 0b0011000000000000 7 = .ok (.rts 7) ∧ word 0b1000000000000000 0 = .ok .save
    ∧ word 0b1001000000000000 0 = .ok (.load Record.zero) ∧ word 0b1111000000000000 0 = .ok (.constructRev0 blankHr)
    ∧ word 0b1111000100000000 0 = .ok (.constructRevA blankHr) ∧ word 0x1A5C 3 = .ok (.upd 3) := by decide +kernel

theorem test_decode_debug :
    word 0b0100000000001011 0 = .ok (.getreg (.chan 0 .lfsr)) ∧ word 0x4510 0 = .ok (.getreg (.chan 5 .ofn))
    ∧ word 0x4F08 0 = .ok (.getreg (.glob .xfLatch)) ∧ word 0b0101001100000000 0x1064 = .ok (.setreg (.chan 3 .freq) 0x1064)
    ∧ word 0b0110001000100001 0 = .ok (.peek 2 33) ∧ word 0b0111000000100011 0xFF = .ok (.poke 0 35 0xFF) := by decide

theorem test_decode_refuses :
    word 0xA000 0 = .error .reservedKind ∧ word 0xE0FF 0 = .error .reservedKind ∧ word 0xF200 0 = .error .badRevision
    ∧ word 0xFF00 0 = .error .badRevision ∧ word 0x4600 0 = .error .badChannel ∧ word 0x5E00 0 = .error .badChannel
    ∧ word 0x6600 0 = .error .badChannel ∧ word 0x7F00 0 = .error .badChannel ∧ word 0x4012 0 = .error .badField
    ∧ word 0x5F09 0 = .error .badField := by decide

theorem test_decode_canonical_buffers :
    decode { Command.plain 0xF100 0 with hr := ⟨badTwice, badCell⟩ }
      = .ok (.constructRevA ⟨⟨10, [(3, 2)]⟩, ⟨10, []⟩⟩) := by decide

theorem test_table_word : decodeTableWord 48 0x64049F = some (.wCtrl 100 0x9F) := by decide

/-- `withFetchWord` makes the very next step run the word, as the first operation after reset. -/
theorem test_fetch_word :
    (match step (State.reset.withFetchWord 16 0x000D) with
      | .next t => some (t.psg.g.select, t.queue.length)
      | _ => none) = some (5, 0) := by decide +kernel

/-! ### One step of each operation -/

/-- 46_register_writes.md R197. -/
theorem test_select : after (.wSelect 0 0x0D) (fresh .revA) (·.g.select) = some 5 := by decide

/-- 95_test_vectors.md V7.5. -/
theorem test_gbal :
    after (.wGbal 10 0xA5) (fresh .revA) (fun p => (p.g.globalBalance, p.g.xfPending, p.g.lastTs, p.g.xfCountdown))
      = some (0xA5, true, 10, 0) := by decide +kernel

/-- 46_register_writes.md R199. -/
theorem test_freq_lo :
    after (.wFreqLo 50 0x64) (sel 3 (fresh .revA)) (fun p => ((p.chan 3).frequency, (p.chan 3).freqCache.ticks))
      = some (0x064, 200) := by decide +kernel

/-- 46_register_writes.md R200. -/
theorem test_freq_hi :
    after (.wFreqHi 50 0xF1) (sel 3 ((fresh .revA).modChan 3 (fun x => { x with frequency := 0x064 })))
      (fun p => ((p.chan 3).frequency, (p.chan 3).freqCache.ticks)) = some (0x164, 712) := by decide +kernel

/-- 46_register_writes.md R204, first write. -/
theorem test_ctrl_enable :
    after (.wCtrl 0 0x9F) ((fresh .revA).modChan 0 (fun x => waveWrite x 1 9))
      (fun p => ((p.chan 0).waveformIndex, (p.chan 0).ddaLatch, (p.chan 0).outputFunction, p.g.xfPending))
      = some (1, 9, .normal, true) := by decide +kernel

/-- 95_test_vectors.md V7.15. -/
theorem test_ctrl_dda :
    after (.wCtrl 0 0x40)
      (sel 2 ((fresh .revA).modChan 2 (fun x =>
        { x with frequency := 16, freqCache := ⟨32, by decide⟩, waveformIndex := 9, counter := 77 })))
      (fun p => ((p.chan 2).waveformIndex, (p.chan 2).counter, (p.chan 2).outputFunction))
      = some (0, 32, .normal) := by decide +kernel

/-- 46_register_writes.md R205. -/
theorem test_bal :
    after (.wBal 20 0x0F) (sel 2 (fresh .revA)) (fun p => ((p.chan 2).balance, p.g.xfPending)) = some (0x0F, true) := by
  decide +kernel

/-- 95_test_vectors.md V7.10, second write: in DDA mode the index stays. -/
theorem test_wave_dda :
    after (.wWave 0 0x35) (sel 2 ((fresh .revA).modChan 2 (fun x => { x with control := 0xDF })))
      (fun p => (waveRead (p.chan 2) 0, (p.chan 2).sampleAccumulator, (p.chan 2).waveformIndex, (p.chan 2).ddaLatch))
      = some (0x15, 0x15, 0, 0x15) := by decide +kernel

/-- 95_test_vectors.md V7.12: the index wraps and, with `EN` clear, the latch stays. -/
theorem test_wave_wraps :
    after (.wWave 0 7) (sel 2 ((fresh .revA).modChan 2 (fun x => { x with waveformIndex := 31 })))
      (fun p => (waveRead (p.chan 2) 31, (p.chan 2).waveformIndex, (p.chan 2).ddaLatch)) = some (7, 0, 0) := by
  decide +kernel

/-- 46_register_writes.md R209. -/
theorem test_noise :
    after (.wNoise 0 0x9E) (sel 4 ((fresh .revA).modChan 4 (fun x => { x with control := 0x80 })))
      (fun p => ((p.chan 4).noiseControl, (p.chan 4).noiseFreqCache.ticks, (p.chan 4).outputFunction))
      = some (0x9E, 128, .noise) := by decide +kernel

/-- 95_test_vectors.md V7.19. -/
theorem test_noise_low_channel :
    after (.wNoise 0 0x9F) (sel 2 (fresh .revA)) (fun p => ((p.chan 2).noiseControl, (p.chan 2).noiseFreqCache.ticks))
      = some (0, 3968) := by decide +kernel

/-- 95_test_vectors.md V7.21. -/
theorem test_lfofreq :
    after (.wLfofreq 0 7) (fresh .revA) (fun p => (p.g.lfoFrequency, (p.chan 1).freqCache.ticks)) = some (7, 8192) := by
  decide +kernel

/-- The machine of the worked example of 46_register_writes.md R211. -/
def lfoExample : Psg :=
  (((fresh .revA).modChan 0 (fun x => { x with frequency := 0x200 })).modChan 1 (fun x =>
    { waveWrite x 0 20 with frequency := 0x010, freqCache := ⟨32, by decide⟩, waveformIndex := 3 })).modGlobal
      (fun g => { g with lfoFrequency := 2 })

/-- 46_register_writes.md R211. -/
theorem test_lfoctrl :
    after (.wLfoctrl 0 0x81) lfoExample (fun p => ((p.chan 1).waveformIndex, (p.chan 1).ddaLatch, (p.chan 1).counter,
      (p.chan 0).freqCache.ticks, (p.chan 1).freqCache.ticks)) = some (0, 20, 32, 1032, 64) := by decide +kernel

/-- 95_test_vectors.md V7.25 and V7.4. -/
theorem test_reserved :
    ∀ i ∈ [Instr.wRsvdA 5 0xFF, .wRsvdB 5 0xFF, .wRsvdC 5 0xFF, .wRsvdD 5 0xFF, .wRsvdE 5 0xFF, .wRsvdF 5 0xFF],
      after i (fresh .revA) (fun p => { p.g with lastTs := 0 }) = some Global.reset
      ∧ after i (fresh .revA) (·.g.lastTs) = some 5 := by decide +kernel

/-- The machine of 44_channel_run.md R171. -/
def runExample : Psg :=
  ((fresh .revA).modChan 2 (fun x =>
    { x with control := 0x9F, freqCache := ⟨200, by decide⟩, counter := 50, waveformIndex := 7, lastTs := 1000,
             outputFunction := .normal, waveform := Vector.ofFn (fun i => BitVec.ofNat 5 i.val), ddaLatch := 7,
             attenuation := ⟨0, 4⟩ })).modGlobal (fun g => { g with lastTs := 1000 })

/-- 44_channel_run.md R171, first call, with the levels of 95_test_vectors.md V8.1. -/
theorem test_run_loop :
    ((runChannel 2 1500 false runExample).chan 2).counter = 150
    ∧ ((runChannel 2 1500 false runExample).chan 2).waveformIndex = 10
    ∧ ((runChannel 2 1500 false runExample).chan 2).prev = ⟨-1877, -938⟩ := by decide +kernel

/-- 95_test_vectors.md V8.2: the fast path. -/
theorem test_run_fast :
    let p := (fresh .revA).modChan 2 (fun x =>
      { x with control := 0x9F, frequency := 3, freqCache := ⟨6, by decide⟩, outputFunction := .accumulate, counter := 4 })
    ((runChannel 2 100 false p).chan 2).counter = 6 ∧ ((runChannel 2 100 false p).chan 2).waveformIndex = 17 := by
  decide +kernel

/-- 95_test_vectors.md V8.3: the noise section. -/
theorem test_run_noise :
    let p := (fresh .rev0).modChan 4 (fun x =>
      { x with control := 0x9F, noiseControl := 0x9F, noiseFreqCache := ⟨64, by decide⟩, outputFunction := .noise,
               attenuation := ⟨0, 0⟩ })
    ((runChannel 4 200 false p).chan 4).noiseCount = 57 ∧ ((runChannel 4 200 false p).chan 4).lfsr = 0x3C000
    ∧ ((runChannel 4 200 false p).chan 4).counter = 7992 := by decide +kernel

/-- 44_channel_run.md R156 and 95_test_vectors.md V4.4. -/
theorem test_lfsr :
    clockLfsr 1 = 0x20000 ∧ clockLfsr 0x20000 = 0x30000 ∧ clockLfsr 0x00002 = 0x20001 ∧ clockLfsr 0x01800 = 0x00C00
    ∧ clockLfsr 0x15555 = 0x0AAAA ∧ clockLfsr 0x3FFFF = 0x3FFFF := by decide

/-- 95_test_vectors.md V6.13. -/
theorem test_inject :
    (inject 3 103 ⟨100, -7⟩ (fresh .revA)).hr
      = ⟨⟨65542, [(25, 600), (26, 11200), (27, 42500), (28, 64100), (29, 57900), (30, 25000), (31, 3500)]⟩,
         ⟨65542, [(25, -42), (26, -784), (27, -2975), (28, -4487), (29, -4053), (30, -1750), (31, -245)]⟩⟩ := by
  decide +kernel

/-- 95_test_vectors.md V6.14: the taps run into the guard cells. -/
theorem test_inject_guard_cells :
    (inject 0 (4 * 0xFFFF + 2) ⟨1, 0⟩ (fresh .revA)).hr.left.cells
      = [(65535, 6), (65536, 112), (65537, 425), (65538, 641), (65539, 579), (65540, 250), (65541, 35)] := by
  decide +kernel

/-- 95_test_vectors.md V1.4, V1.6, V1.12, V1.18 and V6.7, V6.8. -/
theorem test_levels :
    env .rev0 0 15 = 5120 ∧ env .revA 0 15 = -170 ∧ env .rev0 0 31 = 10581 ∧ env .rev0 15 17 = 431
    ∧ env .revA 15 17 = 38 ∧ envVol 8 = 21845
    ∧ level ((fresh .revA).modChan 2 (fun x =>
        { x with outputFunction := .accumulate, sampleAccumulator := 495, attenuation := ⟨0, 31⟩ })) 2 = ⟨-11, 0⟩
    ∧ level ((fresh .revA).modChan 2 (fun x =>
        { x with outputFunction := .accumulate, attenuation := ⟨0, 0⟩ })) 2 = ⟨-5291, -5291⟩ := by
  decide +kernel

/-- 40_envelope_table.md R110 to R112 by hand: the gain scales before the rounding (3/2 of 341.33 is 512, of 341 is not;
half of 87381.33 rounds to 43690; twice 10581.33 is 21162). -/
theorem test_gain :
    envFor ⟨3, 2, by decide, by decide⟩ .rev0 0 1 = 512 ∧ envVolFor ⟨1, 2, by decide, by decide⟩ 0 = 43690
    ∧ envFor ⟨2, 1, by decide, by decide⟩ .rev0 0 31 = 21162 ∧ envFor ⟨2, 1, by decide, by decide⟩ .revA 0 0 = -10581
    ∧ envFor ⟨2, 1, by decide, by decide⟩ .revA 31 0 = 0 := by decide +kernel

/-- 95_test_vectors.md V9.4: `UPD` at the time already reached starts the cycle. -/
theorem test_upd_same_time :
    after (.upd 0) ((fresh .revA).modGlobal (fun g => { g with xfPending := true }))
      (fun p => (p.g.xfCountdown, p.g.xfPending)) = some (1, false) := by decide +kernel

/-- 44_channel_run.md R172: the step is made in the `UPD` that ends on the tick where the counter expires. -/
theorem test_upd_steps :
    after (.upd 8192) ((fresh .revA).modChan 0 (fun x =>
        { x with control := 0x9F, frequency := 100, freqCache := ⟨200, by decide⟩, outputFunction := .normal,
                 waveformIndex := 1 }))
      (fun p => ((p.chan 0).waveformIndex, (p.chan 0).counter, p.g.lastTs)) = some (2, 200, 8192) := by decide +kernel

/-- The machine of 45_update_scheduler.md R193 after its three writes. -/
def xfExample : Psg :=
  ((fresh .revA).modChan 0 (fun x => { x with balance := 0xFF, control := 0x9F, outputFunction := .normal })).modGlobal
    (fun g => { g with globalBalance := 0xFF, xfPending := true, xfCountdown := 1 })

/-- 45_update_scheduler.md R193 at time 512. -/
theorem test_crossfade :
    after (.upd 512) xfExample (fun p => ((p.chan 0).attenuation, p.g.xfPhase, p.g.xfCountdown, p.g.xfPending))
      = some (⟨0, 0⟩, 4, 1, true) := by decide +kernel

/-- 95_test_vectors.md V9.1, rows 3, 4 and 9. -/
theorem test_target :
    let p (g b c : Byte) := ((fresh .revA).modChan 0 (fun x => { x with balance := b, control := c })).modGlobal
      (fun k => { k with globalBalance := g })
    targetAtt (p 0xFF 0xF8 0x9F) 0 .left = 0 ∧ targetAtt (p 0xFF 0xF8 0x9F) 0 .right = 15
    ∧ targetAtt (p 0xEE 0xDD 0x9C) 0 .left = 9 ∧ targetAtt (p 0x77 0x77 0x9F) 0 .right = 31 := by decide

/-- 47_lifecycle_host.md R228: `prev` and time survive a `PWR`, registers do not. -/
theorem test_pwr :
    after (.pwr 6000) ((fresh .revA).modGlobal (fun g => { g with lastTs := 6000, select := 3 })) (fun p =>
      (p.g.select, p.g.lastTs)) = some (0, 6000)
    ∧ after (.pwr 0) ((fresh .revA).modChan 2 (fun x => { x with prev := ⟨5, 6⟩, frequency := 9, counter := 3 }))
      (fun p => ((p.chan 2).prev, (p.chan 2).frequency, (p.chan 2).counter)) = some (⟨5, 6⟩, 0, 8192) := by
  decide +kernel

/-- 47_lifecycle_host.md R229. -/
theorem test_rts : after (.rts 7) runExample (fun p => (p.g.lastTs, (p.chan 2).lastTs, (p.chan 2).counter))
    = some (7, 7, 50) := by decide +kernel

/-- 47_lifecycle_host.md R230. -/
theorem test_getreg :
    result (.getreg (.chan 2 .counter)) runExample = some (.value 50)
    ∧ result (.getreg (.chan 2 .ofn)) runExample = some (.value 1) := by decide +kernel

/-- 47_lifecycle_host.md R231: `SET FREQ, 3, 0x1064`; an `NCTRL` of channel 3 is declined. -/
theorem test_setreg :
    after (.setreg (.chan 3 .freq) 0x1064) (fresh .revA)
      (fun p => ((p.chan 3).frequency, (p.chan 3).freqCache.ticks)) = some (0x064, 200)
    ∧ result (.setreg (.chan 3 .nctrl) 1) (fresh .revA) = some .declined := by decide +kernel

/-- 47_lifecycle_host.md R232. -/
theorem test_peek : result (.peek 2 33) ((fresh .revA).modChan 2 (fun x => waveWrite x 1 9)) = some (.value 9) := by
  decide +kernel

/-- 47_lifecycle_host.md R233. -/
theorem test_poke :
    after (.poke 0 35 0xFF) (fresh .revA) (fun p => (waveRead (p.chan 0) 3, (p.chan 0).sampleAccumulator))
      = some (31, 31) := by decide +kernel

/-- 47_lifecycle_host.md R234. -/
theorem test_save : result .save (fresh .revA) = some (.record (saveState (fresh .revA)))
    ∧ (saveState (fresh .revA)).ch[5].counter = 8192 := by decide +kernel

/-- 47_lifecycle_host.md R235: the repairs of a record. -/
theorem test_load :
    after (.load { Record.zero with select := 0xF, xfCountdown := 999, xfPhase := 25, lastTs := 3 }) (fresh .revA)
      (fun p => (p.g.select, p.g.xfCountdown, p.g.xfPhase, p.g.lastTs)) = some (7, 255, 1, 3)
    ∧ after (.load Record.zero) (fresh .revA)
      (fun p => ((p.chan 1).lfsr, (p.chan 1).counter, (p.chan 1).freqCache.ticks)) = some (1, 1, 8192) := by
  decide +kernel

/-- 47_lifecycle_host.md R224: the buffers are bound as they are. -/
theorem test_construct :
    after (.constructRev0 ⟨goodCells, goodCells⟩) runExample (fun p => (p.rev, p.hr.left, p.g.lastTs, (p.chan 2).counter))
      = some (.rev0, goodCells, 0, 8192)
    ∧ after (.constructRevA blankHr) runExample (fun p => (p.rev, p.g.lastTs)) = some (.revA, 0) := by decide +kernel

/-! ### For each statement with hypotheses, cases that meet them -/

/-- A state with one pending command. -/
def pending (k : Command) : State := { State.reset with queue := [k] }

/-- A machine with LFO mode on. -/
def lfoMachine (control : Byte) : Psg := (fresh .revA).modGlobal (fun g => { g with lfoControl := control })

/-- A machine with an enabled, sounding channel. -/
def sounding (c : ChanIdx) : Psg :=
  (fresh .revA).modChan c (fun x => { x with control := 0x9F, outputFunction := .normal })

/-- Constructed machines with any select meet the invariants. -/
theorem sel_inv (rev : Rev) (n : Nat) : (sel n (fresh rev)).Inv where
  sound := by
    intro c
    rw [sel, fresh, Psg.chan_modGlobal, fresh_chan]
    exact ⟨by decide, .inr ⟨31, by decide, by decide, rfl⟩, by decide, by decide, by decide, fun _ => rfl⟩
  period := by
    intro c
    rw [sel, fresh, Psg.chan_modGlobal, fresh_chan]
    exact ⟨4096, 1, by decide, by decide, by decide, by decide, rfl, fun _ => rfl⟩
  stamps := by intro c; rw [sel, fresh, Psg.chan_modGlobal, fresh_chan]; rfl
  phase := (by decide : 0 < 24)
  countdown := (by decide : 0 ≤ 255)
  left_wf := rfl
  right_wf := rfl
  no_overrun := rfl

theorem witness_DecodeEncodeAgree :
    (Instr.constructRevA ⟨goodCells, goodCells⟩).wf = true ∧ (Instr.setreg (.chan 5 .lfsr) (-1)).wf = true := by decide

theorem witness_EncodeDecodedKeepsFields :
    word 0x0FFF 9 = .ok (.wRsvdF 9 0xFF) ∧ (cwKind 0x0FFF).toNat = 0x0 ∧ word 0x7523 (-3) = .ok (.poke 5 0x23 (-3))
    ∧ (cwKind 0x7523).toNat = 0x7 ∧ word 0xF1AB 1 = .ok (.constructRevA blankHr) ∧ (cwKind 0xF1AB).toNat = 0xF := by
  decide +kernel

theorem witness_StepRunsOldestOperation :
    (pending (.plain 0x1000 5)).queue = [.plain 0x1000 5] ∧ decode (.plain 0x1000 5) = .ok (.upd 5)
    ∧ (Instr.upd 5).wf = true ∧ Command.plain 0x1000 5 = encode (.upd 5) := by decide +kernel

theorem witness_StepWithoutOperation :
    State.reset.queue = [] ∧ word 0xA000 0 = .error .reservedKind ∧ word 0xEFFF 0 = .error .reservedKind
    ∧ word 0x6600 0 = .error .badChannel ∧ word 0x4012 0 = .error .badField := by decide

theorem witness_BadRevisionIsFatal :
    (pending (.plain 0xF200 0)).queue = [.plain 0xF200 0] ∧ (cwKind 0xF200).toNat = 0xF ∧ 2 ≤ (cwA 0xF200).toNat
    ∧ (cwKind 0xFF00).toNat = 0xF ∧ 2 ≤ (cwA 0xFF00).toNat := by decide +kernel

theorem witness_AttenuationThirtyOneIsSilent : ((sounding 3).chan 3).attenuation = ⟨31, 31⟩ := by decide

theorem witness_EnvelopeShape : (0 : Sample) ≠ 31 ∧ (30 : Sample) ≠ 31 := by decide

theorem witness_EnvelopeExactForm : (0 : Sample) ≠ 31 ∧ (30 : Sample) ≠ 31 := by decide

theorem witness_PlainPeriod :
    lfoOn (fresh .revA) = false ∧ ((2 : ChanIdx) ≠ 0 ∧ (2 : ChanIdx) ≠ 1) ∧ lfoOn (lfoMachine 1) = true
    ∧ ((fresh .revA).chan 0).frequency = 0
    ∧ (((fresh .revA).modChan 2 (fun x => { x with frequency := 1 })).chan 2).frequency = 1
    ∧ (((fresh .revA).modChan 2 (fun x => { x with frequency := 100 })).chan 2).frequency = 100 := by decide

theorem witness_LfoPeriods :
    modeField (lfoMachine 0x01).g.lfoControl ≠ 0 ∧ modeField (lfoMachine 0x83).g.lfoControl ≠ 0 := by decide

/-- A channel with given control, noise control and period, for the rows of the selector table. -/
def selectorCase (control noise : Byte) (period : Period) : Psg :=
  (fresh .revA).modChan 5 (fun x => { x with control := control, noiseControl := noise, freqCache := period })

theorem witness_OutputFunctionTable :
    (∀ n ∈ [(0x1F : Byte), 0x5F, 0x80, 0xC0], ((selectorCase n 0x80 ⟨10, by decide⟩).chan 5).control = n)
    ∧ ((selectorCase 0x80 0 ⟨10, by decide⟩).chan 5).freqCache.ticks ≤ 10
    ∧ ¬ ((selectorCase 0x80 0 ⟨11, by decide⟩).chan 5).freqCache.ticks ≤ 10
    ∧ ((selectorCase 0x80 0 ⟨10, by decide⟩).chan 5).noiseControl.getLsbD 7 = false
    ∧ ((selectorCase 0xC0 0x80 ⟨10, by decide⟩).chan 5).noiseControl.getLsbD 7 = true
    ∧ (fresh .rev0).rev = .rev0 := by decide

theorem witness_LevelOfFunction :
    ∀ f ∈ [OutFn.off, .normal, .noise, .accumulate],
      (((fresh .rev0).modChan 1 (fun x => { x with outputFunction := f })).chan 1).outputFunction = f := by decide

theorem witness_InjectAddsTaps :
    (0 : Int) ≤ 0 ∧ (0 : Int) ≤ 4 * 65535 + 2 ∧ (fresh .revA).ready ∧ (fresh .revA).hr.left.wf = true
    ∧ (fresh .revA).hr.right.wf = true := by decide

theorem witness_InjectSameSlotMerges :
    (0 : Int) ≤ 102 ∧ (102 : Int) / 2 = 103 / 2 ∧ (fresh .revA).ready ∧ (fresh .revA).hr.left.wf = true
    ∧ (fresh .revA).hr.right.wf = true := by decide

/-- A machine that owes an injection, over buffers of `n` cells. -/
def owing (n : Nat) : Psg :=
  (Psg.fresh .revA ⟨Memory.blank n, Memory.blank n⟩).modChan 0 (fun x => { x with prev := ⟨1, 0⟩ })

theorem witness_ShortBufferFaults :
    (Stereo.mk (0 : Int) 0).get .left ≠ ((owing 6).chan 0).prev.get .left
    ∧ (((owing 6).hr.get .left).len : Int) ≤ (0 : Int) / 4 % 65536 + 6 ∧ (update 1 (owing 6)).hrOverrun = true
    ∧ (update 1 (owing 7)).hrOverrun = false ∧ (owing 6).inOrder 1 ∧ (1 : Int) ≠ (owing 6).g.lastTs
    ∧ ({ owing 6 with hrOverrun := true } : Psg).inOrder 0 ∧ ((owing 6).chan 0).lastTs ≤ 0
    ∧ 0 ≤ (owing 6).g.lastTs ∧ (owing 6).g.lastTs < 1 ∧ ((owing 6).chan 0).lastTs = (owing 6).g.lastTs
    ∧ ¬ ((0 : ChanIdx) = 1 ∧ modulationLive (owing 6) = true)
    ∧ (level (update (owing 6).g.lastTs (owing 6)) 0).get .left
      ≠ ((update (owing 6).g.lastTs (owing 6)).chan 0).prev.get .left := by decide +kernel

theorem witness_LfsrClock : (1 : BitVec 18) ≠ 0 ∧ (0x3FFFF : BitVec 18) ≠ 0 := by decide

theorem witness_WaveformStepsPerPeriod :
    ¬ ((2 : ChanIdx) = 0 ∧ true = true) ∧ (runExample.chan 2).lastTs < 1001
    ∧ (runExample.chan 2).control.getLsbD 7 = true ∧ (runExample.chan 2).control.getLsbD 6 = false
    ∧ stepsWithin (runExample.chan 2).counter (1049 - 1000) 200 = 0
    ∧ stepsWithin (runExample.chan 2).counter (1050 - 1000) 200 = 1 ∧ 10 < (runExample.chan 2).freqCache.ticks
    ∧ ((selectorCase 0x80 0 ⟨10, by decide⟩).chan 5).freqCache.ticks ≤ 10
    ∧ ((selectorCase 0x80 0 ⟨10, by decide⟩).chan 5).control.getLsbD 7 = true
    ∧ ((selectorCase 0x80 0 ⟨10, by decide⟩).chan 5).lastTs < 1 := by decide

theorem witness_NoiseClocksPerPeriod :
    ((fresh .rev0).chan 4).lastTs < 1 ∧ ((fresh .rev0).chan 3).lastTs < 1 ∧ 4 ≤ (4 : ChanIdx).val
    ∧ (3 : ChanIdx).val < 4 ∧ ((fresh .rev0).chan 4).control.getLsbD 7 = false
    ∧ stepsWithin ((fresh .rev0).chan 4).noiseCount 1 3968 = 1 := by decide

theorem witness_StoppedChannelHolds :
    ((fresh .revA).chan 3).lastTs < 1 ∧ ((fresh .revA).chan 3).control.getLsbD 7 = false
    ∧ (((fresh .revA).modChan 4 (fun x => { x with control := 0xC0 })).chan 4).control.getLsbD 6 = true
    ∧ (lfoMachine 0x80).g.lfoControl.getLsbD 7 = true := by decide

theorem witness_CarrierStepsWithModulator :
    ((sounding 0).chan 0).lastTs < 8191 ∧ ((sounding 0).chan 0).control.getLsbD 7 = true
    ∧ ((sounding 0).chan 0).control.getLsbD 6 = false ∧ (sounding 0).g.lfoControl.getLsbD 7 = false
    ∧ 8191 - ((sounding 0).chan 0).lastTs < ((sounding 0).chan 0).counter
    ∧ 8192 - ((sounding 0).chan 0).lastTs = ((sounding 0).chan 0).counter
    ∧ ((sounding 0).chan 0).lastTs < 30000 ∧ ((sounding 0).chan 0).counter < 30000 - ((sounding 0).chan 0).lastTs := by
  decide

theorem witness_UpdateReachesItsTime :
    (sel 5 (fresh .rev0)).Inv ∧ (sel 5 (fresh .rev0)).inOrder 0 ∧ (sel 5 (fresh .rev0)).inOrder 9000
    ∧ 0 ≤ (fresh .revA).g.lastTs ∧ (fresh .revA).g.lastTs < 1
    ∧ (update (fresh .revA).g.lastTs (fresh .revA)).g.xfCountdown = 0
    ∧ (let p := (fresh .revA).modGlobal (fun g => { g with xfPending := true })
       (update p.g.lastTs p).g.xfCountdown = 1) :=
  ⟨sel_inv .rev0 5, by decide, by decide, by decide, by decide, by decide +kernel, by decide +kernel⟩

theorem witness_UpdateAtSameTime : 0 ≤ (lfoMachine 0x81).g.lastTs ∧ modeField (lfoMachine 0x81).g.lfoControl ≠ 0 := by
  decide

theorem witness_UpdateKeepsRegisters : runExample.inOrder 1000 ∧ runExample.inOrder 1001 := by decide

theorem witness_UpdateAddsOnlyInItsInterval :
    (sel 5 (fresh .rev0)).Inv ∧ (sel 5 (fresh .rev0)).inOrder 3
    ∧ ∀ at_ : Int, (sel 5 (fresh .rev0)).g.lastTs ≤ at_ → at_ ≤ 3 →
      ¬ ((at_ / 4 % 65536).toNat ≤ 7 ∧ 7 ≤ (at_ / 4 % 65536).toNat + 6) := by
  refine ⟨sel_inv .rev0 5, by decide, fun a h0 h3 => ?_⟩
  have : (0 : Int) ≤ a := h0
  omega

theorem witness_ConstructedMachineIsSilent : (0 : Int) ≤ 0 ∧ (0 : Int) ≤ 100000 := by decide

theorem witness_CrossfadeStep :
    (fresh .revA).g.xfPhase = 4 * (0 : ChanIdx).val + (if Side.right = .left then 2 else 0) + (if false = true then 1 else 0)
    ∧ ((fresh .revA).modGlobal (fun g => { g with xfPhase := 23 })).g.xfPhase
      = 4 * (5 : ChanIdx).val + (if Side.left = .left then 2 else 0) + (if true = true then 1 else 0) := by decide

theorem witness_CrossfadeTimeline :
    let p := (fresh .revA).modGlobal (fun g => { g with xfPending := true })
    0 ≤ p.g.lastTs ∧ p.g.xfPending = true ∧ p.g.xfCountdown = 0 ∧ p.g.xfPhase = 0 ∧ 0 ≤ 12 ∧ 12 ≤ 12 := by decide

theorem witness_CrossfadeRequestSources :
    after (.wBal 0 7) (fresh .revA) (·.g.xfPending) = some true ∧ (fresh .revA).g.xfPending = false
    ∧ after (.load { Record.zero with xfPending := true }) (fresh .revA) (·.g.xfPending) = some true := by
  decide +kernel

theorem witness_ResetMeetsInvariants :
    (Stereo.mk goodCells goodCells).left.wf = true ∧ (Stereo.mk goodCells goodCells).right.wf = true := by decide

theorem witness_StepKeepsInvariants :
    (sel 5 (fresh .revA)).Inv ∧ decode (.plain 0x049F 100) = .ok (.wCtrl 100 0x9F)
    ∧ dutiful (sel 5 (fresh .revA)) (.wCtrl 100 0x9F) ∧ dutiful (sel 5 (fresh .revA)) (.rts 0)
    ∧ after (.wCtrl 100 0x9F) (sel 5 (fresh .revA)) (·.g.lastTs) = some 100 :=
  ⟨sel_inv .revA 5, by decide, (by decide : (sel 5 (fresh .revA)).inOrder 100), (by decide : (0 : Int) ≤ 0),
    by decide +kernel⟩

theorem witness_StepKeepsCaches :
    (fresh .rev0).cachesKept ∧ after (.wLfoctrl 0 1) (fresh .rev0) (fun p => (p.chan 0).freqCache.ticks) = some 8160 :=
  ⟨by unfold Psg.cachesKept; decide, by decide +kernel⟩

theorem witness_AccumulatorIsWaveformSum :
    (∀ c, ((fresh .rev0).chan c).sampleAccumulator = waveSum ((fresh .rev0).chan c).waveform)
    ∧ after (.wWave 0 31) (fresh .rev0) (fun p => (p.chan 0).sampleAccumulator) = some 31 := by decide +kernel

theorem witness_BufferSumTelescopes :
    (sounding 0).ready ∧ dutiful (sounding 0) (.upd 9)
    ∧ after (.upd 9) ((sounding 0).modChan 0 (fun x => { x with attenuation := ⟨0, 0⟩, ddaLatch := 16 }))
      (fun p => (hrTotal p .left, prevTotal p .left)) = some (2048 * 170, 170) :=
  ⟨by decide, (by decide : (sounding 0).inOrder 9), by decide +kernel⟩

theorem witness_BuffersAreNeverRead :
    sameButCells (Psg.fresh .revA ⟨goodCells, goodCells⟩) (Psg.fresh .revA ⟨⟨10, []⟩, ⟨10, [(1, 1)]⟩⟩)
    ∧ sameButCells (fresh .revA) { fresh .revA with hr := ⟨⟨65542, [(3, 4)]⟩, blankHr.right⟩ }
    ∧ (fresh .revA).ready ∧ dutiful (fresh .revA) (.upd 9) ∧ (fresh .revA).hr.left.wf = true
    ∧ (Memory.mk 65542 [(3, 4)]).wf = true ∧ after (.upd 9) (fresh .revA) (·.g.lastTs) = some 9 :=
  ⟨⟨rfl, rfl, fun _ => rfl, rfl, rfl, rfl⟩, ⟨rfl, rfl, fun _ => rfl, rfl, rfl, rfl⟩, by decide,
    (by decide : (fresh .revA).inOrder 9), rfl, by decide, by decide +kernel⟩

theorem witness_SelectWrite :
    (fresh .revA).inOrder 0 ∧ 6 ≤ (0x06 : Byte).toNat % 8 ∧ 6 ≤ (0xFF : Byte).toNat % 8
    ∧ after (.wSelect 0 0x0D) (fresh .revA) (·.g.select) = some 5 := by decide

/-- The hypotheses of the write statements: a ready machine, a timestamp in order (the old one and a later one), and
the select at the first and the last channel and at both values that name none. -/
theorem witness_writes :
    (sel 0 (fresh .revA)).ready ∧ (sel 0 (fresh .revA)).inOrder 0 ∧ (sel 5 (fresh .revA)).inOrder 70
    ∧ (sel 0 (fresh .revA)).g.select.toNat = (0 : ChanIdx).val ∧ (sel 5 (fresh .revA)).g.select.toNat = (5 : ChanIdx).val
    ∧ 6 ≤ (sel 6 (fresh .revA)).g.select.toNat ∧ 6 ≤ (sel 7 (fresh .revA)).g.select.toNat := by decide

theorem witness_BalanceWrites : (sel 5 (fresh .revA)).ready ∧ (sel 5 (fresh .revA)).inOrder 70
    ∧ (sel 5 (fresh .revA)).g.select.toNat = (5 : ChanIdx).val := by decide

theorem witness_FrequencyLowWrite : (sel 0 (fresh .revA)).ready ∧ (sel 0 (fresh .revA)).inOrder 0
    ∧ (sel 0 (fresh .revA)).g.select.toNat = (0 : ChanIdx).val ∧ 6 ≤ (sel 6 (fresh .revA)).g.select.toNat := by decide

theorem witness_FrequencyHighWrite : (sel 1 (fresh .revA)).ready ∧ (sel 1 (fresh .revA)).inOrder 8
    ∧ (sel 1 (fresh .revA)).g.select.toNat = (1 : ChanIdx).val := by decide

theorem witness_ControlWrite : (sel 5 (fresh .rev0)).ready ∧ (sel 5 (fresh .rev0)).inOrder 8
    ∧ (sel 5 (fresh .rev0)).g.select.toNat = (5 : ChanIdx).val := by decide

theorem witness_WaveformDataWrite : (sel 2 (fresh .revA)).ready ∧ (sel 2 (fresh .revA)).inOrder 8
    ∧ (sel 2 (fresh .revA)).g.select.toNat = (2 : ChanIdx).val := by decide

theorem witness_NoiseWrite :
    (sel 4 (fresh .revA)).ready ∧ (sel 4 (fresh .revA)).inOrder 8
    ∧ (sel 4 (fresh .revA)).g.select.toNat = (4 : ChanIdx).val ∧ 4 ≤ (4 : ChanIdx).val
    ∧ (sel 3 (fresh .revA)).g.select.toNat = (3 : ChanIdx).val ∧ (3 : ChanIdx).val < 4 := by decide

theorem witness_LfoWrites : (fresh .revA).ready ∧ (fresh .revA).inOrder 0 := by decide

theorem witness_UpdateAndReservedWrites : (fresh .revA).ready ∧ (fresh .revA).inOrder 0 := by decide

theorem witness_NoChannelSelectedWrites :
    (sel 6 (fresh .revA)).ready ∧ (sel 6 (fresh .revA)).inOrder 4 ∧ 6 ≤ (sel 6 (fresh .revA)).g.select.toNat
    ∧ 6 ≤ (sel 7 (fresh .revA)).g.select.toNat := by decide

theorem witness_PowerResets : (sounding 3).ready ∧ (sounding 3).inOrder 0 ∧ (sounding 3).inOrder 5 := by decide

theorem witness_TimeBaseRebased : (0 : Int) ≤ 0 ∧ (0 : Int) ≤ 7 := by decide

theorem witness_SetChannelField :
    settable (.chan 4 .nctrl) = true ∧ settable (.chan 0 .freq) = true ∧ settable (.chan 5 .lfsr) = true
    ∧ (2 ^ 18 : Int) % 2 ^ 18 = 0 := by decide

theorem witness_SetGlobalField :
    ∀ f ∈ [GlobField.select, .gbal, .lfofreq, .lfoctrl], settable (.glob f) = true := by decide

theorem witness_UnsettableFieldDeclined :
    settable (.chan 3 .nctrl) = false ∧ settable (.chan 0 .acc) = false ∧ settable (.glob .xfLatch) = false := by decide

/-- Both sides of the equivalence occur: fresh caches, and a stale period of the modulator. -/
theorem witness_SaveLoadRoundTrip :
    (sel 5 (fresh .rev0)).Inv ∧ (sel 5 (fresh .rev0)).cacheFresh
    ∧ ¬ ((lfoMachine 1).chan 0).freqCache = freqPeriod (lfoMachine 1) 0 :=
  ⟨sel_inv .rev0 5, by unfold Psg.cacheFresh; decide, by decide⟩

end Sys2Proof.Tests
end

section
/-! PROOFS. One step of the machine, by the head of its queue and what the decoder says of it (00_scope.md R5,
30_encoding.md R90, R96). -/

namespace Sys2Proof.Machine

/-- Decoding undoes encoding for every well-formed instruction (30_encoding.md R86, R87): the per-constructor lemmas
put together. -/
theorem decode_encode : ∀ i : Instr, Laws.RoundTrip.Statement i
  | .wSelect ts v => Laws.RoundTrip.wSelect ts v
  | .wGbal ts v => Laws.RoundTrip.wGbal ts v
  | .wFreqLo ts v => Laws.RoundTrip.wFreqLo ts v
  | .wFreqHi ts v => Laws.RoundTrip.wFreqHi ts v
  | .wCtrl ts v => Laws.RoundTrip.wCtrl ts v
  | .wBal ts v => Laws.RoundTrip.wBal ts v
  | .wWave ts v => Laws.RoundTrip.wWave ts v
  | .wNoise ts v => Laws.RoundTrip.wNoise ts v
  | .wLfofreq ts v => Laws.RoundTrip.wLfofreq ts v
  | .wLfoctrl ts v => Laws.RoundTrip.wLfoctrl ts v
  | .wRsvdA ts v => Laws.RoundTrip.wRsvdA ts v
  | .wRsvdB ts v => Laws.RoundTrip.wRsvdB ts v
  | .wRsvdC ts v => Laws.RoundTrip.wRsvdC ts v
  | .wRsvdD ts v => Laws.RoundTrip.wRsvdD ts v
  | .wRsvdE ts v => Laws.RoundTrip.wRsvdE ts v
  | .wRsvdF ts v => Laws.RoundTrip.wRsvdF ts v
  | .upd ts => Laws.RoundTrip.upd ts
  | .pwr ts => Laws.RoundTrip.pwr ts
  | .rts base => Laws.RoundTrip.rts base
  | .getreg id => Laws.RoundTrip.getreg id
  | .setreg id v => Laws.RoundTrip.setreg id v
  | .peek c j => Laws.RoundTrip.peek c j
  | .poke c j v => Laws.RoundTrip.poke c j v
  | .save => Laws.RoundTrip.save
  | .load r => Laws.RoundTrip.load r
  | .constructRev0 hr => Laws.RoundTrip.constructRev0 hr
  | .constructRevA hr => Laws.RoundTrip.constructRevA hr

/-- A step with no operation pending (log 1). -/
theorem step_of_queue_nil {s : State} (hq : s.queue = []) : step s = .next s := by
  simp only [step, hq]

/-- A step with operations pending performs the oldest one and drops it from the queue. -/
theorem step_of_queue_cons {s : State} {k : Command} {rest : List Command} (hq : s.queue = k :: rest) :
    step s = performCommand k { s with queue := rest } := by
  simp only [step, hq]

/-- Performing a command that decodes. -/
theorem performCommand_of_decode_ok {k : Command} {i : Instr} (hi : decode k = .ok i) (s : State) :
    performCommand k s = exec i s := by
  simp only [performCommand, hi]

/-- Performing a command the decoder refuses: the machine's state plays no part. -/
theorem performCommand_of_decode_error {k : Command} {e : DecodeError} (he : decode k = .error e) (s : State) :
    performCommand k s = refuseCommand e := by
  simp only [performCommand, he]

/-- A step whose oldest command decodes to `i` is `exec i` on the rest of the queue. -/
theorem step_of_decode_ok {s : State} {k : Command} {rest : List Command} {i : Instr} (hq : s.queue = k :: rest)
    (hi : decode k = .ok i) : step s = exec i { s with queue := rest } :=
  (step_of_queue_cons hq).trans (performCommand_of_decode_ok hi _)

/-- A step whose oldest command the decoder refuses stops as `refuseCommand` says. -/
theorem step_of_decode_error {s : State} {k : Command} {rest : List Command} {e : DecodeError}
    (hq : s.queue = k :: rest) (he : decode k = .error e) : step s = refuseCommand e :=
  (step_of_queue_cons hq).trans (performCommand_of_decode_error he _)

/-- Settles O5: a step is `exec` of what the head of the queue decodes to, and an encoding decodes to its
instruction. -/
theorem stepRunsOldestOperation : Obligations.StepRunsOldestOperation := by
  intro s k rest i hq
  refine ⟨step_of_decode_ok hq, fun hwf hk => step_of_decode_ok hq ?_⟩
  rw [hk]
  exact decode_encode i hwf

/-- Settles O6: the empty queue, and the three refusals of the decoder by name. -/
theorem stepWithoutOperation : Obligations.StepWithoutOperation :=
  ⟨fun _ => step_of_queue_nil, fun _ _ _ hq =>
    ⟨step_of_decode_error hq, step_of_decode_error hq, step_of_decode_error hq⟩⟩

end Sys2Proof.Machine
end

section
/-! PROOFS. The exact integer form of the envelope (40_envelope_table.md R113), for every gain: first the amplitude
over the integers, then the signed table entries, which round toward zero. -/

namespace Sys2Proof.Machine

/-- The defining bounds of the amplitude, scaled to an integer of either sign: the fourth powers do not see the sign
(40_envelope_table.md R113). -/
theorem ampFloor_bounds (g : Gain) (a : Nat) (n : Int) :
    (3 * g.den * (ampFloor g a n.natAbs : Int)) ^ 4 * 2 ^ a ≤ (g.num * n) ^ 4
    ∧ (g.num * n) ^ 4 < (3 * g.den * ((ampFloor g a n.natAbs : Int) + 1)) ^ 4 * 2 ^ a := by
  obtain ⟨hfits, hnext⟩ := ampFloor_spec g a n.natAbs
  simp only [ampFits, decide_eq_true_eq] at hfits
  simp only [ampFits, decide_eq_false_iff_not, Nat.not_le] at hnext
  have habs : ((g.num * n.natAbs : Nat) : Int) ^ 4 = (g.num * n) ^ 4 := by
    rw [Nat.cast_mul, Int.natCast_natAbs, mul_pow, mul_pow, Even.pow_abs (by decide)]
  rw [← habs]
  exact ⟨by exact_mod_cast hfits, by exact_mod_cast hnext⟩

/-- The amplitude scaled to nothing is nothing. -/
theorem ampFloor_zero (g : Gain) (a : Nat) : ampFloor g a 0 = 0 := by
  simpa [ampFits, g.den_pos.ne'] using (ampFloor_spec g a 0).1

/-- An entry below level 31: the amplitude with the sign of the effective sample. -/
theorem envFor_of_ne {a : Sample} (ha : a ≠ 31) (g : Gain) (rev : Rev) (x : Sample) :
    envFor g rev a x = (512 * effSample rev x).sign * ampFloor g a.toNat (512 * effSample rev x).natAbs :=
  if_neg ha

/-- A volume entry below level 31: the amplitude scaled to full volume. -/
theorem envVolFor_of_ne {a : Sample} (ha : a ≠ 31) (g : Gain) : envVolFor g a = ampFloor g a.toNat 262144 :=
  if_neg ha

/-- The magnitude of an entry is the amplitude, also where the effective sample, and so its sign, is 0. -/
theorem natAbs_envFor {a : Sample} (ha : a ≠ 31) (g : Gain) (rev : Rev) (x : Sample) :
    (envFor g rev a x).natAbs = ampFloor g a.toNat (512 * effSample rev x).natAbs := by
  rw [envFor_of_ne ha, Int.natAbs_mul, Int.natAbs_natCast]
  by_cases hn : 512 * effSample rev x = 0
  · rw [hn, Int.natAbs_zero, ampFloor_zero, Nat.mul_zero]
  · rw [Int.natAbs_sign_of_ne_zero hn, Nat.one_mul]

/-- An entry never has the sign opposite to its effective sample's. -/
theorem envFor_mul_nonneg {a : Sample} (ha : a ≠ 31) (g : Gain) (rev : Rev) (x : Sample) :
    0 ≤ envFor g rev a x * (g.num * (512 * effSample rev x)) := by
  have hsign := Int.sign_mul_self_eq_natAbs (512 * effSample rev x)
  calc (0 : Int) ≤ (ampFloor g a.toNat (512 * effSample rev x).natAbs * g.num)
          * ((512 * effSample rev x).sign * (512 * effSample rev x)) := by rw [hsign]; positivity
    _ = envFor g rev a x * (g.num * (512 * effSample rev x)) := by rw [envFor_of_ne ha]; ring

/-- An entry of REV_0 is not negative: no effective sample is (40_envelope_table.md R109). -/
theorem envFor_rev0_nonneg {a : Sample} (ha : a ≠ 31) (g : Gain) (x : Sample) : 0 ≤ envFor g .rev0 a x := by
  rw [envFor_of_ne ha]
  have heff : 0 ≤ 512 * effSample .rev0 x := by simp only [effSample]; positivity
  exact mul_nonneg (Int.sign_nonneg_iff.mpr heff) (Int.natCast_nonneg _)

/-- Every entry below level 31 is the one of the exact integer form, up to its sign (40_envelope_table.md R110 to
R113). -/
theorem envFor_bounds {a : Sample} (ha : a ≠ 31) (g : Gain) (rev : Rev) (x : Sample) :
    (3 * g.den * envFor g rev a x) ^ 4 * 2 ^ a.toNat ≤ (g.num * (512 * effSample rev x)) ^ 4
    ∧ (g.num * (512 * effSample rev x)) ^ 4 < (3 * g.den * ((envFor g rev a x).natAbs + 1)) ^ 4 * 2 ^ a.toNat := by
  have habs : (3 * g.den * envFor g rev a x) ^ 4 = (3 * g.den * ((envFor g rev a x).natAbs : Int)) ^ 4 := by
    rw [mul_pow, mul_pow _ ((envFor g rev a x).natAbs : Int), Int.natCast_natAbs, Even.pow_abs (by decide)]
  rw [habs, natAbs_envFor ha]
  exact ampFloor_bounds g a.toNat _

/-- The REV_0 entries of a gain, with the sign settled (40_envelope_table.md R109 to R113). -/
theorem envFor_rev0_exact {a : Sample} (ha : a ≠ 31) (g : Gain) (x : Sample) :
    0 ≤ envFor g .rev0 a x
    ∧ (3 * g.den * envFor g .rev0 a x) ^ 4 * 2 ^ a.toNat ≤ (g.num * (512 * (2 * (x.toNat : Int)))) ^ 4
    ∧ (g.num * (512 * (2 * (x.toNat : Int)))) ^ 4 < (3 * g.den * (envFor g .rev0 a x + 1)) ^ 4 * 2 ^ a.toNat := by
  have hpos := envFor_rev0_nonneg ha g x
  have hbounds := envFor_bounds ha g .rev0 x
  rw [Int.natAbs_of_nonneg hpos] at hbounds
  exact ⟨hpos, hbounds⟩

/-- The REV_A entries of a gain: they round toward zero on either side (40_envelope_table.md R109 to R113). -/
theorem envFor_revA_exact {a : Sample} (ha : a ≠ 31) (g : Gain) (x : Sample) :
    0 ≤ envFor g .revA a x * (g.num * (512 * (2 * (x.toNat : Int) - 31)))
    ∧ (3 * g.den * envFor g .revA a x) ^ 4 * 2 ^ a.toNat ≤ (g.num * (512 * (2 * (x.toNat : Int) - 31))) ^ 4
    ∧ (g.num * (512 * (2 * (x.toNat : Int) - 31))) ^ 4
        < (3 * g.den * ((envFor g .revA a x).natAbs + 1)) ^ 4 * 2 ^ a.toNat :=
  ⟨envFor_mul_nonneg ha g .revA x, envFor_bounds ha g .revA x⟩

/-- The volume entries of a gain (40_envelope_table.md R110, R112, R113). -/
theorem envVolFor_exact {a : Sample} (ha : a ≠ 31) (g : Gain) :
    0 ≤ envVolFor g a ∧ (3 * g.den * envVolFor g a) ^ 4 * 2 ^ a.toNat ≤ (g.num * 262144) ^ 4
    ∧ ((g.num : Int) * 262144) ^ 4 < (3 * g.den * (envVolFor g a + 1)) ^ 4 * 2 ^ a.toNat := by
  rw [envVolFor_of_ne ha]
  exact ⟨Int.natCast_nonneg _, ampFloor_bounds g a.toNat 262144⟩

/-- Settles O10: the exact form holds for every gain; the default tables are its case of gain 1, and are the printed
ones. -/
theorem envelopeExactForm : Obligations.EnvelopeExactForm := by
  refine ⟨fun a x ha => ?_, fun a x => ⟨fun rev => env_eq_table rev a x, envVol_eq_table a⟩, fun g a x ha =>
    ⟨envFor_rev0_exact ha g x, envFor_revA_exact ha g x, envVolFor_exact ha g⟩⟩
  have hone : (gain.num : Int) = 1 ∧ (gain.den : Int) = 1 := ⟨rfl, rfl⟩
  have h0 := envFor_rev0_exact ha gain x
  have hA := envFor_revA_exact ha gain x
  have hv := envVolFor_exact ha gain
  simp only [hone, mul_one, one_mul] at h0 hA hv
  exact ⟨h0, hA, hv⟩

end Sys2Proof.Machine
end

section
/-! PROOFS. One induction over the operations, packaged once: what the flush keeps, and every store a register write or
the debug path makes after it, every operation keeps. -/

namespace Sys2Proof.Machine

/-- `y` differs from `x` at most in the balance, the index, the latch, the counter and the shift register, and no
counter or shift register in order gets out of it: an edit that no cache follows. -/
structure StoreEdit (x y : Chan) : Prop where
  fields : y = { x with balance := y.balance, waveformIndex := y.waveformIndex, ddaLatch := y.ddaLatch,
                        counter := y.counter, lfsr := y.lfsr }
  counter : 1 ≤ x.counter → 1 ≤ y.counter
  lfsr : x.lfsr ≠ 0 → y.lfsr ≠ 0

/-- `k` differs from `g` at most in the select, the global balance, the LFO rate and the crossfade request. -/
def StoreEditGlobal (g k : Global) : Prop :=
  k = { g with select := k.select, globalBalance := k.globalBalance, lfoFrequency := k.lfoFrequency,
               xfPending := k.xfPending }

/-- A property kept by every store of a register write and of the debug path, each with the recompute that follows it
(46_register_writes.md R197 to R211, 47_lifecycle_host.md R231, R233). -/
structure StoreKept (P : Psg → Prop) : Prop where
  glob : ∀ {p} k, P p → StoreEditGlobal p.g k → P { p with g := k }
  edit : ∀ {p c} y, P p → StoreEdit (p.chan c) y → P (p.setChan c y)
  tone : ∀ {p c} f k, P p → P (recalcTone c (p.modChan c fun x => { x with frequency := f, control := k }))
  noise : ∀ {p c} v, 4 ≤ c.val → P p → P (writeNoise v c p)
  wave : ∀ {p c} i w, P p → P (p.modChan c fun x => waveWrite x i w)
  lfo : ∀ {p} v, P p → P (storeLfoctrl v p)

/-- A property kept by everything an operation does, where the operation meets the condition `D`. -/
structure OpKept (D : Psg → Instr → Prop) (P : Psg → Prop) : Prop extends StoreKept P where
  update : ∀ {p} ts, P p → P (update ts p)
  rebase : ∀ {p} base, P p → P (resetTs base p)
  reset : ∀ {p}, P p → P (powerReset p)
  load : ∀ {p} r, D p (.load r) → P p → P (loadState r p)
  fresh0 : ∀ {p} hr, D p (.constructRev0 hr) → P (Psg.fresh .rev0 hr)
  freshA : ∀ {p} hr, D p (.constructRevA hr) → P (Psg.fresh .revA hr)

/-! ### The edits that no cache follows -/

/-- A store of the balance. -/
theorem storeEdit_balance (x : Chan) (v : Byte) : StoreEdit x { x with balance := v } := ⟨rfl, id, id⟩

/-- A store of the index and the latch (46_register_writes.md R203, R207, R208; 47_lifecycle_host.md R231). -/
theorem storeEdit_move (x : Chan) (i l : Sample) : StoreEdit x { x with waveformIndex := i, ddaLatch := l } :=
  ⟨rfl, id, id⟩

/-- A shift register value with 0 replaced is not 0 (10_state.md R42). -/
theorem nonzeroLfsr_ne (l : BitVec 18) : nonzeroLfsr l ≠ 0 := by
  unfold nonzeroLfsr
  split
  · decide
  · assumption

/-- A repaired store of the shift register (47_lifecycle_host.md R231). -/
theorem storeEdit_lfsr (x : Chan) (l : BitVec 18) : StoreEdit x { x with lfsr := nonzeroLfsr l } :=
  ⟨rfl, id, fun _ => nonzeroLfsr_ne l⟩

theorem StoreEdit.trans {x y z : Chan} (h : StoreEdit x y) (k : StoreEdit y z) : StoreEdit x z where
  fields := by rw [k.fields, h.fields]
  counter := k.counter ∘ h.counter
  lfsr := k.lfsr ∘ h.lfsr

theorem StoreEdit.refl (x : Chan) : StoreEdit x x := ⟨rfl, id, id⟩

/-- A rewind reloads the counter with the period, which is positive (46_register_writes.md R202). -/
theorem storeEdit_rewind (x : Chan) : StoreEdit x (rewind x) :=
  ⟨rfl, fun _ => Int.ofNat_le.mpr x.freqCache.pos, id⟩

/-- The edges of a control write (46_register_writes.md R202, R203). -/
theorem storeEdit_edges (v : Byte) (x : Chan) : StoreEdit x (controlEdges v x) := by
  have hrewind : StoreEdit x (if !ddaBit x.control && ddaBit v then rewind x else x) := by
    split
    · exact storeEdit_rewind x
    · exact .refl x
  simp only [controlEdges]
  split
  · exact hrewind.trans (storeEdit_move _ _ _)
  · exact hrewind

/-- What a waveform write does after its store: the index advance and the latch load (46_register_writes.md R207,
R208). -/
def waveMove (v : Byte) (x : Chan) : Chan :=
  { x with
    waveformIndex := if ddaBit x.control then x.waveformIndex else x.waveformIndex + 1
    ddaLatch := if enBit x.control then sampleOf v else x.ddaLatch }

/-- A waveform write is its store and then its moves. -/
theorem writeWave_eq_move (v : Byte) (c : ChanIdx) (p : Psg) :
    writeWave v c p
      = (p.modChan c fun x => waveWrite x (p.chan c).waveformIndex.toNat (sampleOf v)).modChan c (waveMove v) := by
  refine Psg.ext_chan rfl rfl (fun d => ?_) rfl rfl
  rw [writeWave_chan, Psg.modChan_modChan, Psg.chan_modChan]
  rfl

/-! ### The stores, one lemma per register -/

section
variable {P : Psg → Prop} (hP : StoreKept P) {p : Psg}
include hP

theorem StoreKept.requestXfade (h : P p) : P (requestXfade p) := hP.glob _ h rfl

theorem StoreKept.writeGbal (v : Byte) (h : P p) : P (writeGbal v p) :=
  hP.requestXfade (hP.glob { p.g with globalBalance := v } h rfl)

theorem StoreKept.freq (c : ChanIdx) (f : BitVec 12) (h : P p) :
    P (recalcTone c (p.modChan c fun x => { x with frequency := f })) := hP.tone f (p.chan c).control h

theorem StoreKept.ctrl (c : ChanIdx) (v : Byte) (h : P p) :
    P (Machine.requestXfade (recalcTone c (p.modChan c fun x => { x with control := v }))) :=
  hP.requestXfade (hP.tone (p.chan c).frequency v h)

theorem StoreKept.writeCtrl (v : Byte) (c : ChanIdx) (h : P p) : P (writeCtrl v c p) := by
  have hedges := hP.edit (c := c) _ h (storeEdit_edges v (p.chan c))
  have := hP.ctrl c v hedges
  rwa [← Psg.modChan, Psg.modChan_modChan] at this

theorem StoreKept.writeBal (v : Byte) (c : ChanIdx) (h : P p) : P (writeBal v c p) :=
  hP.requestXfade (hP.edit _ h (storeEdit_balance _ v))

/-- The store of a sample, then the moves that follow it (46_register_writes.md R206 to R208). -/
theorem StoreKept.writeWave (v : Byte) (c : ChanIdx) (h : P p) : P (writeWave v c p) := by
  rw [writeWave_eq_move]
  exact hP.edit _ (hP.wave (p.chan c).waveformIndex.toNat (sampleOf v) h) (storeEdit_move _ _ _)

theorem StoreKept.writeNoise (v : Byte) (c : ChanIdx) (h : P p) : P (writeNoise v c p) := by
  by_cases hc : 4 ≤ c.val
  · exact hP.noise v hc h
  · rwa [writeNoise_low (Nat.lt_of_not_le hc)]

theorem StoreKept.writeLfoctrl (v : Byte) (h : P p) : P (writeLfoctrl v p) := by
  refine hP.lfo v ?_
  split
  · exact hP.edit _ h (storeEdit_rewind _)
  · exact h

/-- A SETREG, accepted or declined (47_lifecycle_host.md R231). -/
theorem StoreKept.setField (id : FieldId) (v : Int) (h : P p) : P ((setField id v p).getD p) := by
  cases id with
  | chan c f =>
    cases f with
    | freq => exact hP.freq c _ h
    | ctrl => exact hP.ctrl c _ h
    | balance => exact hP.writeBal _ c h
    | nctrl =>
      by_cases hc : 4 ≤ c.val
      · simpa only [Machine.setField, setChanField, Machine.writeNoise, hc, if_true, Option.getD_some]
          using hP.noise (maskTo 8 v) hc h
      · simpa only [Machine.setField, setChanField, hc, if_false, Option.getD_none] using h
    | windex => exact hP.edit _ h (storeEdit_move _ _ _)
    | ddalatch => exact hP.edit _ h (storeEdit_move _ _ _)
    | lfsr => exact hP.edit _ h (storeEdit_lfsr _ _)
    | _ => exact h
  | glob f =>
    cases f with
    | select => exact hP.glob _ h rfl
    | gbal => exact hP.writeGbal _ h
    | lfofreq => exact hP.glob _ h rfl
    | lfoctrl => exact hP.lfo _ h
    | _ => exact h

end

/-- A kept property holds of the machine every operation leaves. -/
theorem OpKept.effect {D : Psg → Instr → Prop} {P : Psg → Prop} (hP : OpKept D P) {p : Psg} {i : Instr}
    (hD : D p i) (h : P p) : P (effect p i) := by
  have bank : ∀ (f : ChanIdx → Psg → Psg) ts, (∀ c {q}, P q → P (f c q)) →
      P (onSelected f (Machine.update ts p)) :=
    fun f ts hf => onSelected_inv (hP.update ts h) fun c => hf c (hP.update ts h)
  cases i with
  | wSelect ts v => exact hP.glob _ h rfl
  | wGbal ts v => exact hP.writeGbal v (hP.update ts h)
  | wFreqLo ts v => exact bank _ ts fun c _ hq => hP.freq c _ hq
  | wFreqHi ts v => exact bank _ ts fun c _ hq => hP.freq c _ hq
  | wCtrl ts v => exact bank _ ts fun c _ hq => hP.writeCtrl v c hq
  | wBal ts v => exact bank _ ts fun c _ hq => hP.writeBal v c hq
  | wWave ts v => exact bank _ ts fun c _ hq => hP.writeWave v c hq
  | wNoise ts v => exact bank _ ts fun c _ hq => hP.writeNoise v c hq
  | wLfofreq ts v => exact hP.glob _ (hP.update ts h) rfl
  | wLfoctrl ts v => exact hP.writeLfoctrl v (hP.update ts h)
  | wRsvdA ts _ | wRsvdB ts _ | wRsvdC ts _ | wRsvdD ts _ | wRsvdE ts _ | wRsvdF ts _ | upd ts => exact hP.update ts h
  | pwr ts =>
    refine hP.reset ?_
    split
    · exact hP.update ts h
    · exact h
  | rts base => exact hP.rebase base h
  | getreg | peek | save => exact h
  | setreg id v => exact hP.setField id v h
  | poke c j v => exact hP.wave j.toNat (maskTo 5 v) h
  | load r => exact hP.load r hD h
  | constructRev0 hr => rw [Machine.effect, construct_eq]; exact hP.fresh0 hr hD
  | constructRevA hr => rw [Machine.effect, construct_eq]; exact hP.freshA hr hD

/-- A kept property is kept by every operation that completes. -/
theorem OpKept.exec {D : Psg → Instr → Prop} {P : Psg → Prop} (hP : OpKept D P) {s t : State} {i : Instr}
    (hD : D s.psg i) (h : P s.psg) (ht : exec i s = .next t) : P t.psg := by
  rw [exec_effect ht]
  exact hP.effect hD h

end Sys2Proof.Machine
end

section
/-! PROOFS. Reset, `PWR` and `CONSTRUCT` (10_state.md R59, 47_lifecycle_host.md R224 to R228). -/

namespace Sys2Proof.Machine

/-- A channel record at its reset values meets the per-channel invariants, whatever it last injected and whatever its
time (10_state.md R47 to R52, R59). -/
theorem reset_sound (c : ChanIdx) (pv : Stereo Int) (ts : Int) :
    Chan.Sound c { Chan.reset with prev := pv, lastTs := ts } where
  counter_pos := (by decide : 1 ≤ Chan.reset.counter)
  noise_period := .inr ⟨31, by decide, by decide, rfl⟩
  noise_count_pos := (by decide : 1 ≤ Chan.reset.noiseCount)
  lfsr_ne := (by decide : Chan.reset.lfsr ≠ 0)
  sum := (by decide : Chan.reset.sampleAccumulator = waveSum Chan.reset.waveform)
  no_noise := fun _ => rfl

/-- The reset period is a legal one in every mode (10_state.md R48). -/
theorem reset_legalPeriod (c : ChanIdx) (lfo : Bool) : legalPeriod c lfo Chan.reset.freqCache.ticks :=
  ⟨4096, 1, by decide, by decide, by decide, by decide, rfl, fun _ => rfl⟩

/-- A machine as constructed over canonical buffers meets the invariants (10_state.md R59). -/
theorem fresh_inv {hr : Stereo Memory} (rev : Rev) (hl : hr.left.wf = true) (hr' : hr.right.wf = true) :
    (Psg.fresh rev hr).Inv where
  sound c := by rw [fresh_chan]; exact reset_sound c Chan.reset.prev Chan.reset.lastTs
  period c := by rw [fresh_chan]; exact reset_legalPeriod c _
  stamps c := by rw [fresh_chan]; rfl
  phase := (by decide : 0 < xfadeSteps)
  countdown := Nat.zero_le _
  left_wf := hl
  right_wf := hr'
  no_overrun := rfl

/-- Settles O35: the reset machine is one constructed over blank buffers, which are canonical. -/
theorem resetMeetsInvariants : Obligations.ResetMeetsInvariants :=
  ⟨fresh_inv .revA (Memory.wf_blank _) (Memory.wf_blank _), fun rev _ => fresh_inv rev⟩

/-- Settles O52: the `Power(0)` inside `Construct` finds every field at its reset value. -/
theorem constructResets : Obligations.ConstructResets := by
  intro hr s
  constructor
  · simp only [exec, execConstructRev0, answer, construct_eq, Psg.fresh]
  · simp only [exec, execConstructRevA, answer, construct_eq, Psg.fresh]

/-- Whether or not `Power` flushes, time stands at its timestamp before the reset part (47_lifecycle_host.md R225). -/
theorem power_eq {p : Psg} {ts : Int} (h : p.g.lastTs ≤ ts) (hready : p.ready) :
    ∃ u, power ts p = powerReset u ∧ u = (if ts = p.g.lastTs then p else update ts p)
      ∧ u.g.lastTs = ts ∧ u.rev = p.rev ∧ u.hrOverrun = false := by
  refine ⟨_, by rw [power, ite_not], rfl, ?_⟩
  split
  · next heq => exact ⟨heq.symm, rfl, hready.2⟩
  · exact ⟨update_lastTs h, (update_rev_len ts p).1, (update_ready ts hready).2⟩

/-- Settles O51: the flush of `Power` where its timestamp differs, then the reset part, field by field. -/
theorem powerResets : Obligations.PowerResets := by
  intro ts s hready ⟨_, hts⟩
  obtain ⟨u, hpower, hu, hlast, hrev, hover⟩ := power_eq hts hready
  have hdone : (effect s.psg (.pwr ts)).hrOverrun = false := by
    rw [effect, hpower, powerReset_hrOverrun, hover]
  refine ⟨_, exec_next hdone, rfl, rfl, ?_⟩
  simp only [effect, ← hu, hpower, powerReset_g, powerReset_hr, powerReset_rev, powerReset_hrOverrun,
    true_and]
  exact ⟨by rw [clearGlobal, hlast]; rfl, powerReset_chan u, hrev, hover⟩

end Sys2Proof.Machine
end

section
/-! PROOFS. One clock of the shift register (44_channel_run.md R156). -/

namespace Sys2Proof.Machine

/-- The register moved one bit down, with `b` entering at bit 17, as a number. -/
theorem shiftIn_toNat (b : Bool) (l : BitVec 18) :
    (BitVec.ofBool b ++ l.extractLsb' 1 17).toNat = l.toNat / 2 + (if b then 2 ^ 17 else 0) := by
  have hlow : l.toNat / 2 < 2 ^ 17 := by omega
  have hmod : l.toNat / 2 % 2 ^ 17 = l.toNat / 2 := Nat.mod_eq_of_lt hlow
  rw [BitVec.toNat_append, BitVec.extractLsb'_toNat, Nat.shiftRight_eq_div_pow, pow_one, hmod,
    ← Nat.shiftLeft_add_eq_or_of_lt hlow]
  cases b <;> simp [Nat.shiftLeft_eq, Nat.add_comm]

/-- A register that is not 0 is not shifted to 0: if bit 0 alone is set, it enters at bit 17 (10_state.md R51). -/
theorem shiftIn_feedback_ne {l : BitVec 18} (h : l ≠ 0) :
    BitVec.ofBool (lfsrFeedback l) ++ l.extractLsb' 1 17 ≠ 0 := by
  intro hzero
  have hnat : l.toNat / 2 + (if lfsrFeedback l then 2 ^ 17 else 0) = 0 := by
    rw [← shiftIn_toNat, hzero]
    rfl
  obtain ⟨hhalf, hfeed⟩ := Nat.add_eq_zero_iff.mp hnat
  have hpos : l.toNat ≠ 0 := fun h0 => h (BitVec.eq_of_toNat_eq h0)
  have hone : l = 1 := BitVec.eq_of_toNat_eq (by simp; omega)
  rw [hone] at hfeed
  exact absurd hfeed (by decide)

/-- Settles O20: the re-seed makes the result other than 0, and only a register that holds 0 needs it. -/
theorem lfsrClock : Obligations.LfsrClock := by
  intro l
  refine ⟨clockLfsr_ne l, fun h => ?_⟩
  rw [clockLfsr, nonzeroLfsr, if_neg (shiftIn_feedback_ne h)]
  exact shiftIn_toNat (lfsrFeedback l) l

end Sys2Proof.Machine
end

section
/-! PROOFS. `Update` in chunks (45_update_scheduler.md R174 to R181). -/

namespace Sys2Proof.Machine

/-- The invariants put every channel's countdowns and shift register in order. -/
theorem Psg.Inv.live {p : Psg} (h : p.Inv) (c : ChanIdx) : (p.chan c).Live :=
  ⟨(h.sound c).counter_pos, (h.sound c).noise_count_pos, (h.sound c).lfsr_ne⟩

/-- With the crossfade idle a chunk is the pass over the channels (45_update_scheduler.md R179, R180). -/
theorem runChunk_idle {p : Psg} (h : p.g.xfCountdown = 0) (live : Bool) (k : Nat) :
    runChunk live k p
      = (runAll (p.g.lastTs + k) live p).modGlobal (fun g => { g with lastTs := p.g.lastTs + k }) := by
  rw [runChunk_eq, tickXfade, runAll_g, h, if_neg (Nat.lt_irrefl 0)]

/-- With the crossfade idle the chunk loop is one chunk (45_update_scheduler.md R178). -/
theorem chunkLoop_idle {p : Psg} (h : p.g.xfCountdown = 0) (live : Bool) {n : Nat} (hn : 0 < n) :
    chunkLoop live n p = runChunk live n p := by
  have hlen : chunkLen n p = n := by simp [chunkLen, h]
  rw [chunkLoop_next live hn, hlen, Nat.sub_self, chunkLoop_zero]

/-- `Update` is what it does at the time already reached, and then the chunk loop (45_update_scheduler.md R176 to
R178). -/
theorem update_eq_chunkLoop (p : Psg) (ts : Int) :
    update ts p = chunkLoop (modulationLive p) (ts - p.g.lastTs).toNat (update p.g.lastTs p) := by
  rw [update_same, ← modulationLive_eq]
  rfl

/-- With the crossfade idle after the start test, `Update` is one pass over the channels (45_update_scheduler.md R178,
R179). -/
theorem update_idle {p : Psg} {ts : Int} (hts : p.g.lastTs < ts) (h : (update p.g.lastTs p).g.xfCountdown = 0) :
    update ts p
      = (runAll ts (modulationLive p) (update p.g.lastTs p)).modGlobal (fun g => { g with lastTs := ts }) := by
  have hend : (update p.g.lastTs p).g.lastTs + ((ts - p.g.lastTs).toNat : Int) = ts := by
    rw [update_lastTs (le_refl _)]; omega
  rw [update_eq_chunkLoop, chunkLoop_idle h _ (by omega), runChunk_idle h, hend]

/-- Settles O26: the time stamps, the whole of `Update` as its start and the chunk loop, and the loop chunk by
chunk. -/
theorem updateReachesItsTime : Obligations.UpdateReachesItsTime := by
  refine ⟨runChunk_lastTs, ?_, ?_, ?_⟩
  · intro p ts hinv ⟨_, hts⟩
    have hglobal := update_lastTs hts
    exact ⟨hglobal, fun c => (update_stamps ts hinv.live hinv.stamps c).trans hglobal⟩
  · intro p ts _ hts
    exact ⟨update_eq_chunkLoop p ts, update_idle hts⟩
  · intro live n q
    refine ⟨chunkLoop_zero live q, fun hn => ?_⟩
    rw [chunkLoop_next live hn, ← chunkOf_eq]
    rfl

end Sys2Proof.Machine
end

section
/-! PROOFS. What an edit of one channel and a recompute do to a statement about every channel. -/

namespace Sys2Proof.Machine

/-- What holds of every other channel, and of the new record of channel `c`, holds of every channel after the store of
that record. -/
theorem forall_chan_setChan {Q : ChanIdx → Chan → Prop} {p : Psg} {c : ChanIdx} {x : Chan}
    (hother : ∀ d, d ≠ c → Q d (p.chan d)) (hx : Q c x) (d : ChanIdx) : Q d ((p.setChan c x).chan d) := by
  rw [Psg.chan_setChan]
  split
  · next hd => exact hd ▸ hx
  · next hd => exact hother d hd

/-- The cascade as one edit of its channel (42_output_function.md R137). -/
theorem recalcTone_eq_setChan (c : ChanIdx) (p : Psg) :
    recalcTone c p
      = p.setChan c { p.chan c with freqCache := freqPeriod p c, outputFunction := chanFn (recalcTone c p) c } := by
  refine Psg.ext_chan rfl rfl (fun d => ?_) rfl rfl
  rw [recalcTone_chan, Psg.chan_setChan]

/-- A store of one channel and the cascade that follows it are one edit (42_output_function.md R137). -/
theorem recalcTone_modChan (c : ChanIdx) (f : Chan → Chan) (p : Psg) :
    recalcTone c (p.modChan c f)
      = p.setChan c { f (p.chan c) with
          freqCache := freqPeriod (p.modChan c f) c, outputFunction := chanFn (recalcTone c (p.modChan c f)) c } := by
  refine Psg.ext_chan rfl rfl (fun d => ?_) rfl rfl
  rw [recalcTone_chan, Psg.chan_setChan, Psg.chan_modChan, Psg.chan_modChan, if_pos rfl]
  split <;> rfl

/-- A store of the noise register and the recomputes that follow it are one edit (46_register_writes.md R209). -/
theorem writeNoise_eq_setChan {c : ChanIdx} (hc : 4 ≤ c.val) (v : Byte) (p : Psg) :
    writeNoise v c p
      = p.setChan c { p.chan c with
          noiseControl := v, noiseFreqCache := noisePeriod v, outputFunction := chanFn (writeNoise v c p) c } := by
  have hframe : (writeNoise v c p).rev = p.rev ∧ (writeNoise v c p).hr = p.hr
      ∧ (writeNoise v c p).hrOverrun = p.hrOverrun := by
    unfold writeNoise
    split <;> exact ⟨rfl, rfl, rfl⟩
  obtain ⟨hrev, hhr, hover⟩ := hframe
  refine Psg.ext_chan hrev (writeNoise_g v c p) (fun d => ?_) hhr hover
  rw [writeNoise_chan hc, Psg.chan_setChan]

/-- LFO mode is a matter of the LFO control register alone (41_frequency_cache.md R119). -/
theorem lfoOn_congr {p q : Psg} (h : q.g.lfoControl = p.g.lfoControl) : lfoOn q = lfoOn p := by
  simp only [lfoOn, h]

/-- The full recompute of all channels leaves every cache fresh (47_lifecycle_host.md R235, R237). -/
theorem recalcEvery_cacheFresh (p : Psg) : (forChans recalcAll p).cacheFresh := by
  have hg : (forChans recalcAll p).g = p.g := forChans_eq (fun q => q.g) (f := recalcAll) (fun _ _ => rfl) p
  have hrev : (forChans recalcAll p).rev = p.rev := forChans_eq (fun q => q.rev) (f := recalcAll) (fun _ _ => rfl) p
  intro c
  refine ⟨?_, ?_, ?_⟩
  · rw [freqPeriod_congr (p := p) (by rw [hg]) (by rw [hg]) c (by rw [recalcEvery_chan]) (by rw [recalcEvery_chan]),
      recalcEvery_chan]
  · rw [recalcEvery_chan]
  · simp only [chanFn, lowPeriod, recalcEvery_chan, hrev, lfoOn_congr (congrArg Global.lfoControl hg)]

/-- After `LoadState` every cache is fresh (47_lifecycle_host.md R235, R237). -/
theorem loadState_cacheFresh (r : Record) (p : Psg) : (loadState r p).cacheFresh := recalcEvery_cacheFresh _

end Sys2Proof.Machine
end

section
/-! PROOFS. The accumulator and the waveform RAM (10_state.md R52). -/

namespace Sys2Proof.Machine

/-- The accumulator is the sum of the waveform cells (10_state.md R52). -/
def Chan.Summed (x : Chan) : Prop := x.sampleAccumulator = waveSum x.waveform

theorem reset_summed (pv : Stereo Int) (ts : Int) : Chan.Summed { Chan.reset with prev := pv, lastTs := ts } :=
  (reset_sound 0 pv ts).sum

/-- Only a waveform write moves cells and accumulator, and it moves both; LOAD and the resets set one from the
other. -/
theorem summed_kept : OpKept (fun _ _ => True) fun p => ∀ c, (p.chan c).Summed where
  glob _ h _ := h
  edit {p c} y h hy := forall_chan_setChan (fun d _ => h d) <| by
    rw [hy.fields]
    exact h c
  tone {p c} f k h := by
    rw [recalcTone_modChan]
    exact forall_chan_setChan (fun d _ => h d) (h c)
  noise {p c} v hc h := by
    rw [writeNoise_eq_setChan hc]
    exact forall_chan_setChan (fun d _ => h d) (h c)
  wave {p c} i w h := forall_chan_setChan (fun d _ => h d) (waveWrite_sum _ i w (h c))
  lfo {p} v h := by
    intro d
    rw [storeLfoctrl_chan]
    split <;> exact h d
  update {p} ts h := by
    intro c
    have hregs := (sameRegisters_kept p).update ts (.refl p)
    rw [Chan.Summed, hregs.accumulator, hregs.waveform]
    exact h c
  rebase base h c := by rw [resetTs_chan]; exact h c
  reset _ c := by rw [powerReset_chan]; exact reset_summed _ _
  load {p} r _ _ c := by
    obtain ⟨f, n, o, hc⟩ := loadState_chan r p c
    rw [hc]
    rfl
  fresh0 hr _ c := by rw [fresh_chan]; exact reset_summed _ _
  freshA hr _ c := by rw [fresh_chan]; exact reset_summed _ _

/-- Settles O38: the sum holds of the record at reset, and every operation keeps it, whatever the host does. -/
theorem accumulatorIsWaveformSum : Obligations.AccumulatorIsWaveformSum := by
  refine ⟨fun c => ?_, fun i s t h ht => summed_kept.exec trivial h ht⟩
  rw [State.reset, fresh_chan]
  exact reset_summed _ _

end Sys2Proof.Machine
end

section
/-! PROOFS. How fresh the caches stay (10_state.md R54, 41_frequency_cache.md R124, 47_lifecycle_host.md R238). -/

namespace Sys2Proof.Machine

/-- The caches of one channel follow its registers, as far as 41_frequency_cache.md R124 promises: the period where no
LFO enters into it. -/
structure Chan.Cached (rev : Rev) (lfo : Bool) (c : ChanIdx) (x : Chan) : Prop where
  noise : x.noiseFreqCache = noisePeriod x.noiseControl
  ofn : x.outputFunction = selectFn rev (enBit x.control) (ddaBit x.control) (neBit x.noiseControl) (lowPeriod x)
    (decide (c = 0) && lfo)
  freq : lfo = false ∨ 2 ≤ c.val → x.freqCache = basePeriod x.frequency.toNat

/-- Channels 2 to 5 are those other than 0 and 1. -/
theorem two_le_val : ∀ c : ChanIdx, c ≠ 0 → c ≠ 1 → 2 ≤ c.val := by decide

/-- Where no LFO enters into a channel's period (41_frequency_cache.md R118). -/
theorem freqPeriod_of_plain {p : Psg} {c : ChanIdx} (h : lfoOn p = false ∨ 2 ≤ c.val) :
    freqPeriod p c = basePeriod (p.chan c).frequency.toNat := by
  refine freqPeriod_plain (h.imp_right fun hc => ⟨?_, ?_⟩)
  · rintro rfl; exact absurd hc (by decide)
  · rintro rfl; exact absurd hc (by decide)

/-- The caches are kept when those of every channel are: each is a matter of the channel's own record, the revision and
the LFO mode. -/
theorem cachesKept_iff {p : Psg} : p.cachesKept ↔ ∀ c, (p.chan c).Cached p.rev (lfoOn p) c := by
  constructor
  · intro h c
    obtain ⟨hnoise, hofn, hfreq⟩ := h c
    exact ⟨hnoise, hofn, fun hc => (hfreq hc).trans (freqPeriod_of_plain hc)⟩
  · intro h c
    exact ⟨(h c).noise, (h c).ofn, fun hc => ((h c).freq hc).trans (freqPeriod_of_plain hc).symm⟩

/-- Fresh caches are as fresh as the rules make them (47_lifecycle_host.md R237, R238). -/
theorem Psg.cacheFresh.kept {p : Psg} (h : p.cacheFresh) : p.cachesKept := by
  intro c
  obtain ⟨hfreq, hnoise, hofn⟩ := h c
  exact ⟨hnoise, hofn, fun _ => hfreq⟩

/-- On channels 2 to 5 the LFO mode does not enter into the caches. -/
theorem Chan.Cached.lfo {rev : Rev} {lfo lfo' : Bool} {c : ChanIdx} {x : Chan} (hc : 2 ≤ c.val)
    (h : x.Cached rev lfo c) : x.Cached rev lfo' c where
  noise := h.noise
  ofn := by
    have h0 : decide (c = 0) = false := decide_eq_false (by rintro rfl; exact absurd hc (by decide))
    simpa only [h0, Bool.false_and] using h.ofn
  freq _ := h.freq (.inr hc)

/-- A channel after the cascade (42_output_function.md R137): the period and the output function are fresh, so only the
noise period must have been. -/
theorem recalcTone_cached {p : Psg} {c : ChanIdx}
    (h : (p.chan c).noiseFreqCache = noisePeriod (p.chan c).noiseControl) :
    ((recalcTone c p).chan c).Cached p.rev (lfoOn p) c := by
  obtain ⟨hfreq, hofn⟩ := recalcTone_fresh c p
  refine ⟨?_, hofn, fun hc => hfreq.trans (freqPeriod_of_plain hc)⟩
  rw [recalcTone_chan, if_pos rfl]
  exact h

/-- The cascade of one channel repairs it and leaves the others. -/
theorem recalcTone_cachesKept {p : Psg} {c : ChanIdx}
    (hother : ∀ d, d ≠ c → (p.chan d).Cached p.rev (lfoOn p) d)
    (h : (p.chan c).noiseFreqCache = noisePeriod (p.chan c).noiseControl) : (recalcTone c p).cachesKept := by
  refine cachesKept_iff.mpr fun d => ?_
  by_cases hd : d = c
  · subst hd
    exact recalcTone_cached h
  · rw [recalcTone_other hd]
    exact hother d hd

/-- `RecalcOfn` on a channel whose periods are fresh keeps the caches. -/
theorem recalcOfn_cachesKept {p : Psg} {c : ChanIdx} (hother : ∀ d, d ≠ c → (p.chan d).Cached p.rev (lfoOn p) d)
    (hnoise : (p.chan c).noiseFreqCache = noisePeriod (p.chan c).noiseControl)
    (hfreq : lfoOn p = false ∨ 2 ≤ c.val → (p.chan c).freqCache = basePeriod (p.chan c).frequency.toNat) :
    (recalcOfn c p).cachesKept :=
  cachesKept_iff.mpr (forall_chan_setChan hother ⟨hnoise, rfl, hfreq⟩)

/-- The store of LFO control repairs channels 0 and 1, which are all its mode enters into (46_register_writes.md
R211). -/
theorem storeLfoctrl_cachesKept {p : Psg} (v : Byte) (h : p.cachesKept) : (storeLfoctrl v p).cachesKept := by
  refine recalcTone_cachesKept (fun d hd => ?_) ?_
  · by_cases h0 : d = 0
    · subst h0
      exact recalcTone_cached (p := p.modGlobal fun g => { g with lfoControl := v }) (h 0).1
    · rw [recalcTone_other h0]
      exact (cachesKept_iff.mp h d).lfo (two_le_val d h0 hd)
  · rw [recalcTone_other (by decide)]
    exact (h 1).1

/-- The store of the noise register repairs its channel (46_register_writes.md R209). -/
theorem writeNoise_cachesKept {p : Psg} {c : ChanIdx} (hc : 4 ≤ c.val) (v : Byte) (h : p.cachesKept) :
    (writeNoise v c p).cachesKept := by
  simp only [writeNoise, hc, if_true]
  refine recalcOfn_cachesKept (fun d hd => ?_) ?_ fun hplain => ?_
  · rw [recalcNoise_chan, if_neg hd, Psg.chan_modChan, if_neg hd]
    exact cachesKept_iff.mp h d
  · rw [recalcNoise_chan, if_pos rfl]
  · rw [recalcNoise_chan, if_pos rfl, Psg.chan_modChan, if_pos rfl]
    exact (cachesKept_iff.mp h c).freq hplain

/-- A store of a record whose caches follow its registers keeps the caches. -/
theorem setChan_cachesKept {p : Psg} {c : ChanIdx} {x : Chan} (h : p.cachesKept) (hx : x.Cached p.rev (lfoOn p) c) :
    (p.setChan c x).cachesKept :=
  cachesKept_iff.mpr (forall_chan_setChan (fun d _ => cachesKept_iff.mp h d) hx)

/-- An edit of the global record that leaves LFO control keeps the caches. -/
theorem global_cachesKept {p : Psg} {k : Global} (h : p.cachesKept) (hk : k.lfoControl = p.g.lfoControl) :
    Psg.cachesKept { p with g := k } := by
  refine cachesKept_iff.mpr fun c => ?_
  rw [lfoOn_congr (p := p) hk]
  exact cachesKept_iff.mp h c

/-- Advancing time keeps the caches: it edits no register, and ends each gating recompute and each carrier step in the
cascade of channel 0 (44_channel_run.md R166, 45_update_scheduler.md R177). -/
theorem cachesKept_time : Kept Psg.cachesKept where
  emit {p c} ts _ h := by
    refine cachesKept_iff.mpr fun d => ?_
    have hd := cachesKept_iff.mp h d
    rw [emit_chan, emit_rev, lfoOn_congr (p := p) (by rw [emit_g])]
    split
    · next heq => subst heq; exact ⟨hd.noise, hd.ofn, hd.freq⟩
    · exact hd
  edit {p c} y _ h hy := by
    have hc := cachesKept_iff.mp h c
    rw [RunEdit] at hy
    refine setChan_cachesKept h ?_
    rw [hy]
    exact ⟨hc.noise, hc.ofn, hc.freq⟩
  tone _ h := recalcTone_cachesKept (fun d _ => cachesKept_iff.mp h d) (h 0).1
  commit {p} c a h :=
    have hc := cachesKept_iff.mp h c
    setChan_cachesKept h ⟨hc.noise, hc.ofn, hc.freq⟩
  glob k h hk := global_cachesKept h (by rw [hk])

/-- A channel that is off has the function Off (42_output_function.md R129). -/
theorem selectFn_off {rev : Rev} {en dda : Bool} (h : channelOn rev en dda = false) (ne low carrier : Bool) :
    selectFn rev en dda ne low carrier = .off := by
  simp only [selectFn, h, Bool.not_false, if_true]

/-- A channel at its reset values is off on both revisions (42_output_function.md R129). -/
theorem channelOn_reset (rev : Rev) : channelOn rev (enBit Chan.reset.control) (ddaBit Chan.reset.control) = false := by
  cases rev <;> decide

/-- A channel record at its reset values is cached, in every mode (10_state.md R59). -/
theorem reset_cached (rev : Rev) (lfo : Bool) (c : ChanIdx) (pv : Stereo Int) (ts : Int) :
    Chan.Cached rev lfo c { Chan.reset with prev := pv, lastTs := ts } where
  noise := (by decide : Chan.reset.noiseFreqCache = noisePeriod Chan.reset.noiseControl)
  ofn := (selectFn_off (channelOn_reset rev) _ _ _).symm
  freq _ := (by decide : Chan.reset.freqCache = basePeriod Chan.reset.frequency.toNat)

theorem fresh_cachesKept (rev : Rev) (hr : Stereo Memory) : (Psg.fresh rev hr).cachesKept :=
  cachesKept_iff.mpr fun c => by rw [fresh_chan]; exact reset_cached _ _ c _ _

/-- Every operation keeps the caches: each store of a register that enters into a cache is followed by its recompute,
but for LFO frequency and the modulator's latch, which enter only under LFO mode (41_frequency_cache.md R124). -/
theorem cachesKept_kept : OpKept (fun _ _ => True) Psg.cachesKept where
  glob k h hk := global_cachesKept h (by rw [hk])
  edit {p c} y h hy := by
    have hc := cachesKept_iff.mp h c
    refine setChan_cachesKept h ?_
    rw [hy.fields]
    exact ⟨hc.noise, hc.ofn, hc.freq⟩
  tone {p c} f k h := by
    refine recalcTone_cachesKept (fun d hd => ?_) ?_
    · rw [Psg.chan_modChan, if_neg hd]
      exact cachesKept_iff.mp h d
    · rw [Psg.chan_modChan, if_pos rfl]
      exact (h c).1
  noise v hc h := writeNoise_cachesKept hc v h
  wave {p c} i w h :=
    have hc := cachesKept_iff.mp h c
    setChan_cachesKept h ⟨hc.noise, hc.ofn, hc.freq⟩
  lfo v h := storeLfoctrl_cachesKept v h
  update ts h := cachesKept_time.update ts h
  rebase {p} base h := by
    refine cachesKept_iff.mpr fun c => ?_
    have hc := cachesKept_iff.mp h c
    rw [resetTs_chan, resetTs_rev, lfoOn_congr (p := p) (by rw [resetTs_g])]
    exact ⟨hc.noise, hc.ofn, hc.freq⟩
  reset _ := cachesKept_iff.mpr fun c => by rw [powerReset_chan]; exact reset_cached _ _ c _ _
  load r _ _ := (loadState_cacheFresh r _).kept
  fresh0 hr _ := fresh_cachesKept .rev0 hr
  freshA hr _ := fresh_cachesKept .revA hr

/-- Settles O37: the caches are fresh at reset, and every operation keeps them as fresh as the rules make them. -/
theorem stepKeepsCaches : Obligations.StepKeepsCaches := by
  refine ⟨fresh_cachesKept .revA blankHr, fun s t h hstep => ?_⟩
  rcases step_next hstep with ⟨_, rfl⟩ | ⟨k, rest, i, _, _, hexec⟩
  · exact h
  · exact cachesKept_kept.exec (s := { s with queue := rest }) trivial h hexec

end Sys2Proof.Machine
end

section
/-! PROOFS. The invariants of 10_state.md R47 to R53: every operation keeps them under the host's duty
(47_lifecycle_host.md R239). -/

namespace Sys2Proof.Machine

/-! ### The values a recompute stores -/

/-- The base period is a legal one in every mode (41_frequency_cache.md R118, 10_state.md R48). -/
theorem basePeriod_legal (c : ChanIdx) (lfo : Bool) {f : Nat} (hf : f ≤ 4096) :
    legalPeriod c lfo (basePeriod f).ticks := by
  obtain ⟨hlo, hhi⟩ := zeroAs_range f 4096 4096 hf (by decide) (by decide)
  exact ⟨zeroAs f 4096, 1, hlo, hhi, by decide, by decide, (Nat.mul_one _).symm, fun _ => rfl⟩

/-- The modulator's period under LFO is a legal one (41_frequency_cache.md R120, 10_state.md R48). -/
theorem scalePeriod_legal {f : Nat} (hf : f ≤ 4096) (rate : Byte) :
    legalPeriod 1 true (scalePeriod (basePeriod f) rate).ticks := by
  obtain ⟨hlo, hhi⟩ := zeroAs_range f 4096 4096 hf (by decide) (by decide)
  obtain ⟨rlo, rhi⟩ := zeroAs_range rate.toNat 256 256 (by omega) (by decide) (by decide)
  exact ⟨zeroAs f 4096, lfoRate rate, hlo, hhi, rlo, rhi, rfl, by rintro (h | h) <;> contradiction⟩

/-- The period `RecalcFreq` stores is a legal one (10_state.md R48). -/
theorem freqPeriod_legal (p : Psg) (c : ChanIdx) : legalPeriod c (lfoOn p) (freqPeriod p c).ticks := by
  have hf : ∀ c, (p.chan c).frequency.toNat ≤ 4096 := fun c => by omega
  unfold freqPeriod
  split
  · refine basePeriod_legal c _ ?_
    unfold carrierFreq
    omega
  · split
    · next h =>
      obtain ⟨rfl, hlfo⟩ := h
      rw [hlfo]
      exact scalePeriod_legal (hf 1) _
    · exact basePeriod_legal c _ (hf c)

/-- The LFO mode matters to the modulator's legal periods alone (10_state.md R48). -/
theorem legalPeriod_of_ne {c : ChanIdx} (hc : c ≠ 1) {lfo lfo' : Bool} {n : Nat} (h : legalPeriod c lfo n) :
    legalPeriod c lfo' n := by
  obtain ⟨t, r, ht, ht', hr, hr', hn, hone⟩ := h
  exact ⟨t, r, ht, ht', hr, hr', hn, fun _ => hone (.inl hc)⟩

/-- The noise period is 64 or a multiple of 128 (41_frequency_cache.md R123, 10_state.md R49). -/
theorem noisePeriod_legal (v : Byte) :
    (noisePeriod v).ticks = 64 ∨ ∃ k, 1 ≤ k ∧ k ≤ 31 ∧ (noisePeriod v).ticks = 128 * k := by
  simp only [noisePeriod]
  split
  · exact .inl rfl
  · exact .inr ⟨31 - (nfField v).toNat, by omega, by omega, Nat.mul_comm _ _⟩

/-! ### The invariants of one channel -/

/-- The invariants of one channel: those of its record, its period in the LFO mode, and its time stamp (10_state.md R47
to R53). -/
structure Chan.Steady (lfo : Bool) (ts : Int) (c : ChanIdx) (x : Chan) : Prop where
  sound : x.Sound c
  period : legalPeriod c lfo x.freqCache.ticks
  stamp : x.lastTs = ts

/-- The invariants but for the overrun, which an operation may record before it ends in a fault (20_memory.md R78). -/
structure Psg.Steady (p : Psg) : Prop where
  chan : ∀ c, (p.chan c).Steady (lfoOn p) p.g.lastTs c
  phase : p.g.xfPhase < xfadeSteps
  countdown : p.g.xfCountdown ≤ 255
  buffers : hrWf p

theorem inv_iff {p : Psg} : p.Inv ↔ p.Steady ∧ p.hrOverrun = false := by
  constructor
  · intro h
    exact ⟨⟨fun c => ⟨h.sound c, h.period c, h.stamps c⟩, h.phase, h.countdown,
      fun b => by cases b; exacts [h.left_wf, h.right_wf]⟩, h.no_overrun⟩
  · rintro ⟨h, hover⟩
    exact ⟨fun c => (h.chan c).sound, fun c => (h.chan c).period, fun c => (h.chan c).stamp, h.phase, h.countdown,
      h.buffers .left, h.buffers .right, hover⟩

/-- The store of a channel record that meets its invariants keeps those of the machine. -/
theorem Psg.Steady.setChan {p : Psg} (h : p.Steady) {c : ChanIdx} {x : Chan}
    (hx : x.Steady (lfoOn p) p.g.lastTs c) : (p.setChan c x).Steady where
  chan := forall_chan_setChan (fun d _ => h.chan d) hx
  phase := h.phase
  countdown := h.countdown
  buffers := h.buffers

/-- An edit that no cache follows keeps a channel's invariants. -/
theorem StoreEdit.steady {x y : Chan} (e : StoreEdit x y) {lfo : Bool} {ts : Int} {c : ChanIdx}
    (h : x.Steady lfo ts c) : y.Steady lfo ts c := by
  rw [e.fields]
  exact ⟨{ h.sound with counter_pos := e.counter h.sound.counter_pos, lfsr_ne := e.lfsr h.sound.lfsr_ne }, h.period,
    h.stamp⟩

/-- A new frequency, control byte, legal period and output function keep a channel's invariants. -/
theorem Chan.Steady.retone {x : Chan} {lfo lfo' : Bool} {ts : Int} {c : ChanIdx} (h : x.Steady lfo ts c) (f : BitVec 12)
    (k : Byte) {q : Period} (hq : legalPeriod c lfo' q.ticks) (o : OutFn) :
    Chan.Steady lfo' ts c { x with frequency := f, control := k, freqCache := q, outputFunction := o } where
  sound := { h.sound with }
  period := hq
  stamp := h.stamp

/-! ### Advancing time -/

/-- The phase and the countdown of the crossfade are in their ranges (10_state.md R27, R28). -/
def Global.XfadeOk (g : Global) : Prop := g.xfPhase < xfadeSteps ∧ g.xfCountdown ≤ 255

/-- The end of a phase brings the phase into its range and reloads the countdown with no more than 255
(45_update_scheduler.md R188, R189). -/
theorem nextPhase_xfadeOk {g : Global} (h : g.xfCountdown ≤ 255) : (nextPhase g).XfadeOk := by
  have hphase : (g.xfPhase + 1) % xfadeSteps < xfadeSteps := Nat.mod_lt _ (by decide)
  have hreload : (if g.xfPhase % 2 = 1 then xfAfterCommit else xfAfterSample) ≤ 255 := by split <;> decide
  simp only [nextPhase]
  split
  · exact ⟨hphase, hreload⟩
  · split
    · exact ⟨hphase, hreload⟩
    · exact ⟨hphase, h⟩

theorem xfadeStep_xfadeOk {p : Psg} (h : p.g.xfCountdown ≤ 255) : (xfadeStep p).g.XfadeOk := by
  rw [xfadeStep_g]
  refine nextPhase_xfadeOk ?_
  split
  · split <;> exact h
  · exact h

theorem tickXfade_xfadeOk {p : Psg} (k : Nat) (h : p.g.XfadeOk) : (tickXfade k p).g.XfadeOk := by
  have hless : p.g.xfCountdown - k ≤ 255 := (Nat.sub_le _ _).trans h.2
  simp only [tickXfade]
  split
  · split
    · exact xfadeStep_xfadeOk hless
    · exact ⟨h.1, hless⟩
  · exact h

theorem runChunk_xfadeOk {p : Psg} (live : Bool) (k : Nat) (h : p.g.XfadeOk) : (runChunk live k p).g.XfadeOk := by
  rw [runChunk_eq]
  exact tickXfade_xfadeOk k (by rwa [runAll_g])

theorem beginUpdate_xfadeOk {p : Psg} (h : p.g.XfadeOk) : (beginUpdate p).g.XfadeOk := by
  have hstart : (startXfade p).g.XfadeOk := by
    unfold startXfade
    split
    · exact ⟨h.1, (by decide : 1 ≤ 255)⟩
    · exact h
  unfold beginUpdate gateLfo
  split
  · rwa [recalcTone_g]
  · exact hstart

/-- `Update` keeps the crossfade in its ranges (10_state.md R27, R28). -/
theorem update_xfadeOk {p : Psg} (ts : Int) (h : p.g.XfadeOk) : (update ts p).g.XfadeOk :=
  chunkLoop_inv (P := fun _ q => q.g.XfadeOk) (fun _ _ _ hq => runChunk_xfadeOk _ _ hq) _ _ (beginUpdate_xfadeOk h)

/-- Every stored period is a legal one in the LFO mode (10_state.md R48). -/
def Psg.PeriodsLegal (p : Psg) : Prop := ∀ c, legalPeriod c (lfoOn p) (p.chan c).freqCache.ticks

/-- The store of a channel record with a legal period keeps the periods legal. -/
theorem Psg.PeriodsLegal.setChan {p : Psg} (h : p.PeriodsLegal) {c : ChanIdx} {x : Chan}
    (hx : legalPeriod c (lfoOn p) x.freqCache.ticks) : (p.setChan c x).PeriodsLegal :=
  forall_chan_setChan (Q := fun d x => legalPeriod d (lfoOn p) x.freqCache.ticks) (fun d _ => h d) hx

/-- Advancing time keeps the periods legal: it stores none but those of the carrier's recompute (44_channel_run.md
R166). -/
theorem periodsLegal_time : Kept Psg.PeriodsLegal where
  emit {p c} ts _ h d := by
    rw [emit_chan, lfoOn_congr (p := p) (by rw [emit_g])]
    split
    · next heq => exact heq ▸ h d
    · exact h d
  edit {p c} y _ h hy := h.setChan (by rw [show y.freqCache = (p.chan c).freqCache by rw [hy]]; exact h c)
  tone {p} _ h := by
    rw [recalcTone_eq_setChan]
    exact h.setChan (freqPeriod_legal p 0)
  commit {p} c a h := h.setChan (h c)
  glob {p} k h hk c := by
    rw [lfoOn_congr (p := p) (by rw [hk])]
    exact h c

/-- A channel whose countdowns and shift register are in order, and whose registers, accumulator and noise period are
those of a sound one, is sound. -/
theorem Chan.Live.sound {c : ChanIdx} {x y : Chan} (hy : y.Live) (hx : x.Sound c)
    (hperiod : y.noiseFreqCache = x.noiseFreqCache) (hacc : y.sampleAccumulator = x.sampleAccumulator)
    (hwave : y.waveform = x.waveform) (hnoise : y.noiseControl = x.noiseControl) : y.Sound c := by
  obtain ⟨hcounter, hcount, hlfsr⟩ := hy
  exact ⟨hcounter, hperiod ▸ hx.noise_period, hcount, hlfsr, by rw [hacc, hwave]; exact hx.sum,
    hnoise ▸ hx.no_noise⟩

/-- `Update` keeps the invariants, but for the overrun (44_channel_run.md R151, R169, 45_update_scheduler.md R181). -/
theorem update_steady {p : Psg} (ts : Int) (h : p.Steady) : (update ts p).Steady where
  chan c := by
    have hlive : ∀ d, (p.chan d).Live := fun d =>
      ⟨(h.chan d).sound.counter_pos, (h.chan d).sound.noise_count_pos, (h.chan d).sound.lfsr_ne⟩
    have hregs := (sameRegisters_kept p).update ts (.refl p)
    exact
      { sound := (update_live ts hlive c).sound (h.chan c).sound (hregs.noiseFreqCache c) (hregs.accumulator c)
          (hregs.waveform c) (hregs.noiseControl c)
        period := periodsLegal_time.update ts (fun d => (h.chan d).period) c
        stamp := update_stamps ts hlive (fun d => (h.chan d).stamp) c }
  phase := (update_xfadeOk ts ⟨h.phase, h.countdown⟩).1
  countdown := (update_xfadeOk ts ⟨h.phase, h.countdown⟩).2
  buffers := update_hrWf ts h.buffers

/-! ### The stores -/

/-- The store of LFO control recomputes the periods of channels 0 and 1; those of the others are legal in every mode
(46_register_writes.md R211). -/
theorem storeLfoctrl_steady {p : Psg} (v : Byte) (h : p.Steady) : (storeLfoctrl v p).Steady where
  chan c := by
    rw [storeLfoctrl_chan]
    split
    · exact (h.chan c).retone _ _ (freqPeriod_legal (storeLfoctrl v p) c) _
    · next hc =>
      have h1 : c ≠ 1 := fun heq => hc (.inr heq)
      exact ⟨(h.chan c).sound, legalPeriod_of_ne h1 (h.chan c).period, (h.chan c).stamp⟩
  phase := h.phase
  countdown := h.countdown
  buffers := h.buffers

/-- `Power` brings every field of the invariants to its reset value, and keeps the time stamps together
(47_lifecycle_host.md R225, R227). -/
theorem powerReset_steady {p : Psg} (h : p.Steady) : (powerReset p).Steady where
  chan c := by
    rw [powerReset_chan, powerReset_g]
    exact ⟨reset_sound c _ _, reset_legalPeriod c _, (h.chan c).stamp⟩
  phase := by rw [powerReset_g]; exact (by decide : 0 < xfadeSteps)
  countdown := by rw [powerReset_g]; exact Nat.zero_le _
  buffers b := by rw [powerReset_hr]; exact h.buffers b

/-- A new time base moves all time stamps together (47_lifecycle_host.md R229). -/
theorem resetTs_steady {p : Psg} (base : Int) (h : p.Steady) : (resetTs base p).Steady where
  chan c := by
    rw [resetTs_chan, resetTs_g, lfoOn_congr (p := p) (by rw [resetTs_g])]
    exact ⟨{ (h.chan c).sound with }, (h.chan c).period, rfl⟩
  phase := by rw [resetTs_g]; exact h.phase
  countdown := by rw [resetTs_g]; exact h.countdown
  buffers b := by rw [resetTs_hr]; exact h.buffers b

/-- The repairs of `LoadState` make any channel record sound, once its noise period is recomputed (47_lifecycle_host.md
R235). -/
theorem loadChan_sound (c : ChanIdx) (r : ChanRecord) (x : Chan) {n : Period}
    (hn : n.ticks = 64 ∨ ∃ k, 1 ≤ k ∧ k ≤ 31 ∧ n.ticks = 128 * k) (f : Period) (o : OutFn) :
    Chan.Sound c { loadChan c r x with freqCache := f, noiseFreqCache := n, outputFunction := o } := by
  have hpos : ∀ v, 1 ≤ atLeastOne v := by
    intro v
    unfold atLeastOne
    split <;> omega
  exact
    { counter_pos := hpos _
      noise_period := hn
      noise_count_pos := hpos _
      lfsr_ne := nonzeroLfsr_ne _
      sum := rfl
      no_noise := fun hc => if_neg (Nat.not_le.mpr hc) }

/-- The repaired crossfade fields of a record are in their ranges (47_lifecycle_host.md R235). -/
theorem loadGlobal_xfadeOk (r : Record) : (loadGlobal r).XfadeOk := by
  constructor
  · simp only [loadGlobal, xfadeSteps]
    omega
  · simp only [loadGlobal, clampCountdown]
    split
    · omega
    · split <;> omega

/-- `LoadState` of a record whose time stamps agree gives a machine that meets the invariants, whatever else the record
holds (47_lifecycle_host.md R235, R236). -/
theorem loadState_steady {p : Psg} {r : Record} (hr : Record.consistent r) (h : p.Steady) : (loadState r p).Steady where
  chan c := by
    obtain ⟨hfreq, hnoise, -⟩ := loadState_cacheFresh r p c
    have hnoise' := hnoise ▸ noisePeriod_legal ((loadState r p).chan c).noiseControl
    have hlegal := hfreq ▸ freqPeriod_legal (loadState r p) c
    obtain ⟨f, n, o, hc⟩ := loadState_chan r p c
    rw [hc] at hnoise' hlegal ⊢
    rw [loadState_g]
    exact ⟨loadChan_sound c _ _ hnoise' f o, hlegal, hr.2 c⟩
  phase := by rw [loadState_g]; exact (loadGlobal_xfadeOk r).1
  countdown := by rw [loadState_g]; exact (loadGlobal_xfadeOk r).2
  buffers b := by rw [loadState_hr]; exact h.buffers b

/-! ### Every operation -/

/-- What an operation owes for the invariants to be kept: the host's duty, and canonical buffers, which the decoder
sees to (47_lifecycle_host.md R239, log 16). -/
def owed (p : Psg) (i : Instr) : Prop := dutiful p i ∧ i.wf = true

theorem fresh_steady {hr : Stereo Memory} (rev : Rev) (h : stereoWf hr = true) : (Psg.fresh rev hr).Steady := by
  obtain ⟨hl, hr'⟩ := Bool.and_eq_true_iff.mp h
  exact (inv_iff.mp (fresh_inv rev hl hr')).1

/-- Every operation keeps the invariants, but for the overrun, if the host keeps its duty. -/
theorem steady_kept : OpKept owed Psg.Steady where
  glob {p} k h hk := by
    have hlast : k.lastTs = p.g.lastTs := by rw [hk]
    refine ⟨fun c => ?_, ?_, ?_, h.buffers⟩
    · rw [lfoOn_congr (p := p) (by rw [hk]), hlast]
      exact h.chan c
    · rw [hk]; exact h.phase
    · rw [hk]; exact h.countdown
  edit {p c} y h hy := h.setChan (hy.steady (h.chan c))
  tone {p c} f k h := by
    rw [recalcTone_modChan]
    exact h.setChan ((h.chan c).retone f k (freqPeriod_legal (p.modChan c _) c) _)
  noise {p c} v hc h := by
    have hnone : c.val < 4 → v = 0 := fun hlow => absurd hc (Nat.not_le.mpr hlow)
    rw [writeNoise_eq_setChan hc]
    exact h.setChan ⟨{ (h.chan c).sound with noise_period := noisePeriod_legal v, no_noise := hnone },
      (h.chan c).period, (h.chan c).stamp⟩
  wave {p c} i w h :=
    h.setChan ⟨{ (h.chan c).sound with sum := waveWrite_sum _ i w (h.chan c).sound.sum }, (h.chan c).period,
      (h.chan c).stamp⟩
  lfo v h := storeLfoctrl_steady v h
  update ts h := update_steady ts h
  rebase base h := resetTs_steady base h
  reset h := powerReset_steady h
  load _ hD h := loadState_steady hD.1 h
  fresh0 _ hD := fresh_steady .rev0 hD.2
  freshA _ hD := fresh_steady .revA hD.2

/-! ### What a step performs -/

/-- The register writes carry no buffers. -/
theorem decodeWrite_wf (a : BitVec 4) (d : Byte) (t : Int) : (decodeWrite a d t).wf = true := by
  unfold decodeWrite
  split <;> rfl

/-- The buffers of a CONSTRUCT are brought to canonical form (log 16). -/
theorem decodeConstruct_wf {a : BitVec 4} {hr : Stereo Memory} {i : Instr} (h : decodeConstruct a hr = .ok i) :
    i.wf = true := by
  have hcanon : stereoWf ⟨hr.left.canon, hr.right.canon⟩ = true :=
    Bool.and_eq_true_iff.mpr ⟨Memory.wf_canon _, Memory.wf_canon _⟩
  unfold decodeConstruct at h
  split at h
  · cases h; exact hcanon
  · cases h; exact hcanon
  · cases h

/-- The debug operations carry no buffers. -/
theorem decodeDebug_wf {a : BitVec 4} {d : Byte} {t : Int} {i : Instr}
    (h : decodeGet a d = .ok i ∨ decodeSet a d t = .ok i ∨ decodePeek a d = .ok i ∨ decodePoke a d t = .ok i) :
    i.wf = true := by
  unfold decodeGet decodeSet decodePeek decodePoke at h
  rcases h with h | h | h | h <;> split at h <;> cases h <;> rfl

/-- A decoded instruction is well formed: the buffers it carries are canonical (log 16). -/
theorem decode_wf {k : Command} {i : Instr} (h : decode k = .ok i) : i.wf = true := by
  unfold decode at h
  split at h
  case h_1 => cases h; exact decodeWrite_wf _ _ _
  case h_2 | h_3 | h_4 | h_9 | h_10 => cases h; rfl
  case h_5 => exact decodeDebug_wf (t := 0) (.inl h)
  case h_6 => exact decodeDebug_wf (.inr (.inl h))
  case h_7 => exact decodeDebug_wf (t := 0) (.inr (.inr (.inl h)))
  case h_8 => exact decodeDebug_wf (.inr (.inr (.inr h)))
  case h_11 => exact decodeConstruct_wf h
  case h_12 => cases h

/-- No store of a register write or of the debug path adds into the buffers. -/
theorem noOverrun_kept : StoreKept fun p => p.hrOverrun = false where
  glob _ h _ := h
  edit _ h _ := h
  tone _ _ h := h
  noise {p c} v hc h := by
    rw [writeNoise_eq_setChan hc]
    exact h
  wave _ _ h := h
  lfo _ h := h

/-- No operation that completes leaves an overrun behind (log 4): those that advance time end in the fault if there was
one, and the others add nothing into the buffers. -/
theorem exec_no_overrun {i : Instr} {s t : State} (h : s.psg.hrOverrun = false) (ht : exec i s = .next t) :
    t.psg.hrOverrun = false := by
  have heffect := exec_effect ht
  cases i with
  | wSelect | getreg | peek | poke | save => rw [heffect]; exact h
  | rts base => rw [heffect]; exact (resetTs_hrOverrun base s.psg).trans h
  | setreg id v => rw [heffect]; exact noOverrun_kept.setField id v h
  | load r => rw [heffect]; exact (loadState_hrOverrun r s.psg).trans h
  | constructRev0 hr => rw [heffect, effect, construct_eq]; rfl
  | constructRevA hr => rw [heffect, effect, construct_eq]; rfl
  | _ =>
    obtain ⟨hdone, rfl⟩ := complete_next ht
    exact hdone

/-- Settles O36: the operation a step performs carries canonical buffers and keeps the invariants but for the overrun;
that it completes says that there was none. -/
theorem stepKeepsInvariants : Obligations.StepKeepsInvariants := by
  intro s t hinv hduty hstep
  rcases step_next hstep with ⟨_, rfl⟩ | ⟨k, rest, i, hq, hdec, hexec⟩
  · exact hinv
  · obtain ⟨hsteady, hover⟩ := inv_iff.mp hinv
    exact inv_iff.mpr
      ⟨steady_kept.exec (s := { s with queue := rest }) ⟨hduty k rest i hq hdec, decode_wf hdec⟩ hsteady hexec,
        exec_no_overrun (s := { s with queue := rest }) hover hexec⟩

end Sys2Proof.Machine
end

section
/-! PROOFS. The buffers are written and never read (20_memory.md R66): everything an operation does but its injections
is blind to the buffers, and two machines that differ in what the cells hold advance time side by side. -/

namespace Sys2Proof.Machine

/-! ### What is blind to the buffers -/

/-- The machine `p` bound to the buffers `hr`, with the overrun latch at `o`. -/
def Psg.rebind (p : Psg) (hr : Stereo Memory) (o : Bool) : Psg := { p with hr := hr, hrOverrun := o }

@[simp] theorem Psg.rebind_g (p : Psg) (hr : Stereo Memory) (o : Bool) : (p.rebind hr o).g = p.g := rfl
@[simp] theorem Psg.rebind_hr (p : Psg) (hr : Stereo Memory) (o : Bool) : (p.rebind hr o).hr = hr := rfl
@[simp] theorem Psg.rebind_hrOverrun (p : Psg) (hr : Stereo Memory) (o : Bool) : (p.rebind hr o).hrOverrun = o := rfl

/-- `f` neither reads nor changes the buffers and the overrun latch. -/
def BufferBlind (f : Psg → Psg) : Prop := ∀ p hr o, f (p.rebind hr o) = (f p).rebind hr o

/-- Blindness says that a machine's own buffers and latch stay. -/
theorem BufferBlind.keeps {f : Psg → Psg} (hf : BufferBlind f) (p : Psg) :
    (f p).hr = p.hr ∧ (f p).hrOverrun = p.hrOverrun := by
  have hown : f p = (f p).rebind p.hr p.hrOverrun := hf p p.hr p.hrOverrun
  rw [hown]
  exact ⟨rfl, rfl⟩

theorem BufferBlind.comp {f k : Psg → Psg} (hk : BufferBlind k) (hf : BufferBlind f) :
    BufferBlind fun p => k (f p) := fun p hr o =>
  (congrArg k (hf p hr o)).trans (hk (f p) hr o)

theorem blind_modChan (c : ChanIdx) (f : Chan → Chan) : BufferBlind fun p => p.modChan c f := fun _ _ _ => rfl

theorem blind_setChan (c : ChanIdx) (x : Chan) : BufferBlind fun p => p.setChan c x := fun _ _ _ => rfl

theorem blind_modGlobal (f : Global → Global) : BufferBlind fun p => p.modGlobal f := fun _ _ _ => rfl

theorem blind_setGlobal (g : Global) : BufferBlind fun p => { p with g := g } := fun _ _ _ => rfl

theorem blind_recalcTone (c : ChanIdx) : BufferBlind (recalcTone c) := fun _ _ _ => rfl

theorem blind_recalcAll (c : ChanIdx) : BufferBlind (recalcAll c) := fun _ _ _ => rfl

theorem blind_powerChan (c : ChanIdx) : BufferBlind (powerChan c) := fun _ _ _ => rfl

/-- A pass over the channels is blind if its steps are. -/
theorem blind_forChans {f : ChanIdx → Psg → Psg} (hf : ∀ c, BufferBlind (f c)) : BufferBlind (forChans f) :=
  (hf 5).comp <| (hf 4).comp <| (hf 3).comp <| (hf 2).comp <| (hf 1).comp (hf 0)

/-- The bank select is no part of the buffers: a banked write is blind if its channel writes are. -/
theorem blind_onSelected {f : ChanIdx → Psg → Psg} (hf : ∀ c, BufferBlind (f c)) : BufferBlind (onSelected f) := by
  intro p hr o
  have hsel : selected (p.rebind hr o) = selected p := rfl
  simp only [onSelected, hsel]
  split
  · exact hf _ p hr o
  · rfl

theorem blind_writeSelect (v : Byte) : BufferBlind (writeSelect v) := fun _ _ _ => rfl

theorem blind_writeGbal (v : Byte) : BufferBlind (writeGbal v) := fun _ _ _ => rfl

theorem blind_writeFreqLo (v : Byte) (c : ChanIdx) : BufferBlind (writeFreqLo v c) := fun _ _ _ => rfl

theorem blind_writeFreqHi (v : Byte) (c : ChanIdx) : BufferBlind (writeFreqHi v c) := fun _ _ _ => rfl

theorem blind_writeCtrl (v : Byte) (c : ChanIdx) : BufferBlind (writeCtrl v c) := fun _ _ _ => rfl

theorem blind_writeBal (v : Byte) (c : ChanIdx) : BufferBlind (writeBal v c) := fun _ _ _ => rfl

theorem blind_writeWave (v : Byte) (c : ChanIdx) : BufferBlind (writeWave v c) := fun _ _ _ => rfl

theorem blind_writeLfofreq (v : Byte) : BufferBlind (writeLfofreq v) := fun _ _ _ => rfl

theorem blind_writeNoise (v : Byte) (c : ChanIdx) : BufferBlind (writeNoise v c) := by
  intro p hr o
  simp only [writeNoise]
  split <;> rfl

theorem blind_writeLfoctrl (v : Byte) : BufferBlind (writeLfoctrl v) := by
  intro p hr o
  simp only [writeLfoctrl]
  split <;> rfl

theorem blind_powerReset : BufferBlind powerReset := (blind_forChans blind_powerChan).comp (blind_modGlobal clearGlobal)

theorem blind_resetTs (base : Int) : BufferBlind (resetTs base) :=
  (blind_forChans fun c => blind_modChan c _).comp (blind_modGlobal _)

theorem blind_loadState (r : Record) : BufferBlind (loadState r) :=
  (blind_forChans blind_recalcAll).comp <| (blind_forChans fun c => blind_modChan c _).comp (blind_setGlobal _)

/-- A SETREG accepts the same fields over any buffers, and stores alike (47_lifecycle_host.md R231). -/
theorem setField_rebind (id : FieldId) (v : Int) (p : Psg) (hr : Stereo Memory) (o : Bool) :
    setField id v (p.rebind hr o) = (setField id v p).map (·.rebind hr o) := by
  cases id with
  | glob f => cases f <;> rfl
  | chan c f =>
    cases f with
    | nctrl =>
      simp only [setField, setChanField]
      split <;> rfl
    | _ => rfl

theorem blind_setField (id : FieldId) (v : Int) : BufferBlind fun p => (setField id v p).getD p := by
  intro p hr o
  simp only [setField_rebind]
  cases setField id v p <;> rfl

/-- What an operation returns to the host tells nothing of the buffers (47_lifecycle_host.md R230 to R234). -/
theorem returned_rebind (p : Psg) (i : Instr) (hr : Stereo Memory) (o : Bool) :
    returned (p.rebind hr o) i = returned p i := by
  cases i with
  | setreg id v => simp only [returned, setField_rebind, Option.isSome_map]
  | getreg id => cases id <;> rfl
  | _ => rfl

/-! ### Two machines side by side -/

/-- Machines that differ in the cells alone are one machine over two pairs of buffers. -/
theorem sameButCells.eq_rebind {p q : Psg} (h : sameButCells p q) : q = p.rebind q.hr p.hrOverrun :=
  Psg.ext_chan h.rev h.g h.chan rfl h.overrun

theorem sameButCells.refl (p : Psg) : sameButCells p p := ⟨rfl, rfl, fun _ => rfl, rfl, rfl, rfl⟩

theorem sameButCells.len {p q : Psg} (h : sameButCells p q) : ∀ b, (q.hr.get b).len = (p.hr.get b).len
  | .left => h.left_len
  | .right => h.right_len

/-- Anything blind to the buffers does the same to machines that differ in the cells alone. -/
theorem sameButCells.blind {f : Psg → Psg} (hf : BufferBlind f) {p q : Psg} (h : sameButCells p q) :
    sameButCells (f p) (f q) := by
  have hfq : f q = (f p).rebind q.hr p.hrOverrun := by rw [← hf, ← h.eq_rebind]
  rw [hfq]
  obtain ⟨hhr, hover⟩ := hf.keeps p
  exact ⟨rfl, rfl, fun _ => rfl, by rw [hhr]; exact h.left_len, by rw [hhr]; exact h.right_len, hover.symm⟩

/-- An injection reads no cell: it adds what the level, the time and the lengths say. -/
theorem sameButCells.emit {p q : Psg} (h : sameButCells p q) (hp : p.buffersFit) (c : ChanIdx) (ts : Int) :
    sameButCells (emit c ts p) (emit c ts q) := by
  have hlevel : level q c = level p c := by simp only [level, h.rev, h.chan]
  have hlen := fun b => (emit_len c ts q b).trans ((h.len b).trans (emit_len c ts p b).symm)
  refine ⟨by simp only [emit_rev, h.rev], by simp only [emit_g, h.g], fun d => ?_, hlen .left, hlen .right, ?_⟩
  · simp only [emit_chan, hlevel, h.chan]
  · rw [Machine.emit, Machine.emit, inject_overrun (fits_of_len hp h.len), inject_overrun hp]
    exact h.overrun

/-- How much more cell `k` of side `b` holds in `q` than in `p`. -/
def cellGap (p q : Psg) (b : Side) (k : Nat) : Int := (q.hr.get b).read k - (p.hr.get b).read k

/-- The machines `p` and `q` are equal but for the cells, over canonical buffers that fit, and their cells are `gap`
apart. -/
structure SideBySide (gap : Side → Nat → Int) (p q : Psg) : Prop where
  same : sameButCells p q
  ready : p.ready
  fst_wf : hrWf p
  snd_wf : hrWf q
  gap : ∀ b k, cellGap p q b k = gap b k

section
variable {gap : Side → Nat → Int} {p q : Psg}

/-- What is blind to the buffers keeps two machines side by side. -/
theorem SideBySide.blind {f : Psg → Psg} (hf : BufferBlind f) (h : SideBySide gap p q) : SideBySide gap (f p) (f q) := by
  obtain ⟨hp, hpo⟩ := hf.keeps p
  obtain ⟨hq, -⟩ := hf.keeps q
  refine ⟨h.same.blind hf, ?_, ?_, ?_, ?_⟩
  · simpa only [Psg.ready, Psg.buffersFit, hp, hpo] using h.ready
  · simpa only [hrWf, hp] using h.fst_wf
  · simpa only [hrWf, hq] using h.snd_wf
  · simpa only [cellGap, hp, hq] using h.gap

/-- An injection adds the same to a cell of either machine (43_injector.md R142). -/
theorem SideBySide.emit (h : SideBySide gap p q) (c : ChanIdx) (ts : Int) :
    SideBySide gap (emit c ts p) (emit c ts q) where
  same := h.same.emit h.ready.1 c ts
  ready := ready_kept.emit ts trivial h.ready
  fst_wf := hrWf_kept.emit ts trivial h.fst_wf
  snd_wf := hrWf_kept.emit ts trivial h.snd_wf
  gap b k := by
    have hlevel : level q c = level p c := by simp only [level, h.same.rev, h.same.chan]
    rw [← h.gap b k, cellGap, cellGap, Machine.emit, Machine.emit, inject_read h.fst_wf h.ready.1,
      inject_read h.snd_wf (fits_of_len h.ready.1 h.same.len), hlevel, h.same.chan]
    omega

/-- Everything that advancing time does keeps two machines side by side. -/
theorem sideBySide_flow : Flow (SideBySide gap) where
  same h := ⟨h.same.rev, h.same.g, fun c _ => h.same.chan c⟩
  emit ts _ h := h.emit _ ts
  edit {_ _ c} y _ h _ := h.blind (blind_setChan c y)
  tone _ h := h.blind (blind_recalcTone 0)
  commit {p _} c a h := h.blind (blind_setChan c { p.chan c with attenuation := a })
  glob g h _ := h.blind (blind_setGlobal g)

theorem SideBySide.update (h : SideBySide gap p q) (ts : Int) : SideBySide gap (update ts p) (update ts q) :=
  sideBySide_flow.update ts h

theorem SideBySide.power (h : SideBySide gap p q) (ts : Int) : SideBySide gap (power ts p) (power ts q) := by
  simp only [Machine.power, h.same.g]
  refine SideBySide.blind blind_powerReset ?_
  split
  · exact h.update ts
  · exact h

/-- Every operation but a CONSTRUCT, which brings its own buffers, keeps two machines side by side. -/
theorem SideBySide.effect (h : SideBySide gap p q) {i : Instr}
    (hi : ∀ hr, i ≠ .constructRev0 hr ∧ i ≠ .constructRevA hr) : SideBySide gap (effect p i) (effect q i) := by
  cases i with
  | wSelect _ v => exact h.blind (blind_writeSelect v)
  | wGbal ts v => exact (h.update ts).blind (blind_writeGbal v)
  | wFreqLo ts v => exact (h.update ts).blind (blind_onSelected (blind_writeFreqLo v))
  | wFreqHi ts v => exact (h.update ts).blind (blind_onSelected (blind_writeFreqHi v))
  | wCtrl ts v => exact (h.update ts).blind (blind_onSelected (blind_writeCtrl v))
  | wBal ts v => exact (h.update ts).blind (blind_onSelected (blind_writeBal v))
  | wWave ts v => exact (h.update ts).blind (blind_onSelected (blind_writeWave v))
  | wNoise ts v => exact (h.update ts).blind (blind_onSelected (blind_writeNoise v))
  | wLfofreq ts v => exact (h.update ts).blind (blind_writeLfofreq v)
  | wLfoctrl ts v => exact (h.update ts).blind (blind_writeLfoctrl v)
  | wRsvdA ts _ | wRsvdB ts _ | wRsvdC ts _ | wRsvdD ts _ | wRsvdE ts _ | wRsvdF ts _ | upd ts => exact h.update ts
  | pwr ts => exact h.power ts
  | rts base => exact h.blind (blind_resetTs base)
  | getreg | peek | save => exact h
  | setreg id v => exact h.blind (blind_setField id v)
  | poke c j v => exact h.blind (blind_modChan c fun x => waveWrite x j.toNat (maskTo 5 v))
  | load r => exact h.blind (blind_loadState r)
  | constructRev0 hr => exact absurd rfl (hi hr).1
  | constructRevA hr => exact absurd rfl (hi hr).2

end

/-- A CONSTRUCT leaves the machine of its own operands, whatever there was before (47_lifecycle_host.md R224). -/
theorem effect_construct {i : Instr} (hi : ∃ hr, i = .constructRev0 hr ∨ i = .constructRevA hr) (p q : Psg) :
    effect q i = effect p i ∧ (effect q i).hrOverrun = false := by
  obtain ⟨hr, rfl | rfl⟩ := hi <;> exact ⟨rfl, by rw [effect, construct_eq]; rfl⟩

/-- Settles O40: a CONSTRUCT reads nothing of the machine, and over any other operation the two machines stay side by
side, every cell as far apart as it was. -/
theorem buffersAreNeverRead : Obligations.BuffersAreNeverRead := by
  intro i s s' t hsame hready _ hl hr hl' hr' ht
  have hreturned : returned s'.psg i = returned s.psg i := by rw [hsame.eq_rebind, returned_rebind]
  rw [exec_effect ht]
  by_cases hi : ∃ hr, i = .constructRev0 hr ∨ i = .constructRevA hr
  · obtain ⟨heq, hover⟩ := effect_construct hi s.psg s'.psg
    have hafter : sameButCells (effect s.psg i) (effect s'.psg i) := heq ▸ .refl _
    exact ⟨_, exec_next hover, hreturned, hafter, fun hno => absurd hi fun ⟨hr, h⟩ => not_or.mpr (hno hr) h⟩
  · have hside : SideBySide (cellGap s.psg s'.psg) s.psg s'.psg :=
      ⟨hsame, hready, fun | .left => hl | .right => hr, fun | .left => hl' | .right => hr', fun _ _ => rfl⟩
    have hafter := hside.effect fun hr => not_or.mp (not_exists.mp hi hr)
    refine ⟨_, exec_next (hafter.same.overrun.trans hafter.ready.2), hreturned, hafter.same, fun _ b k => ?_⟩
    have hgap := hafter.gap b k
    simp only [cellGap] at hgap
    simp only
    omega

end Sys2Proof.Machine
end

section
/-! PROOFS. One cell of the waveform RAM: reading, writing, and POKE (20_memory.md R64, R65; 47_lifecycle_host.md
R233). -/

namespace Sys2Proof.Machine

/-- Indices count modulo 32 (20_memory.md R64). -/
theorem waveRead_add_32 (x : Chan) (j : Nat) : waveRead x (j + 32) = waveRead x j := by
  simp only [waveRead, cellIdx, Nat.add_mod_right]

/-- Settles O16: what a write stores reads back at every index that counts as the same cell, and nothing but the cells
and the accumulator moves. -/
theorem waveformWriteRead : Obligations.WaveformWriteRead := fun x i j w =>
  ⟨rfl, waveRead_waveWrite x i j w, waveRead_add_32 x j, rfl, rfl⟩

/-- A waveform write stores at the index modulo 32 (20_memory.md R64, R65). -/
theorem waveWrite_waveform (x : Chan) (i : Nat) (w : Sample) :
    (waveWrite x i w).waveform = x.waveform.setIfInBounds (i % 32) w :=
  Vector.ext fun j hj => by
    simp only [waveWrite, cellIdx, Vector.getElem_set, Vector.getElem_setIfInBounds]

/-- Everything a waveform write does: the one cell and the accumulator (20_memory.md R65). -/
theorem waveWrite_eq (x : Chan) (i : Nat) (w : Sample) :
    waveWrite x i w
      = { x with
          waveform := x.waveform.setIfInBounds (i % 32) w
          sampleAccumulator := x.sampleAccumulator - (waveRead x i).toNat + w.toNat } := by
  rw [← waveWrite_waveform]
  rfl

/-- The low five bits of an integer, of a negative one those of its two's complement, are it modulo 32 (00_scope.md R13,
log 15). -/
theorem maskTo_five_toNat (v : Int) : ((maskTo 5 v).toNat : Int) = v % 32 := by
  have hnonneg : 0 ≤ v % 32 := Int.emod_nonneg v (by decide)
  rw [maskTo, BitVec.toNat_ofInt]
  exact Int.toNat_of_nonneg hnonneg

/-- A store into one channel touches nothing else. -/
theorem modChan_onlyChan (p : Psg) (c : ChanIdx) (f : Chan → Chan) : onlyChan c p (p.modChan c f) where
  rev := rfl
  hr := rfl
  overrun := rfl
  others d hd := by rw [Psg.chan_modChan, if_neg hd]

/-- Settles O58: POKE is a waveform write of the masked value. -/
theorem pokeStores : Obligations.PokeStores := by
  intro s c i v
  refine ⟨_, rfl, rfl, rfl, ?_, rfl, modChan_onlyChan s.psg c fun x => waveWrite x i.toNat (maskTo 5 v)⟩
  simp only [Psg.chan_modChan, if_true, waveWrite_eq, maskTo_five_toNat]
  rfl

end Sys2Proof.Machine
end

section
/-! PROOFS. An addition outside a short buffer: the overrun it records, that nothing clears it, and the fault at the end of
the operation (20_memory.md R78, log 4). -/

namespace Sys2Proof.Machine

/-! ### An injection into a short buffer -/

/-- Taps that reach past the end of the buffer record an overrun (20_memory.md R78). -/
theorem addTaps_overruns (b : Side) (delta : Int) (i : Nat) (tap : Int) (taps : List Int) (p : Psg)
    (h : (p.hr.get b).len ≤ i + taps.length) : (addTaps b delta i (tap :: taps) p).hrOverrun = true := by
  induction taps generalizing i tap p with
  | nil =>
    have hout : ¬ i < (p.hr.get b).len := by simpa using h
    rw [addTaps, addTaps, hrAdd_outside hout]
  | cons tap' taps ih =>
    rw [addTaps]
    refine ih _ _ _ ?_
    simp only [List.length_cons] at h
    rw [hrAdd_len]
    omega

/-- The last tap of an injection falls on the sixth cell after the base cell (43_injector.md R146), past the end of a
buffer too short for it. -/
theorem injectSide_overruns {p : Psg} {c : ChanIdx} {ts : Int} {b : Side} {lv : Int}
    (hlv : lv ≠ (p.chan c).prev.get b) (hshort : (p.hr.get b).len ≤ hrBase ts + 6) :
    (injectSide c ts b lv p).hrOverrun = true := by
  have hdelta : ¬ lv - (p.chan c).prev.get b = 0 := fun h => hlv (by omega)
  obtain ⟨tap, taps, hkernel⟩ := List.exists_cons_of_length_eq_add_one (kernel_length (kernelRow ts))
  have hlen : taps.length = 6 := by
    have := kernel_length (kernelRow ts)
    simpa [hkernel] using this
  simp only [injectSide, if_neg hdelta, Psg.modChan_hrOverrun, hkernel]
  exact addTaps_overruns b _ _ tap taps p (hlen ▸ hshort)

/-- One side of an injection leaves a recorded overrun recorded. -/
theorem injectSide_overrun_stays (c : ChanIdx) (ts : Int) (b : Side) (lv : Int) {p : Psg} (h : p.hrOverrun = true) :
    (injectSide c ts b lv p).hrOverrun = true := by
  simp only [injectSide]
  split
  · exact h
  · exact addTaps_overrun_stays b _ _ _ h

/-- A level that changed is injected, and overruns a buffer too short for the taps (20_memory.md R78). -/
theorem inject_overruns {p : Psg} {c : ChanIdx} {ts : Int} {lv : Stereo Int} {b : Side}
    (hlv : lv.get b ≠ (p.chan c).prev.get b) (hshort : ((p.hr.get b).len : Int) ≤ ts / 4 % 65536 + 6) :
    (inject c ts lv p).hrOverrun = true := by
  have hbase : (p.hr.get b).len ≤ hrBase ts + 6 := by
    unfold hrBase Config.hrMask
    omega
  rw [inject]
  cases b with
  | left => exact injectSide_overrun_stays _ _ _ _ (injectSide_overruns hlv hbase)
  | right => exact injectSide_overruns (by simpa using hlv) (by simpa only [injectSide_len] using hbase)

/-! ### Passes over the channels -/

/-- A pass over a list of channels with `c` among them reaches `c` with what no other step spoils, and keeps what the
step of `c` brings about. -/
theorem foldl_reaches {f : ChanIdx → Psg → Psg} {P Q : Psg → Prop} {c : ChanIdx}
    (hother : ∀ d p, d ≠ c → P p → P (f d p)) (hown : ∀ p, P p → Q (f c p)) (hstays : ∀ d p, Q p → Q (f d p))
    (l : List ChanIdx) (p : Psg) (h : Q p ∨ c ∈ l ∧ P p) : Q (l.foldl (fun q d => f d q) p) := by
  induction l generalizing p with
  | nil =>
    obtain hq | ⟨hc, -⟩ := h
    · exact hq
    · cases hc
  | cons d l ih =>
    obtain hq | ⟨hc, hp⟩ := h
    · exact ih _ (.inl (hstays d p hq))
    · by_cases hd : d = c
      · subst hd
        exact ih _ (.inl (hown p hp))
      · exact ih _ (.inr ⟨(List.mem_cons.mp hc).resolve_left (Ne.symm hd), hother d p hd hp⟩)

/-- The pass over the six channels reaches every channel. -/
theorem forChans_reaches {f : ChanIdx → Psg → Psg} {P Q : Psg → Prop} {c : ChanIdx}
    (hother : ∀ d p, d ≠ c → P p → P (f d p)) (hown : ∀ p, P p → Q (f c p)) (hstays : ∀ d p, Q p → Q (f d p))
    {p : Psg} (hp : P p) : Q (forChans f p) := by
  have hmem : ∀ c : ChanIdx, c ∈ [0, 1, 2, 3, 4, 5] := by decide
  exact foldl_reaches hother hown hstays [0, 1, 2, 3, 4, 5] p (.inr ⟨hmem c, hp⟩)

/-! ### A channel that owes an injection -/

/-- Channel `c` stands at the time `ts` and owes side `b` an injection that the buffer is too short for. -/
structure Owes (c : ChanIdx) (b : Side) (ts : Int) (p : Psg) : Prop where
  stamp : (p.chan c).lastTs = ts
  level : (level p c).get b ≠ (p.chan c).prev.get b
  short : ((p.hr.get b).len : Int) ≤ ts / 4 % 65536 + 6

section
variable {c : ChanIdx} {b : Side} {ts : Int} {p : Psg}

/-- Runs of other channels leave the debt as it is. -/
theorem Owes.of_frame {S : ChanIdx → Prop} {q : Psg} (ho : Owes c b ts p) (hc : ¬ S c) (h : RunFrame S p q) :
    Owes c b ts q where
  stamp := by rw [h.other c hc, ho.stamp]
  level := by
    have hlevel : Machine.level q c = Machine.level p c := by simp only [Machine.level, h.rev, h.other c hc]
    rw [hlevel, h.other c hc]
    exact ho.level
  short := by rw [h.len]; exact ho.short

/-- What a run does before the stop conditions injects what the channel owes (44_channel_run.md R155). -/
theorem Owes.runHead_overruns (ho : Owes c b ts p) (target : Int) : (runHead c target p).hrOverrun = true := by
  have hstart : (runStart c target p).hrOverrun = true := by
    rw [runStart, Psg.modChan_hrOverrun, ho.stamp]
    exact inject_overruns ho.level ho.short
  rw [runHead_eq, ← runStart_eq]
  exact (overrun_kept.flow.noiseSection (c := c) trivial target _ ⟨rfl, hstart⟩).2

/-- A run of a channel that owes an injection overruns, whatever follows its waveform steps, so long as that clears no
overrun. -/
theorem Owes.runWith_overruns (ho : Owes c b ts p) {target : Int} (ht : ts ≠ target) (live : Bool)
    {after : Int → Psg → Psg} (hafter : ∀ sub p, p.hrOverrun = true → (after sub p).hrOverrun = true) :
    (runWith after c target live p).hrOverrun = true := by
  have hhead := ho.runHead_overruns target
  rw [runWith_eq _ _ (ho.stamp ▸ ht.symm)]
  split
  · exact hhead
  · exact (overrun_kept.flow.waveSection (fun sub _ _ h => ⟨congrArg _ h.1, hafter sub _ h.2⟩) trivial target _ live
      ⟨rfl, hhead⟩).2

theorem Owes.runChannel_overruns (ho : Owes c b ts p) {target : Int} (ht : ts ≠ target) (live : Bool) :
    (runChannel c target live p).hrOverrun = true := by
  simp only [runChannel]
  split
  · next hcarrier =>
    obtain ⟨rfl, rfl⟩ := hcarrier
    exact ho.runWith_overruns ht true fun sub _ h =>
      (overrun_kept.flow.carrierAfter trivial trivial sub ⟨rfl, h⟩).2
  · exact ho.runWith_overruns ht live fun _ _ h => h

/-- A chunk of time runs every channel, and with it the one that owes an injection; not so the modulator under live
modulation, which the carrier may have run before (44_channel_run.md R166). -/
theorem Owes.runAll_overruns (ho : Owes c b ts p) {target : Int} (ht : ts ≠ target) {live : Bool}
    (hc : ¬ (c = 1 ∧ live = true)) : (runAll target live p).hrOverrun = true := by
  refine forChans_reaches (c := c) (f := fun d => runChannel d target live) (P := Owes c b ts)
    (Q := fun q => q.hrOverrun = true) ?_ (fun q hq => ?_) (fun d q hq => ?_) ho
  · intro d q hd hq
    refine hq.of_frame ?_ (runChannel_frame d target live q)
    rintro (rfl | ⟨-, hlive, hc1⟩)
    · exact hd rfl
    · exact hc ⟨hc1, hlive⟩
  · exact hq.runChannel_overruns ht live
  · exact overrun_kept.runChannel trivial target live (fun _ => trivial) hq

/-- A chunk loop that has time to run begins with a pass over the channels (45_update_scheduler.md R178, R179). -/
theorem Owes.chunkLoop_overruns (ho : Owes c b ts p) (hlast : p.g.lastTs = ts) {n : Nat} (hn : 0 < n) {live : Bool}
    (hc : ¬ (c = 1 ∧ live = true)) : (chunkLoop live n p).hrOverrun = true := by
  have hlen := chunkLen_pos hn p
  have hpass := ho.runAll_overruns (target := p.g.lastTs + chunkLen n p) (by omega) hc
  have hchunk : (runChunk live (chunkLen n p) p).hrOverrun = true := by
    rw [runChunk_eq, Psg.modGlobal_hrOverrun]
    exact (overrun_kept.flow.tickXfade _ ⟨rfl, hpass⟩).2
  rw [chunkLoop_next live hn]
  exact (overrun_kept.flow.chunkLoop live _ ⟨rfl, hchunk⟩).2

end

/-! ### The operations -/

/-- A channel that owes an injection at the time already reached makes the next `Update` overrun. -/
theorem update_overruns {p : Psg} {ts : Int} {c : ChanIdx} {b : Side} (hts : p.g.lastTs < ts)
    (hc : ¬ (c = 1 ∧ modulationLive p = true)) (ho : Owes c b p.g.lastTs (update p.g.lastTs p)) :
    (update ts p).hrOverrun = true := by
  rw [update_eq_chunkLoop]
  exact ho.chunkLoop_overruns (update_lastTs (le_refl _)) (by omega) hc

/-- `Update` to the time already reached leaves the time stamps of the channels (45_update_scheduler.md R182). -/
theorem update_same_stamp (p : Psg) (c : ChanIdx) : ((update p.g.lastTs p).chan c).lastTs = (p.chan c).lastTs := by
  obtain ⟨f, o, hchan, -⟩ := beginUpdate_chan p c
  rw [update_same, hchan]

/-- What follows the flush of an operation clears no overrun of the flush, so the operation ends in the fault (log 4). -/
theorem complete_blind_overrun {s : State} {p : Psg} (h : p.hrOverrun = true) {f : Psg → Psg} (hf : BufferBlind f) :
    complete s (f p) .nothing = .fault .hrOutOfRange :=
  complete_overrun ((hf.keeps p).2.trans h)

/-- Settles O19: the taps run past the end of a short buffer, nothing that runs or stores clears the overrun, and
`complete` turns it into the fault; a chunk of time comes to every channel that owes an injection. -/
theorem shortBufferFaults : Obligations.ShortBufferFaults := by
  refine ⟨fun p c ts lv b _ hlv hshort => inject_overruns hlv hshort, ?_, ?_, ?_⟩
  · intro p ts h _
    exact ⟨fun c lv => inject_overrun_stays c ts lv h,
      fun c live _ => overrun_kept.runChannel trivial ts live (fun _ => trivial) h, overrun_kept.update ts h⟩
  · intro s ts v _ h
    have hflush : complete s (update ts s.psg) .nothing = .fault .hrOutOfRange := complete_overrun h
    have hbank : ∀ {f}, (∀ c, BufferBlind (f c)) →
        complete s (onSelected f (update ts s.psg)) .nothing = .fault .hrOutOfRange :=
      fun hf => complete_blind_overrun h (blind_onSelected hf)
    refine ⟨?_, fun hne => ?_⟩
    · simp only [List.forall_mem_cons]
      exact ⟨hflush, complete_blind_overrun h (blind_writeGbal v),
        hbank (blind_writeFreqLo v), hbank (blind_writeFreqHi v), hbank (blind_writeCtrl v), hbank (blind_writeBal v),
        hbank (blind_writeWave v), hbank (blind_writeNoise v), complete_blind_overrun h (blind_writeLfofreq v),
        complete_blind_overrun h (blind_writeLfoctrl v), hflush, hflush, hflush, hflush, hflush, hflush,
        List.forall_mem_nil _⟩
    · refine complete_overrun ?_
      rw [power, if_pos hne, powerReset_hrOverrun, h]
  · intro s ts c b _ hts hstamp hc hlevel hshort
    refine complete_overrun (update_overruns (b := b) hts hc ⟨?_, hlevel, ?_⟩)
    · rw [update_same_stamp, hstamp]
    · rw [(update_rev_len _ _).2]
      exact hshort

end Sys2Proof.Machine
end

section
/-! PROOFS. What the decoder accepts: encoded again, it keeps every field of its format (30_encoding.md R86 to R88,
R101). -/

-- Proofs one after another: elaborated side by side they ask for one thread, and its stack, each.
set_option Elab.async false

namespace Sys2Proof.Machine

/-- Settles O1: one lemma per constructor, put together in `decode_encode`. -/
theorem decodeEncodeAgree : Obligations.DecodeEncodeAgree := decode_encode

/-- Settles O3: each word is the encoding of its operation, so it decodes to it. -/
theorem wordsDecode : Obligations.WordsDecode :=
  ⟨decode_encode (.wCtrl 100 0x9F) rfl, decode_encode (.wSelect 7 0x0D) rfl, decode_encode (.wRsvdF 3 0x00) rfl,
    decode_encode (.upd 5000) rfl, decode_encode (.pwr 6000) rfl, decode_encode (.rts 0) rfl,
    decode_encode (.getreg (.chan 5 .freqcache)) rfl, decode_encode (.setreg (.glob .lfoctrl) 0x81) rfl,
    decode_encode (.peek 2 33) rfl, decode_encode (.poke 0 35 0xFF) rfl, decode_encode .save rfl,
    decode_encode (.load Record.zero) rfl, decode_encode (.constructRev0 blankHr) rfl,
    decode_encode (.constructRevA blankHr) rfl⟩

/-! ### Channels and field codes are written back as they were read -/

theorem chanA_of_chanOfA {a : BitVec 4} {c : ChanIdx} (h : chanOfA a = some c) : chanA c = a := by
  unfold chanOfA at h
  split at h <;> cases h
  exact BitVec.ofNat_toNat 4 a

theorem code_of_chanFieldOfCode {d : Byte} {f : ChanField} (h : chanFieldOfCode d = some f) : f.code = d := by
  unfold chanFieldOfCode at h
  split at h <;> cases h
  all_goals next hd => exact (BitVec.eq_of_toNat_eq hd).symm

theorem code_of_globFieldOfCode {d : Byte} {f : GlobField} (h : globFieldOfCode d = some f) : f.code = d := by
  unfold globFieldOfCode at h
  split at h <;> cases h
  all_goals next hd => exact (BitVec.eq_of_toNat_eq hd).symm

/-- A debug register access is encoded with the fields it was read from. -/
theorem fieldWord_of_decodeField {a : BitVec 4} {d : Byte} {id : FieldId} (h : decodeField a d = .ok id)
    (kind : BitVec 4) : fieldWord kind id = cword kind a d := by
  unfold decodeField at h
  split at h
  · next ha =>
    have ha : a = 0xF := BitVec.eq_of_toNat_eq ha
    split at h <;> cases h
    next f hf => rw [fieldWord, code_of_globFieldOfCode hf, ha]
  · split at h
    · cases h
    · next c hc =>
      split at h <;> cases h
      next f hf => rw [fieldWord, chanA_of_chanOfA hc, code_of_chanFieldOfCode hf]

/-! ### The command of a decoded instruction, format by format (30_encoding.md R87) -/

/-- Each of the sixteen offsets is one register write (30_encoding.md R88). -/
theorem encode_decodeWrite (a : BitVec 4) (d : Byte) (t : Int) :
    encode (decodeWrite a d t) = .plain (cword 0x0 a d) t := by
  obtain ⟨⟨n, hn⟩⟩ := a
  interval_cases n <;> rfl

theorem encode_of_decodeGet {a : BitVec 4} {d : Byte} {i : Instr} (h : decodeGet a d = .ok i) :
    encode i = .plain (cword 0x4 a d) 0 := by
  unfold decodeGet at h
  split at h <;> cases h
  next id hid => rw [encode, fieldWord_of_decodeField hid]

theorem encode_of_decodeSet {a : BitVec 4} {d : Byte} {t : Int} {i : Instr} (h : decodeSet a d t = .ok i) :
    encode i = .plain (cword 0x5 a d) t := by
  unfold decodeSet at h
  split at h <;> cases h
  next id hid => rw [encode, fieldWord_of_decodeField hid]

theorem encode_of_decodePeek {a : BitVec 4} {d : Byte} {i : Instr} (h : decodePeek a d = .ok i) :
    encode i = .plain (cword 0x6 a d) 0 := by
  unfold decodePeek at h
  split at h <;> cases h
  next c hc => rw [encode, chanA_of_chanOfA hc]

theorem encode_of_decodePoke {a : BitVec 4} {d : Byte} {t : Int} {i : Instr} (h : decodePoke a d t = .ok i) :
    encode i = .plain (cword 0x7 a d) t := by
  unfold decodePoke at h
  split at h <;> cases h
  next c hc => rw [encode, chanA_of_chanOfA hc]

/-- A CONSTRUCT is encoded with the revision code it was read from. -/
theorem cw_encode_of_decodeConstruct {a : BitVec 4} {hr : Stereo Memory} {i : Instr}
    (h : decodeConstruct a hr = .ok i) : (encode i).cw = cword 0xF a 0x00 := by
  unfold decodeConstruct at h
  split at h <;> cases h
  · next ha =>
    have ha : a = 0 := BitVec.eq_of_toNat_eq ha
    rw [encode, ha]
    rfl
  · next ha =>
    have ha : a = 1 := BitVec.eq_of_toNat_eq ha
    rw [encode, ha]
    rfl

/-- Settles O2: by the kind that was decoded, whose format `encode` writes back field by field. -/
theorem encodeDecodedKeepsFields : Obligations.EncodeDecodedKeepsFields := by
  intro k i h
  refine ⟨decode_wf h, ?_⟩
  unfold decode at h
  split at h
  case h_1 hk =>
    cases h
    simp [encode_decodeWrite, hk, ← BitVec.toNat_inj]
  case h_2 hk | h_3 hk | h_4 hk | h_9 hk | h_10 hk =>
    cases h
    simp [encode, hk, ← BitVec.toNat_inj]
  case h_5 hk => simp [encode_of_decodeGet h, hk, ← BitVec.toNat_inj]
  case h_6 hk => simp [encode_of_decodeSet h, hk, ← BitVec.toNat_inj]
  case h_7 hk => simp [encode_of_decodePeek h, hk, ← BitVec.toNat_inj]
  case h_8 hk => simp [encode_of_decodePoke h, hk, ← BitVec.toNat_inj]
  case h_11 hk => simp [cw_encode_of_decodeConstruct h, hk, ← BitVec.toNat_inj]
  case h_12 => cases h

end Sys2Proof.Machine
end

section
/-! PROOFS. What the decoder refuses, and under which name (30_encoding.md R96, R101; the names are the model's, log
10). -/

-- Proofs one after another: elaborated side by side they ask for one thread, and its stack, each.
set_option Elab.async false

namespace Sys2Proof.Machine

/-- When a GETREG or a SETREG is refused under each name. -/
def FieldRefusedAs (a : BitVec 4) (d : Byte) : DecodeError → Prop
  | .badChannel => 6 ≤ a.toNat ∧ a.toNat ≠ 0xF
  | .badField => a.toNat < 6 ∧ 0x12 ≤ d.toNat ∨ a.toNat = 0xF ∧ 9 ≤ d.toNat
  | .reservedKind | .badRevision => False

/-- When a command is refused under each name. -/
def RefusedAs (k : Command) : DecodeError → Prop
  | .reservedKind => 0xA ≤ (cwKind k.cw).toNat ∧ (cwKind k.cw).toNat ≤ 0xE
  | .badRevision => (cwKind k.cw).toNat = 0xF ∧ 2 ≤ (cwA k.cw).toNat
  | .badChannel =>
    (cwKind k.cw).toNat ∈ [0x4, 0x5] ∧ FieldRefusedAs (cwA k.cw) (cwD k.cw) .badChannel
      ∨ (cwKind k.cw).toNat ∈ [0x6, 0x7] ∧ 6 ≤ (cwA k.cw).toNat
  | .badField => (cwKind k.cw).toNat ∈ [0x4, 0x5] ∧ FieldRefusedAs (cwA k.cw) (cwD k.cw) .badField

/-! ### The codes that name nothing -/

theorem chanOfA_eq_none {a : BitVec 4} : chanOfA a = none ↔ 6 ≤ a.toNat := by
  unfold chanOfA
  split <;> simp only [reduceCtorEq, false_iff, true_iff] <;> omega

theorem chanFieldOfCode_eq_none {d : Byte} : chanFieldOfCode d = none ↔ 0x12 ≤ d.toNat := by
  unfold chanFieldOfCode
  split <;> simp only [imp_false, reduceCtorEq, false_iff, true_iff] at * <;> omega

theorem globFieldOfCode_eq_none {d : Byte} : globFieldOfCode d = none ↔ 9 ≤ d.toNat := by
  unfold globFieldOfCode
  split <;> simp only [imp_false, reduceCtorEq, false_iff, true_iff] at * <;> omega

/-! ### The refusals of each format -/

/-- The channel is looked at before the field id (log 10). -/
theorem decodeField_eq_error {a : BitVec 4} {d : Byte} {e : DecodeError} :
    decodeField a d = .error e ↔ FieldRefusedAs a d e := by
  unfold decodeField
  split
  · next ha =>
    split
    · next f hf =>
      have hd : ¬ 9 ≤ d.toNat := fun h => by simp [globFieldOfCode_eq_none.mpr h] at hf
      cases e <;> simp [FieldRefusedAs, ha, hd]
    · next hf => cases e <;> simp [FieldRefusedAs, ha, globFieldOfCode_eq_none.mp hf]
  · next ha =>
    split
    · next hc => cases e <;> simp [FieldRefusedAs, ha, chanOfA_eq_none.mp hc]
    · next c hc =>
      have hc : ¬ 6 ≤ a.toNat := fun h => by simp [chanOfA_eq_none.mpr h] at hc
      split
      · next f hf =>
        have hd : ¬ 0x12 ≤ d.toNat := fun h => by simp [chanFieldOfCode_eq_none.mpr h] at hf
        cases e <;> simp [FieldRefusedAs, ha, hc, hd]
      · next hf =>
        cases e <;> simp [FieldRefusedAs, ha, hc, chanFieldOfCode_eq_none.mp hf]
        omega

theorem decodeGet_eq_error {a : BitVec 4} {d : Byte} {e : DecodeError} :
    decodeGet a d = .error e ↔ FieldRefusedAs a d e := by
  rw [← decodeField_eq_error]
  unfold decodeGet
  split <;> next h => simp [h]

theorem decodeSet_eq_error {a : BitVec 4} {d : Byte} {t : Int} {e : DecodeError} :
    decodeSet a d t = .error e ↔ FieldRefusedAs a d e := by
  rw [← decodeField_eq_error]
  unfold decodeSet
  split <;> next h => simp [h]

theorem decodePeek_eq_error {a : BitVec 4} {d : Byte} {e : DecodeError} :
    decodePeek a d = .error e ↔ e = .badChannel ∧ 6 ≤ a.toNat := by
  rw [← chanOfA_eq_none]
  unfold decodePeek
  split <;> next h => simp [h, eq_comm]

theorem decodePoke_eq_error {a : BitVec 4} {d : Byte} {t : Int} {e : DecodeError} :
    decodePoke a d t = .error e ↔ e = .badChannel ∧ 6 ≤ a.toNat := by
  rw [← chanOfA_eq_none]
  unfold decodePoke
  split <;> next h => simp [h, eq_comm]

theorem decodeConstruct_eq_error {a : BitVec 4} {hr : Stereo Memory} {e : DecodeError} :
    decodeConstruct a hr = .error e ↔ e = .badRevision ∧ 2 ≤ a.toNat := by
  unfold decodeConstruct
  split
  · next ha => simp [ha]
  · next ha => simp [ha]
  · next h0 h1 =>
    have ha : 2 ≤ a.toNat := (Nat.two_le_iff _).mpr ⟨h0, h1⟩
    simp [ha, eq_comm]

/-- Everything the decoder refuses, by the kind of the command. -/
theorem decode_eq_error {k : Command} {e : DecodeError} : decode k = .error e ↔ RefusedAs k e := by
  unfold decode
  split
  case h_1 hk | h_2 hk | h_3 hk | h_4 hk | h_9 hk | h_10 hk => cases e <;> simp [RefusedAs, hk]
  case h_5 hk => rw [decodeGet_eq_error]; cases e <;> simp [RefusedAs, FieldRefusedAs, hk]
  case h_6 hk => rw [decodeSet_eq_error]; cases e <;> simp [RefusedAs, FieldRefusedAs, hk]
  case h_7 hk => rw [decodePeek_eq_error]; cases e <;> simp [RefusedAs, hk]
  case h_8 hk => rw [decodePoke_eq_error]; cases e <;> simp [RefusedAs, hk]
  case h_11 hk => rw [decodeConstruct_eq_error]; cases e <;> simp [RefusedAs, hk]
  case h_12 =>
    have hk : 0xA ≤ (cwKind k.cw).toNat ∧ (cwKind k.cw).toNat ≤ 0xE := by
      simp only [imp_false] at *
      omega
    cases e <;> simp [RefusedAs, hk] <;> omega

/-- Settles O4: the decoder's refusals, name by name. -/
theorem reservedEncodingsRefused : Obligations.ReservedEncodingsRefused := fun _ =>
  ⟨decode_eq_error, decode_eq_error, decode_eq_error, decode_eq_error⟩

end Sys2Proof.Machine
end

section
/-! PROOFS. The reads of the debug path (47_lifecycle_host.md R230, R232, R234). -/

-- Proofs one after another: elaborated side by side they ask for one thread, and its stack, each.
set_option Elab.async false

namespace Sys2Proof.Machine

/-- A saved record holds the record of every channel. -/
theorem saveState_chan (p : Psg) (c : ChanIdx) : (saveState p).ch[c] = saveChan (p.chan c) := by
  simp [saveState, Psg.chan]

/-- A saved channel holds every cell of the waveform. -/
theorem saveChan_waveform (x : Chan) (i : Nat) (h : i < 32) :
    (saveChan x).waveform[i] = (x.waveform[i].toNat : Int) := by
  simp [saveChan]

/-- Settles O54: a read is the field it names by definition; only the channels of the record and their waveform cells
stand behind a map over a vector. -/
theorem debugReads : Obligations.DebugReads := by
  intro s
  refine ⟨fun _ => rfl, fun _ _ => rfl, rfl, ?glob, fun c => ?chan⟩
  case glob =>
    exact ⟨rfl, rfl, rfl, rfl, rfl, rfl, rfl, rfl, rfl, rfl, rfl, rfl, rfl, rfl, rfl, rfl, rfl, rfl⟩
  case chan =>
    refine ⟨rfl, rfl, rfl, rfl, rfl, rfl, rfl, rfl, rfl, rfl, rfl, rfl, rfl, rfl, rfl, rfl, rfl, rfl, ?record⟩
    rw [saveState_chan]
    exact ⟨rfl, rfl, rfl, rfl, rfl, rfl, rfl, rfl, rfl, rfl, rfl, rfl, rfl, rfl, rfl, rfl,
      saveChan_waveform (s.psg.chan c)⟩

end Sys2Proof.Machine
end

section
/-! PROOFS. The mute at level 31 and the shape of the envelope tables (40_envelope_table.md R107 to R109), for every
gain. The tables of the machine are the ones of its own gain, by definition. -/

-- Proofs one after another: elaborated side by side they ask for one thread, and its stack, each.
set_option Elab.async false

namespace Sys2Proof.Machine

/-- The hardware mute of the amplitude table (40_envelope_table.md R107). -/
@[simp] theorem envFor_mute (g : Gain) (rev : Rev) (x : Sample) : envFor g rev 31 x = 0 := if_pos rfl

/-- The hardware mute of the volume table (40_envelope_table.md R107). -/
@[simp] theorem envVolFor_mute (g : Gain) : envVolFor g 31 = 0 := if_pos rfl

/-- The mute of the machine's `ENV` is that of its gain (40_envelope_table.md R106, R107). -/
theorem env_mute (rev : Rev) (x : Sample) : env rev 31 x = 0 := envFor_mute gain rev x

/-- The mute of the machine's `ENVVOL` is that of its gain (40_envelope_table.md R106, R107). -/
theorem envVol_mute : envVol 31 = 0 := envVolFor_mute gain

/-- Every output function reads one of the two tables, or is silent by itself (42_output_function.md R131 to R134). -/
theorem levelOn_mute (rev : Rev) (x : Chan) : levelOn rev x 31 = 0 := by
  unfold levelOn
  cases x.outputFunction with
  | off => rfl
  | normal => exact env_mute rev x.ddaLatch
  | noise => exact env_mute rev (noiseSample x.lfsr)
  | accumulate => simp only [envVol_mute, zero_mul, Int.zero_ediv]

/-- Settles O8: both tables are muted at level 31 by definition, and the level of a side reads nothing else. -/
theorem attenuationThirtyOneIsSilent : Obligations.AttenuationThirtyOneIsSilent := by
  refine ⟨env_mute, envVol_mute, fun g rev x => ⟨envFor_mute g rev x, envVolFor_mute g⟩, fun p c h => ?_⟩
  rw [level, h, levelOn_mute]

/-- Below level 31 the next level does not wrap. -/
theorem toNat_add_one_of_ne {a : Sample} (ha : a ≠ 31) : (a + 1).toNat = a.toNat + 1 := by
  bv_omega

/-- A level is no louder than the one before it; the last step is down to the mute (40_envelope_table.md R108). -/
theorem natAbs_envFor_antitone {a : Sample} (ha : a ≠ 31) (g : Gain) (rev : Rev) (x : Sample) :
    (envFor g rev (a + 1) x).natAbs ≤ (envFor g rev a x).natAbs := by
  by_cases hnext : a + 1 = 31
  · rw [hnext, envFor_mute]
    exact Nat.zero_le _
  · rw [natAbs_envFor hnext, natAbs_envFor ha, toNat_add_one_of_ne ha]
    exact ampFloor_antitone g a.toNat _

/-- The volumes shrink with the level, the last one to the mute (40_envelope_table.md R108). -/
theorem envVolFor_antitone {a : Sample} (ha : a ≠ 31) (g : Gain) : envVolFor g (a + 1) ≤ envVolFor g a := by
  by_cases hnext : a + 1 = 31
  · rw [hnext, envVolFor_mute]
    exact (envVolFor_exact ha g).1
  · rw [envVolFor_of_ne hnext, envVolFor_of_ne ha, toNat_add_one_of_ne ha]
    exact_mod_cast ampFloor_antitone g a.toNat 262144

/-- Sample 0 of REV_0 is silent at every level (40_envelope_table.md R109). -/
theorem envFor_rev0_zero (g : Gain) (a : Sample) : envFor g .rev0 a 0 = 0 := by
  by_cases ha : a = 31
  · rw [ha, envFor_mute]
  · rw [envFor_of_ne ha, show effSample .rev0 0 = 0 from rfl, mul_zero, Int.sign_zero, zero_mul]

/-- No entry of REV_0 is negative, the mute included (40_envelope_table.md R109). -/
theorem envFor_rev0_nonneg_all (g : Gain) (a x : Sample) : 0 ≤ envFor g .rev0 a x := by
  by_cases ha : a = 31
  · rw [ha, envFor_mute]
  · exact envFor_rev0_nonneg ha g x

/-- REV_A centres the samples: mirroring the sample changes the sign (40_envelope_table.md R109). -/
theorem effSample_revA_mirror (x : Sample) : effSample .revA (31 - x) = -effSample .revA x := by
  have hx : (31 - x).toNat = 31 - x.toNat := by bv_omega
  have hlt : x.toNat < 32 := x.isLt
  simp only [effSample, hx]
  omega

/-- Rounding toward zero keeps the symmetry of the samples: only the sign of the entry sees theirs
(40_envelope_table.md R109, R111). -/
theorem envFor_revA_antisymm (g : Gain) (a x : Sample) : envFor g .revA a x = -envFor g .revA a (31 - x) := by
  by_cases ha : a = 31
  · rw [ha, envFor_mute, envFor_mute, neg_zero]
  · rw [envFor_of_ne ha, envFor_of_ne ha, effSample_revA_mirror, mul_neg, Int.sign_neg, Int.natAbs_neg, neg_mul,
      neg_neg]

/-- Settles O9: the shape holds for every gain, and the default tables are its case of the machine's gain. -/
theorem envelopeShape : Obligations.EnvelopeShape :=
  ⟨fun rev _ x ha => natAbs_envFor_antitone ha gain rev x,
    fun _ ha => envVolFor_antitone ha gain,
    fun a x => ⟨envFor_rev0_zero gain a, envFor_rev0_nonneg_all gain a x⟩,
    envFor_revA_antisymm gain,
    fun g a x =>
      ⟨fun ha => ⟨fun rev => natAbs_envFor_antitone ha g rev x, envVolFor_antitone ha g⟩,
        envFor_rev0_zero g a, envFor_rev0_nonneg_all g a x, envFor_revA_antisymm g a x⟩⟩

end Sys2Proof.Machine
end

section
/-! PROOFS. The Frequency Cache (41_frequency_cache.md R118 to R120, R123): the periods that `RecalcFreq` and
`RecalcNoise` store. -/

-- Proofs one after another: elaborated side by side they ask for one thread, and its stack, each.
set_option Elab.async false

namespace Sys2Proof.Machine

/-- The fold of 0, with the test as the rules write it. -/
theorem zeroAs_eq_ite_ne (n z : Nat) : zeroAs n z = if n ≠ 0 then n else z :=
  (ite_not (n = 0) n z).symm

/-- A register is 0 as a word exactly when it is 0 as a number. -/
theorem zeroAs_toNat {w : Nat} (x : BitVec w) (z : Nat) : zeroAs x.toNat z = if x ≠ 0 then x.toNat else z := by
  have hzero : x.toNat ≠ 0 ↔ x ≠ 0 := not_congr (BitVec.toNat_eq (x := x) (y := 0)).symm
  rw [zeroAs_eq_ite_ne, if_congr hzero rfl rfl]

/-- The base period of a frequency register (41_frequency_cache.md R118). -/
theorem basePeriod_toNat_ticks (frequency : BitVec 12) :
    (basePeriod frequency.toNat).ticks = (if frequency ≠ 0 then frequency.toNat else 4096) * 2 := by
  rw [← zeroAs_toNat]
  exact Nat.mul_comm 2 _

/-- What `RecalcFreq` stores in its channel (41_frequency_cache.md R121). -/
theorem recalcFreq_freqCache (c : ChanIdx) (p : Psg) : ((recalcFreq c p).chan c).freqCache = freqPeriod p c := by
  rw [recalcFreq_chan, if_pos rfl]

/-- Settles O11: without LFO the stored period is the base period of the channel's own frequency. -/
theorem plainPeriod : Obligations.PlainPeriod := by
  intro p c hplain
  have hticks : ((recalcFreq c p).chan c).freqCache.ticks
      = (if (p.chan c).frequency ≠ 0 then (p.chan c).frequency.toNat else 4096) * 2 := by
    rw [recalcFreq_freqCache, freqPeriod_plain hplain, basePeriod_toNat_ticks]
  refine ⟨hticks, ?zero, ?one, ?hundred⟩
  case zero | one | hundred =>
    intro hf
    rw [hticks, hf]
    decide

/-- LFO mode is a `MODE` field that is not 0 (41_frequency_cache.md R119). -/
theorem lfoOn_iff (p : Psg) : lfoOn p = true ↔ modeField p.g.lfoControl ≠ 0 := bne_iff_ne

/-- Under LFO the carrier's period is the base period of its biased frequency (41_frequency_cache.md R119). -/
theorem freqPeriod_carrier {p : Psg} (h : lfoOn p = true) :
    freqPeriod p 0 = basePeriod (carrierFreq (p.chan 0).frequency (modeField p.g.lfoControl) (p.chan 1).ddaLatch) :=
  if_pos ⟨rfl, h⟩

/-- Under LFO the modulator's period is its base period times the LFO rate (41_frequency_cache.md R120). -/
theorem freqPeriod_modulator {p : Psg} (h : lfoOn p = true) :
    freqPeriod p 1 = scalePeriod (basePeriod (p.chan 1).frequency.toNat) p.g.lfoFrequency := by
  simp [freqPeriod, h]

/-- Reduced modulo 4096 the biased frequency is a natural number, so it is stored as it is (41_frequency_cache.md
R119). -/
theorem carrierFreq_cast (frequency : BitVec 12) (mode : BitVec 2) (latch : Sample) :
    (carrierFreq frequency mode latch : Int)
      = ((frequency.toNat : Int) + ((latch.toNat : Int) - 16) * 2 ^ ((mode.toNat - 1) * 2)) % 4096 := by
  rw [carrierFreq, Int.toNat_of_nonneg (Int.emod_nonneg _ (by decide)), lfoOffset, Nat.cast_pow, Nat.cast_ofNat]

/-- The base period as an integer, for a frequency computed with a sign (41_frequency_cache.md R118, R119). -/
theorem basePeriod_ticks_cast (f : Nat) :
    ((basePeriod f).ticks : Int) = (if (f : Int) ≠ 0 then (f : Int) else 4096) * 2 := by
  have hticks : (basePeriod f).ticks = 2 * zeroAs f 4096 := rfl
  rw [hticks, zeroAs_eq_ite_ne, if_congr (Nat.cast_ne_zero (R := Int)) rfl rfl]
  push_cast
  exact mul_comm 2 _

/-- The LFO rate multiplies the ticks of a period (41_frequency_cache.md R120). -/
theorem scalePeriod_ticks (q : Period) (rate : Byte) :
    (scalePeriod q rate).ticks = q.ticks * if rate ≠ 0 then rate.toNat else 256 := by
  rw [← zeroAs_toNat]
  rfl

/-- Settles O12: under LFO the carrier and the modulator each have their own branch of the period. -/
theorem lfoPeriods : Obligations.LfoPeriods := by
  intro p hmode
  have hlfo : lfoOn p = true := (lfoOn_iff p).2 hmode
  refine ⟨?carrier, ?modulator⟩
  case carrier =>
    rw [recalcFreq_freqCache, freqPeriod_carrier hlfo, basePeriod_ticks_cast, carrierFreq_cast]
  case modulator =>
    rw [recalcFreq_freqCache, freqPeriod_modulator hlfo, scalePeriod_ticks, basePeriod_toNat_ticks]

/-- `NF` is the low five bits of the noise control byte (10_state.md R33). -/
theorem nfField_toNat (noiseControl : Byte) : (nfField noiseControl).toNat = noiseControl.toNat % 32 := by
  simp [nfField, BitVec.extractLsb'_toNat]

/-- The noise period of a noise control byte: the complement of `NF` is 0 at `NF = 31` only (41_frequency_cache.md
R123). -/
theorem noisePeriod_ticks (noiseControl : Byte) :
    (noisePeriod noiseControl).ticks
      = if noiseControl.toNat % 32 ≠ 31 then (31 - noiseControl.toNat % 32) * 128 else 64 := by
  have hlt : noiseControl.toNat % 32 < 32 := Nat.mod_lt _ (by decide)
  have hcomplement : 31 - noiseControl.toNat % 32 = 0 ↔ noiseControl.toNat % 32 = 31 := by omega
  simp only [noisePeriod, nfField_toNat, hcomplement, ite_not]

/-- What `RecalcNoise` makes of its channel (41_frequency_cache.md R123). -/
theorem recalcNoise_chan_same (c : ChanIdx) (p : Psg) :
    (recalcNoise c p).chan c = { p.chan c with noiseFreqCache := noisePeriod (p.chan c).noiseControl } := by
  rw [recalcNoise_chan, if_pos rfl]

/-- Settles O13: `RecalcNoise` changes one field of one channel, to the period of its noise control byte. -/
theorem recalcNoise_stores_noisePeriod : Obligations.NoisePeriod := by
  intro p c
  refine ⟨?period, modChan_onlyChan p c _, recalcNoise_g c p, ?field⟩
  case period =>
    rw [recalcNoise_chan_same]
    exact noisePeriod_ticks _
  case field => rw [recalcNoise_chan_same]

end Sys2Proof.Machine
end

section
/-! PROOFS. The output function (42_output_function.md R129, R139) and the level each one presents (R131 to R135). -/

-- Proofs one after another: elaborated side by side they ask for one thread, and its stack, each.
set_option Elab.async false

namespace Sys2Proof.Machine

/-! ### The output function -/

/-- A channel with neither EN nor DDA is on in no revision (42_output_function.md R129). -/
theorem channelOn_silent (rev : Rev) : channelOn rev false false = false := by
  cases rev <;> rfl

/-- An enabled channel is on in both revisions (42_output_function.md R129). -/
theorem channelOn_enabled (rev : Rev) (dda : Bool) : channelOn rev true dda = true := by
  cases rev <;> rfl

/-- DDA without EN sounds on REV_A, and never as noise or as an average (42_output_function.md R129). -/
theorem selectFn_revA_dda_only (ne low carrier : Bool) : selectFn .revA false true ne low carrier = .normal := by
  simp [selectFn, channelOn]

/-- On an enabled channel NE decides before DDA and the period are looked at (42_output_function.md R129). -/
theorem selectFn_noise (rev : Rev) (dda low carrier : Bool) : selectFn rev true dda true low carrier = .noise := by
  simp [selectFn, channelOn_enabled]

/-- DDA on an enabled channel without noise presents the latch (42_output_function.md R129). -/
theorem selectFn_dda (rev : Rev) (low carrier : Bool) : selectFn rev true true false low carrier = .normal := by
  simp [selectFn, channelOn_enabled]

/-- A plain tone is averaged where its period is low and no LFO moves it (42_output_function.md R129). -/
theorem selectFn_tone (rev : Rev) (low carrier : Bool) :
    selectFn rev true false false low carrier = if low && !carrier then .accumulate else .normal := by
  simp [selectFn, channelOn_enabled]

/-- A low period is one of at most 10 ticks, the default of log 11 (00_scope.md R11). -/
theorem lowPeriod_iff (x : Chan) : lowPeriod x = true ↔ x.freqCache.ticks ≤ 10 := decide_eq_true_iff

/-- The inputs of the last test of `RecalcOfn`, in the terms of rule R139 of 42_output_function.md. -/
theorem lowPeriod_outside_lfo_iff (p : Psg) (c : ChanIdx) :
    (lowPeriod (p.chan c) && !(decide (c = 0) && lfoOn p)) = true
      ↔ (p.chan c).freqCache.ticks ≤ 10 ∧ ¬ (c = 0 ∧ modeField p.g.lfoControl ≠ 0) := by
  rw [← lfoOn_iff]
  simp only [Bool.and_eq_true, lowPeriod_iff, Bool.not_eq_true', ← Bool.not_eq_true, decide_eq_true_eq]

/-- What `RecalcOfn` makes of its channel (42_output_function.md R127). -/
theorem recalcOfn_chan_same (c : ChanIdx) (p : Psg) :
    (recalcOfn c p).chan c = { p.chan c with outputFunction := chanFn p c } := by
  rw [recalcOfn_chan, if_pos rfl]

/-- Settles O14: each row of the table is one branch of the selection, and `RecalcOfn` stores the selection in one field
of one channel. -/
theorem outputFunctionTable : Obligations.OutputFunctionTable := by
  intro p c
  refine ⟨?table, modChan_onlyChan p c _, recalcOfn_g c p, ?field⟩
  case field => rw [recalcOfn_chan_same]
  case table =>
    simp only [recalcOfn_chan_same, chanFn, enBit, ddaBit, neBit]
    refine ⟨?silent, ?rev0Dda, ?revADda, ?noise, ?low, ?high, ?dda⟩
    case silent =>
      intro hen hdda
      rw [hen, hdda]
      exact selectFn_off (channelOn_silent p.rev) _ _ _
    case rev0Dda =>
      intro hen _ hrev
      rw [hen, hrev]
      exact selectFn_off rfl _ _ _
    case revADda =>
      intro hen hdda hrev
      rw [hen, hdda, hrev, selectFn_revA_dda_only]
    case noise =>
      intro hen hne
      rw [hen, hne, selectFn_noise]
    case low =>
      intro hen hne hdda hlow
      rw [hen, hne, hdda, selectFn_tone, if_pos ((lowPeriod_outside_lfo_iff p c).2 hlow)]
    case high =>
      intro hen hne hdda hhigh
      rw [hen, hne, hdda, selectFn_tone, if_neg (mt (lowPeriod_outside_lfo_iff p c).1 hhigh)]
    case dda =>
      intro hen hne hdda
      rw [hen, hne, hdda, selectFn_dda]

/-! ### The level of each output function -/

/-- A side of `Level(c)` is the level for the attenuation of that side (42_output_function.md R130). -/
theorem level_get (p : Psg) (c : ChanIdx) (b : Side) :
    (level p c).get b = levelOn p.rev (p.chan c) ((p.chan c).attenuation.get b) := by
  cases b <;> rfl

/-- The Off level (42_output_function.md R131). -/
theorem levelOn_off {x : Chan} (h : x.outputFunction = .off) (rev : Rev) (a : Sample) : levelOn rev x a = 0 := by
  rw [levelOn, h]

/-- The Normal level (42_output_function.md R132). -/
theorem levelOn_normal {x : Chan} (h : x.outputFunction = .normal) (rev : Rev) (a : Sample) :
    levelOn rev x a = env rev a x.ddaLatch := by
  rw [levelOn, h]

/-- The Noise level (42_output_function.md R133). -/
theorem levelOn_noise {x : Chan} (h : x.outputFunction = .noise) (rev : Rev) (a : Sample) :
    levelOn rev x a = env rev a (noiseSample x.lfsr) := by
  rw [levelOn, h]

/-- The Accumulate level (42_output_function.md R134). -/
theorem levelOn_accumulate {x : Chan} (h : x.outputFunction = .accumulate) (rev : Rev) (a : Sample) :
    levelOn rev x a = envVol a * (x.sampleAccumulator - accCenter rev) / 8192 := by
  rw [levelOn, h]

/-- The centre of the accumulated samples in each revision (42_output_function.md R134). -/
theorem accCenter_eq (rev : Rev) : accCenter rev = if rev = .revA then 496 else 0 := by
  cases rev <;> rfl

/-- Settles O15: the level reads the attenuation of its own side, and each output function has its own expression; the
two bounds of the last one say that the division rounds down. -/
theorem levelOfFunction : Obligations.LevelOfFunction := by
  intro p c b
  simp only [level_get]
  refine ⟨fun h => levelOn_off h _ _, fun h => levelOn_normal h _ _, fun h => levelOn_noise h _ _,
    fun h => ?accumulate⟩
  case accumulate =>
    rw [levelOn_accumulate h, ← accCenter_eq, mul_add_one]
    exact ⟨Int.mul_ediv_self_le (by decide), Int.lt_mul_ediv_self_add (by decide)⟩

end Sys2Proof.Machine
end

section
/-! PROOFS. The injector (43_injector.md R142 to R148): which cell gets which tap, two injections in one two-tick slot, and
what all cells of a side gain over an operation. -/

namespace Sys2Proof.Machine

/-! ### One injection -/

/-- The base cell, with the default of `HR_MASK` written out (43_injector.md R145). -/
theorem hrBase_eq (ts : Int) : hrBase ts = (ts / 4 % 65536).toNat := rfl

/-- The kernel row of a timestamp, with the default taps written out (43_injector.md R143, R144). -/
theorem kernel_kernelRow (ts : Int) :
    kernel (kernelRow ts)
      = if ts / 2 % 2 = 0 then [35, 250, 579, 641, 425, 112, 6] else [6, 112, 425, 641, 579, 250, 35] := by
  have hrow : kernelRow ts = 0 ↔ ts / 2 % 2 = 0 := by unfold kernelRow; omega
  simp only [kernel, hrow]

/-- Beyond the seventh tap nothing is added: `inject_read` on the cells the taps fall on. -/
theorem inject_read_reach {p : Psg} (hw : hrWf p) (h : p.buffersFit) (c : ChanIdx) (ts : Int) (lv : Stereo Int) (b : Side)
    (k : Nat) :
    ((inject c ts lv p).hr.get b).read k
      = (p.hr.get b).read k
        + (if hrBase ts ≤ k ∧ k ≤ hrBase ts + 6 then
            (lv.get b - (p.chan c).prev.get b) * (kernel (kernelRow ts)).getD (k - hrBase ts) 0 else 0) := by
  rw [inject_read hw h]
  by_cases hlo : hrBase ts ≤ k
  · by_cases hhi : k ≤ hrBase ts + 6
    · simp only [hlo, hhi, and_self, if_true]
    · have htap : (kernel (kernelRow ts)).getD (k - hrBase ts) 0 = 0 :=
        List.getD_eq_default _ _ (by rw [kernel_length]; omega)
      simp only [hlo, hhi, and_false, if_true, if_false, htap, Int.mul_zero]
  · simp only [hlo, false_and, if_false]

/-- Settles O17: the taps on every cell, `prev` on the channel, and the frame of an injection. -/
theorem injectAddsTaps : Obligations.InjectAddsTaps := by
  intro p c ts lv _ hready hl hr
  have hw : hrWf p := fun | .left => hl | .right => hr
  refine ⟨fun b k => ?_, ?_, fun d hd => ?_, inject_g c ts lv p, inject_rev c ts lv p, inject_len c ts lv p,
    (inject_overrun hready.1 c ts lv).trans hready.2, inject_same c ts p⟩
  · rw [inject_read_reach hw hready.1, kernel_kernelRow, hrBase_eq]
  · rw [inject_chan, if_pos rfl]
  · rw [inject_chan, if_neg hd]

/-! ### Two injections in one slot -/

/-- Timestamps of one two-tick slot have the same base cell and the same kernel row (43_injector.md R144, R145). -/
theorem slot_congr {ts ts' : Int} (h : ts / 2 = ts' / 2) : hrBase ts = hrBase ts' ∧ kernelRow ts = kernelRow ts' := by
  have hquarter : ts / 4 = ts' / 4 := by omega
  exact ⟨by rw [hrBase, hquarter, ← hrBase], by rw [kernelRow, h, ← kernelRow]⟩

/-- Settles O18: the second injection adds the rest of the way to its level, with the taps of the first. -/
theorem injectSameSlotMerges : Obligations.InjectSameSlotMerges := by
  intro p c ts ts' lv lv' _ hslot hready hl hr
  have hw : hrWf p := fun | .left => hl | .right => hr
  have hw1 : hrWf (inject c ts lv p) := inject_wf hw c ts lv
  have hfit1 : (inject c ts lv p).buffersFit := fits_of_len hready.1 (inject_len c ts lv p)
  obtain ⟨hbase, hrow⟩ := slot_congr hslot
  have hread : ∀ b k, ((inject c ts' lv' (inject c ts lv p)).hr.get b).read k = ((inject c ts' lv' p).hr.get b).read k := by
    intro b k
    rw [inject_read hw1 hfit1, inject_read hw hready.1, inject_read hw hready.1, hbase, hrow, inject_chan, if_pos rfl]
    split
    · ring
    · simp only [add_zero]
  refine Psg.ext_chan (by simp only [inject_rev]) (by simp only [inject_g]) (fun d => ?_) ?_ ?_
  · simp only [inject_chan]
    split <;> rfl
  · refine Stereo.ext_get fun b => Memory.ext_read ?_ ?_ ?_ (hread b)
    · exact inject_wf hw1 c ts' lv' b
    · exact inject_wf hw c ts' lv' b
    · simp only [inject_len]
  · rw [inject_overrun hfit1, inject_overrun hready.1, inject_overrun hready.1]

/-! ### The account of a side -/

theorem prevTotal_eq_sum (p : Psg) (b : Side) : prevTotal p b = ∑ c : ChanIdx, (p.chan c).prev.get b := by
  rw [Fin.sum_univ_six]; rfl

/-- An injection moves the sum of the levels by the change of its channel's. -/
theorem inject_prevTotal (c : ChanIdx) (ts : Int) (lv : Stereo Int) (p : Psg) (b : Side) :
    prevTotal (inject c ts lv p) b = prevTotal p b + (lv.get b - (p.chan c).prev.get b) := by
  have hchan : ∀ d, ((inject c ts lv p).chan d).prev.get b
      = (p.chan d).prev.get b + if d = c then lv.get b - (p.chan c).prev.get b else 0 := by
    intro d
    rw [inject_chan]
    split
    · next hd => rw [hd]; ring
    · rw [add_zero]
  simp only [prevTotal_eq_sum, hchan, Finset.sum_add_distrib, Finset.sum_ite_eq', Finset.mem_univ, if_true]

/-- The buffers fit, and on each side all cells together are `a` above 2048 times the levels last injected
(43_injector.md R148). -/
structure Accounted (a : Side → Int) (p : Psg) : Prop where
  fits : p.buffersFit
  account : ∀ b, hrTotal p b = 2048 * prevTotal p b + a b

section
variable {a : Side → Int} {p q : Psg}

/-- The account speaks of the buffers and of the levels last injected, and of nothing else. -/
theorem Accounted.of_prev (h : Accounted a p) (hhr : q.hr = p.hr) (hprev : ∀ c, (q.chan c).prev = (p.chan c).prev) :
    Accounted a q where
  fits := by simpa only [Psg.buffersFit, hhr] using h.fits
  account b := by simpa only [hrTotal, prevTotal, hhr, hprev] using h.account b

theorem Accounted.setChan (h : Accounted a p) {c : ChanIdx} {x : Chan} (hx : x.prev = (p.chan c).prev) :
    Accounted a (p.setChan c x) :=
  h.of_prev rfl (forall_chan_setChan (Q := fun d x => x.prev = (p.chan d).prev) (fun _ _ => rfl) hx)

/-- An injection adds 2048 times the change of level to its side (43_injector.md R143, R147). -/
theorem Accounted.emit (h : Accounted a p) (c : ChanIdx) (ts : Int) : Accounted a (emit c ts p) where
  fits := fits_of_len h.fits (emit_len c ts p)
  account b := by
    rw [Machine.emit, inject_total h.fits, inject_prevTotal, h.account b]
    ring

theorem Accounted.recalcTone (h : Accounted a p) (c : ChanIdx) : Accounted a (recalcTone c p) := by
  rw [recalcTone_eq_setChan]
  exact h.setChan rfl

end

/-- Advancing time keeps the account: injections by their taps, everything else by leaving buffers and levels alone. -/
theorem accounted_time (a : Side → Int) : Kept (Accounted a) where
  emit {_ c} ts _ h := h.emit c ts
  edit y _ h hy := h.setChan (by rw [hy])
  tone _ h := h.recalcTone 0
  commit _ _ h := h.setChan rfl
  glob _ h _ := h.of_prev rfl fun _ => rfl

/-- The operations that neither replace the levels last injected nor the buffers: all but LOAD and CONSTRUCT. -/
def keepsLevels (i : Instr) : Prop := (∀ r, i ≠ .load r) ∧ ∀ hr, i ≠ .constructRev0 hr ∧ i ≠ .constructRevA hr

/-- Every operation but a LOAD and a CONSTRUCT keeps the account. -/
theorem accounted_kept (a : Side → Int) : OpKept (fun _ i => keepsLevels i) (Accounted a) where
  glob _ h _ := h.of_prev rfl fun _ => rfl
  edit y h hy := h.setChan (by rw [hy.fields])
  tone f k h := by
    rw [recalcTone_modChan]
    exact h.setChan rfl
  noise v hc h := by
    rw [writeNoise_eq_setChan hc]
    exact h.setChan rfl
  wave _ _ h := h.setChan rfl
  lfo v h := h.of_prev rfl fun d => by
    rw [storeLfoctrl_chan]
    split <;> rfl
  update ts h := (accounted_time a).update ts h
  rebase base h := h.of_prev (resetTs_hr base _) fun c => by rw [resetTs_chan]
  reset h := h.of_prev (powerReset_hr _) fun c => by rw [powerReset_chan]
  load r hD _ := absurd rfl (hD.1 r)
  fresh0 hr hD := absurd rfl (hD.2 hr).1
  freshA hr hD := absurd rfl (hD.2 hr).2

/-- Settles O39: the account of a side before the operation is its account after it. -/
theorem bufferSumTelescopes : Obligations.BufferSumTelescopes := by
  intro i s t b hready _ hload hconstruct ht
  have hbefore : Accounted (fun b => hrTotal s.psg b - 2048 * prevTotal s.psg b) s.psg := ⟨hready.1, fun b => by ring⟩
  have hafter := ((accounted_kept _).exec ⟨hload, hconstruct⟩ hbefore ht).account b
  rw [hafter]
  ring

end Sys2Proof.Machine
end

section
/-! PROOFS. Where advancing time adds (43_injector.md R145, R146, R149): a run injects at no time before the one its channel
stands at, and at none after its target, so a cell that no time of the interval reaches reads as before. -/

namespace Sys2Proof.Machine

/-! ### A cell out of reach of the taps -/

/-- None of the seven taps of the timestamp `ts` falls on cell `k` (43_injector.md R145, R146). -/
def OutOfReach (ts : Int) (k : Nat) : Prop := ¬ (hrBase ts ≤ k ∧ k ≤ hrBase ts + 6)

/-- The buffers are canonical, and cell `k` of side `b` reads `v`. -/
structure CellReads (b : Side) (k : Nat) (v : Int) (p : Psg) : Prop where
  wf : hrWf p
  read : (p.hr.get b).read k = v

section
variable {b : Side} {k : Nat} {v : Int} {p q : Psg}

theorem CellReads.of_hr (h : CellReads b k v p) (hhr : q.hr = p.hr) : CellReads b k v q :=
  ⟨by simpa only [hrWf, hhr] using h.wf, by rw [hhr]; exact h.read⟩

/-- `HRAdd` into another cell, inside its buffer or not (20_memory.md R66, R78). -/
theorem CellReads.hrAdd (h : CellReads b k v p) (b' : Side) {i : Nat} (hi : k ≠ i) (d : Int) :
    CellReads b k v (hrAdd b' i d p) := by
  refine ⟨hrAdd_wf h.wf b' i d, ?_⟩
  by_cases hin : i < (p.hr.get b').len
  · rw [hrAdd_read h.wf hin, if_neg fun hc => hi hc.2, add_zero, h.read]
  · rw [hrAdd_outside hin, h.read]

/-- Taps that begin above the cell or end below it. -/
theorem CellReads.addTaps (h : CellReads b k v p) (b' : Side) (delta : Int) (i : Nat) (taps : List Int)
    (hi : ¬ (i ≤ k ∧ k < i + taps.length)) : CellReads b k v (addTaps b' delta i taps p) := by
  induction taps generalizing i p with
  | nil => exact h
  | cons tap taps ih =>
    rw [List.length_cons] at hi
    exact ih (h.hrAdd b' (by omega) _) (i + 1) (by omega)

theorem CellReads.injectSide (h : CellReads b k v p) (c : ChanIdx) {ts : Int} (hts : OutOfReach ts k) (b' : Side)
    (lv : Int) : CellReads b k v (injectSide c ts b' lv p) := by
  simp only [Machine.injectSide]
  split
  · exact h
  · refine (h.addTaps b' _ _ _ ?_).of_hr (Psg.modChan_hr _ _ _)
    rw [kernel_length]
    unfold OutOfReach at hts
    omega

/-- An injection at a time that does not reach the cell, into buffers of any length. -/
theorem CellReads.emit (h : CellReads b k v p) (c : ChanIdx) {ts : Int} (hts : OutOfReach ts k) :
    CellReads b k v (emit c ts p) :=
  (h.injectSide c hts .left _).injectSide c hts .right _

end

/-! ### One run -/

/-- The channel stands in the interval from `lo` to `hi`, with its countdowns in order. -/
structure Chan.Within (lo hi : Int) (x : Chan) : Prop where
  live : x.Live
  lo_le : lo ≤ x.lastTs
  le_hi : x.lastTs ≤ hi

/-- A run over no time changes nothing (44_channel_run.md R154). -/
theorem runPlain_empty (c : ChanIdx) (live : Bool) (p : Psg) : runPlain c (p.chan c).lastTs live p = p := by
  simp only [runPlain, runWith, Int.sub_self, if_true]
  exact Psg.modChan_self p c _ rfl

/-- What a run does before the stop conditions leaves the counter and the other channels alone (44_channel_run.md R155,
R158). -/
theorem runHead_keeps (c : ChanIdx) (target : Int) (p : Psg) :
    ((runHead c target p).chan c).counter = (p.chan c).counter
      ∧ ∀ d, d ≠ c → (runHead c target p).chan d = p.chan d := by
  have hframe := runFrame_kept (· = c) p
  have hhead := hframe.flow.noiseSection (c := c) rfl target (target - (p.chan c).lastTs)
    ⟨rfl, hframe.emit (p.chan c).lastTs rfl (hframe.edit { p.chan c with lastTs := target } rfl (.refl _ p) rfl)⟩
  obtain ⟨pv, hchan⟩ := runStart_chan c target (p.chan c).lastTs (target - (p.chan c).lastTs) p
  rw [runHead_eq]
  exact ⟨by rw [hchan]; exact afterNoise_counter _ _ _, fun d hd => hhead.2.other d hd⟩

/-- A waveform step injects at `target + counter`, which the advance does not move (44_channel_run.md R165). -/
theorem waveStep_eq (after : Int → Psg → Psg) (c : ChanIdx) (target : Int) (p : Psg) :
    waveStep after c target p
      = after (target + (p.chan c).counter) (emit c (target + (p.chan c).counter) (p.modChan c (advanceBy 1))) := by
  have hcounter : ((p.modChan c (advanceBy 1)).chan c).counter = (p.chan c).counter := by
    rw [Psg.chan_modChan, if_pos rfl]
    rfl
  rw [waveStep, hcounter]

/-- What every edit of the channel keeps, and every waveform step from `lo` on, holds after the waveform section; a step
takes place at `target + counter`, which moves on (44_channel_run.md R164, R165). -/
theorem waveSection_inv {I : Psg → Prop} {after : Int → Psg → Psg} {c : ChanIdx} {lo target : Int}
    (hedit : ∀ q f, I q → I (q.modChan c f))
    (hstep : ∀ q, (q.chan c).counter ≤ 0 → lo ≤ target + (q.chan c).counter → I q →
      I (waveStep after c target q) ∧ (q.chan c).counter ≤ ((waveStep after c target q).chan c).counter)
    {elapsed : Int} (live : Bool) {p : Psg} (hp : I p) (hfirst : lo ≤ target - elapsed + (p.chan c).counter) :
    I (waveSection after c target elapsed live p) := by
  simp only [waveSection]
  split
  · exact hedit _ _ (hedit _ _ hp)
  · refine (loopWhile_inv (P := fun q => I q ∧ lo ≤ target + (q.chan c).counter) ?_ _ _ ⟨hedit _ _ hp, ?_⟩).1
    · intro q hdue ⟨hq, hlo⟩
      obtain ⟨hI, hcounter⟩ := hstep q (by simpa only [stepDue, decide_eq_true_eq] using hdue) hlo hq
      exact ⟨hI, by omega⟩
    · simp only [Psg.chan_modChan, if_true]; omega

section
variable {lo hi target : Int} {b : Side} {k : Nat} {v : Int} (hreach : ∀ ts, lo ≤ ts → ts ≤ hi → OutOfReach ts k)
  (htarget : target ≤ hi)
include hreach htarget

/-- The noise section injects between the time of the last run and the target (44_channel_run.md R158). -/
theorem CellReads.noiseSection {p : Psg} {c : ChanIdx} {elapsed : Int} (h : CellReads b k v p)
    (hfirst : lo ≤ target - elapsed + (p.chan c).noiseCount) : CellReads b k v (noiseSection c target elapsed p) := by
  simp only [Machine.noiseSection]
  split
  · refine (loopWhile_inv (P := fun q => CellReads b k v q ∧ lo ≤ target + (q.chan c).noiseCount) ?_ _ _ ⟨?_, ?_⟩).1
    · intro q hdue ⟨hq, hlo⟩
      obtain ⟨pv, hstep⟩ := noiseStep_chan c target q
      simp only [noiseDue, decide_eq_true_eq] at hdue
      refine ⟨?_, by rw [hstep]; simp only; omega⟩
      simp only [noiseStep]
      have hclock := hq.of_hr (Psg.modChan_hr q c fun x => { x with lfsr := clockLfsr x.lfsr })
      split
      · refine (hclock.emit c (hreach _ ?_ ?_)).of_hr (Psg.modChan_hr _ _ _)
        · simpa only [Psg.chan_modChan, if_true] using hlo
        · simp only [Psg.chan_modChan, if_true]; omega
      · exact hclock.of_hr (Psg.modChan_hr _ _ _)
    · exact h.of_hr (Psg.modChan_hr _ _ _)
    · simp only [Psg.chan_modChan, if_true]; omega
  · exact h

/-- What a run does before the stop conditions injects at the old time stamp and in the noise section (44_channel_run.md
R155, R158). -/
theorem CellReads.runHead {p : Psg} {c : ChanIdx} (h : CellReads b k v p) (hc : (p.chan c).Within lo hi) :
    CellReads b k v (runHead c target p) := by
  obtain ⟨⟨-, hnoise, -⟩, hlo, hhi⟩ := hc
  rw [runHead_eq]
  refine CellReads.noiseSection hreach htarget ((h.of_hr (Psg.modChan_hr _ _ _)).emit c (hreach _ hlo hhi)) ?_
  simp only [emit_chan, Psg.chan_modChan, if_true]
  omega

/-- The part of a waveform step up to its injection (44_channel_run.md R165). -/
theorem CellReads.emitStep {q : Psg} {c : ChanIdx} (hdue : (q.chan c).counter ≤ 0)
    (hlo : lo ≤ target + (q.chan c).counter) (h : CellReads b k v q) :
    CellReads b k v (Machine.emit c (target + (q.chan c).counter) (q.modChan c (advanceBy 1))) :=
  (h.of_hr (Psg.modChan_hr _ _ _)).emit c (hreach _ hlo (by omega))

/-- The run of a channel that modulates none. -/
theorem CellReads.runPlain {p : Psg} {c : ChanIdx} (h : CellReads b k v p) (hc : (p.chan c).Within lo hi) (live : Bool) :
    CellReads b k v (runPlain c target live p) := by
  by_cases hempty : target = (p.chan c).lastTs
  · rw [hempty, runPlain_empty]
    exact h
  · have hhead := h.runHead hreach htarget hc
    rw [Machine.runPlain, runWith_eq _ _ hempty]
    split
    · exact hhead
    · refine waveSection_inv (lo := lo) (fun q f hq => hq.of_hr (Psg.modChan_hr q c f)) (fun q hdue hlo hq => ?_) live
        hhead ?_
      · obtain ⟨pv, hstep⟩ := plainStep_chan c target q
        have hemit := hq.emitStep hreach htarget hdue hlo
        refine ⟨?_, by rw [hstep]; simp only; omega⟩
        rw [waveStep_eq]
        exact hemit.of_hr (Psg.modChan_hr _ _ _)
      · obtain ⟨⟨hpos, -⟩, hstamp, -⟩ := hc
        rw [(runHead_keeps c target p).1]
        omega

/-- A step of the carrier under live modulation brings the modulator to a time between (44_channel_run.md R166). -/
theorem CellReads.carrierStep {q : Psg} (hdue : (q.chan 0).counter ≤ 0) (hlo : lo ≤ target + (q.chan 0).counter)
    (h : CellReads b k v q) (h1 : (q.chan 1).Within lo hi) :
    CellReads b k v (waveStep carrierAfter 0 target q)
      ∧ ((waveStep carrierAfter 0 target q).chan 1).Within lo hi := by
  have h10 : (1 : ChanIdx) ≠ 0 := by decide
  have hle : target + (q.chan 0).counter ≤ hi := by omega
  have hmodulator : (Machine.emit 0 (target + (q.chan 0).counter) (q.modChan 0 (advanceBy 1))).chan 1 = q.chan 1 := by
    rw [emit_chan, if_neg h10, Psg.chan_modChan, if_neg h10]
  have hrun := (h.emitStep hreach htarget hdue hlo).runPlain hreach hle (c := 1) (by rw [hmodulator]; exact h1) false
  have hstamp : ((waveStep carrierAfter 0 target q).chan 1).lastTs = target + (q.chan 0).counter := by
    rw [waveStep_eq, carrierAfter, carrierReload, Psg.chan_modChan, if_neg h10, recalcTone_other h10, runPlain_lastTs]
  refine ⟨?_, (carrierStep_facts target q h1.live).1, hstamp ▸ hlo, hstamp ▸ hle⟩
  rw [waveStep_eq]
  exact hrun.of_hr rfl

/-- The run of a carrier under live modulation, and where it leaves the modulator. -/
theorem CellReads.runCarrier {p : Psg} (h : CellReads b k v p) (h0 : (p.chan 0).Within lo hi)
    (h1 : (p.chan 1).Within lo hi) :
    CellReads b k v (runChannel 0 target true p) ∧ ((runChannel 0 target true p).chan 1).Within lo hi := by
  have h10 : (1 : ChanIdx) ≠ 0 := by decide
  by_cases hempty : target = (p.chan 0).lastTs
  · rw [hempty, runChannel_empty]
    exact ⟨h, h1⟩
  · obtain ⟨hcounter, hother⟩ := runHead_keeps 0 target p
    have hhead : CellReads b k v (Machine.runHead 0 target p) ∧ ((Machine.runHead 0 target p).chan 1).Within lo hi :=
      ⟨h.runHead hreach htarget h0, by rw [hother 1 h10]; exact h1⟩
    rw [runChannel, if_pos ⟨rfl, rfl⟩, runWith_eq _ _ hempty]
    split
    · exact hhead
    · refine waveSection_inv (lo := lo) (I := fun q => CellReads b k v q ∧ (q.chan 1).Within lo hi)
        (fun q f hq => ⟨hq.1.of_hr (Psg.modChan_hr q 0 f), ?_⟩) (fun q hdue hlo hq => ?_) true hhead ?_
      · rw [Psg.chan_modChan, if_neg h10]
        exact hq.2
      · obtain ⟨-, -, -, -, hmoves⟩ := carrierStep_facts target q hq.2.live
        exact ⟨CellReads.carrierStep hreach htarget hdue hlo hq.1 hq.2, by omega⟩
      · obtain ⟨⟨hpos, -⟩, hstamp, -⟩ := h0
        rw [hcounter]
        omega

end

/-! ### The flush -/

/-- Cell `k` of side `b` reads `v`, and every channel stands in the interval. -/
structure Covered (lo hi : Int) (b : Side) (k : Nat) (v : Int) (p : Psg) : Prop where
  cell : CellReads b k v p
  within : ∀ d, (p.chan d).Within lo hi

section
variable {lo hi : Int} {b : Side} {k : Nat} {v : Int}

/-- A run of any channel to a time of the interval. -/
theorem Covered.runChannel (hreach : ∀ ts, lo ≤ ts → ts ≤ hi → OutOfReach ts k) {p : Psg} (h : Covered lo hi b k v p)
    (c : ChanIdx) {target : Int} (hlo : lo ≤ target) (hhi : target ≤ hi) (live : Bool) :
    Covered lo hi b k v (runChannel c target live p) := by
  have hlive : ∀ d, (p.chan d).Live := fun d => (h.within d).live
  have hown : ((Machine.runChannel c target live p).chan c).Within lo hi := by
    have hstamp := runChannel_lastTs c target live p hlive
    exact ⟨runChannel_live c target live p hlive c, by omega, by omega⟩
  have hother : ∀ d, ¬ runs c live d → ((Machine.runChannel c target live p).chan d).Within lo hi := fun d hd => by
    rw [(runChannel_frame c target live p).other d hd]
    exact h.within d
  by_cases hcarrier : c = 0 ∧ live = true
  · obtain ⟨rfl, rfl⟩ := hcarrier
    obtain ⟨hcell, hmodulator⟩ := h.cell.runCarrier hreach hhi (h.within 0) (h.within 1)
    refine ⟨hcell, fun d => ?_⟩
    by_cases hd : runs 0 true d
    · obtain rfl | ⟨-, -, rfl⟩ := hd
      · exact hown
      · exact hmodulator
    · exact hother d hd
  · refine ⟨?_, fun d => ?_⟩
    · rw [Machine.runChannel, if_neg hcarrier]
      exact h.cell.runPlain hreach hhi (h.within c) live
    · by_cases hd : runs c live d
      · obtain rfl | ⟨hc, hl, -⟩ := hd
        · exact hown
        · exact absurd ⟨hc, hl⟩ hcarrier
      · exact hother d hd

@[simp] theorem tickXfade_hr (n : Nat) (p : Psg) : (tickXfade n p).hr = p.hr := by
  simp only [tickXfade]
  split
  · split
    · exact xfadeStep_hr _
    · rfl
  · rfl

@[simp] theorem beginUpdate_hr (p : Psg) : (beginUpdate p).hr = p.hr := by
  simp only [beginUpdate, gateLfo, startXfade]
  split <;> split <;> rfl

/-- A chunk that begins and ends in the interval (45_update_scheduler.md R179 to R181). -/
theorem Covered.runChunk (hreach : ∀ ts, lo ≤ ts → ts ≤ hi → OutOfReach ts k) {p : Psg} (h : Covered lo hi b k v p)
    (live : Bool) {n : Nat} (hlo : lo ≤ p.g.lastTs) (hhi : p.g.lastTs + n ≤ hi) :
    Covered lo hi b k v (runChunk live n p) := by
  have hpass : Covered lo hi b k v (runAll (p.g.lastTs + n) live p) :=
    forChans_inv (P := Covered lo hi b k v) (fun c q hq => hq.runChannel hreach c (by omega) hhi live) h
  rw [runChunk_eq]
  refine ⟨hpass.cell.of_hr (tickXfade_hr _ _), fun d => ?_⟩
  obtain ⟨a, hchan⟩ := tickXfade_only n (runAll (p.g.lastTs + n) live p) d
  obtain ⟨hlive, hge, hle⟩ := hpass.within d
  rw [Psg.chan_modGlobal, hchan]
  exact ⟨hlive, hge, hle⟩

end

/-- Settles O29: the chunks follow one another from the old time stamp to the new one, and none of their runs injects at
another time. -/
theorem updateAddsOnlyInItsInterval : Obligations.UpdateAddsOnlyInItsInterval := by
  intro p ts b k hinv ⟨_, horder⟩ hreach
  have hbegin : Covered p.g.lastTs ts b k ((p.hr.get b).read k) (beginUpdate p) := by
    refine ⟨⟨?_, by rw [beginUpdate_hr]⟩, fun d => ?_⟩
    · rw [hrWf, beginUpdate_hr]
      exact fun | .left => hinv.left_wf | .right => hinv.right_wf
    · obtain ⟨f, o, hchan, -⟩ := beginUpdate_chan p d
      rw [hchan]
      exact ⟨hinv.live d, (hinv.stamps d).ge, (hinv.stamps d).trans_le horder⟩
  refine (chunkLoop_inv (live := lfoLive (beginUpdate p))
    (P := fun n q => Covered p.g.lastTs ts b k ((p.hr.get b).read k) q ∧ p.g.lastTs ≤ q.g.lastTs ∧ q.g.lastTs + n = ts)
    (fun n q _ ⟨hq, hge, hend⟩ => ?_) _ _ ⟨hbegin, ?_, ?_⟩).1.cell.read
  · have hlen := chunkLen_le n q
    exact ⟨hq.runChunk hreach _ hge (by omega), by rw [runChunk_lastTs]; omega, by rw [runChunk_lastTs]; omega⟩
  · rw [beginUpdate_lastTs]
  · rw [beginUpdate_lastTs]; omega

end Sys2Proof.Machine
end

section
/-! PROOFS. One call of `RunChannel` up to its stop conditions, and what no call changes (44_channel_run.md R151, R154,
R155, R158, R160). -/

-- Proofs one after another: elaborated side by side they ask for one thread, and its stack, each.
set_option Elab.async false

namespace Sys2Proof.Machine

/-! ### What the two sections of a run leave of their channel -/

@[simp] theorem afterNoise_waveformIndex (c : ChanIdx) (e : Int) (x : Chan) :
    (afterNoise c e x).waveformIndex = x.waveformIndex := by
  simp only [afterNoise]; split <;> rfl

@[simp] theorem afterNoise_ddaLatch (c : ChanIdx) (e : Int) (x : Chan) : (afterNoise c e x).ddaLatch = x.ddaLatch := by
  simp only [afterNoise]; split <;> rfl

@[simp] theorem afterNoise_outputFunction (c : ChanIdx) (e : Int) (x : Chan) :
    (afterNoise c e x).outputFunction = x.outputFunction := by
  simp only [afterNoise]; split <;> rfl

@[simp] theorem afterWave_freqCache (e : Int) (x : Chan) : (afterWave e x).freqCache = x.freqCache := by
  simp only [afterWave]; split <;> rfl

@[simp] theorem afterWave_outputFunction (e : Int) (x : Chan) : (afterWave e x).outputFunction = x.outputFunction := by
  simp only [afterWave]; split <;> rfl

/-- On channels 4 and 5 the noise section clocks the shift register once per expiry (44_channel_run.md R159). -/
theorem afterNoise_of_ge {c : ChanIdx} (hc : 4 ≤ c.val) (e : Int) (x : Chan) :
    (afterNoise c e x).lfsr = clockLfsr^[stepsWithin x.noiseCount e x.noiseFreqCache.ticks] x.lfsr
      ∧ (afterNoise c e x).noiseCount
        = x.noiseCount - e + (stepsWithin x.noiseCount e x.noiseFreqCache.ticks : Int) * x.noiseFreqCache.ticks := by
  rw [afterNoise, if_pos hc]
  exact ⟨rfl, rfl⟩

/-- Channels 0 to 3 have no noise section (44_channel_run.md R158). -/
theorem afterNoise_of_lt {c : ChanIdx} (hc : c.val < 4) (e : Int) (x : Chan) : afterNoise c e x = x := by
  rw [afterNoise, if_neg (by omega)]

/-- What a run does before the stop conditions, on its channel (44_channel_run.md R154, R155, R158). -/
theorem runHead_chan (c : ChanIdx) (target : Int) (p : Psg) :
    ∃ pv, (runHead c target p).chan c
      = { afterNoise c (target - (p.chan c).lastTs) (p.chan c) with lastTs := target, prev := pv } := by
  rw [runHead_eq]
  exact runStart_chan c target _ _ p

/-- Without a noise section a run has only its start before the stop conditions (44_channel_run.md R155). -/
theorem runHead_of_lt {c : ChanIdx} (hc : c.val < 4) (target : Int) (p : Psg) :
    runHead c target p = runStart c target p := by
  rw [runHead, if_neg (by omega)]

/-! ### The run by its stop conditions -/

/-- The stop conditions, bit by bit (44_channel_run.md R160). -/
theorem stopped_iff (c : ChanIdx) (p : Psg) :
    stopped c p = true ↔ (p.chan c).control.getLsbD 7 = false ∨ (p.chan c).control.getLsbD 6 = true
      ∨ (c = 0 ∧ p.g.lfoControl.getLsbD 7 = true) := by
  simp only [stopped, enBit, ddaBit, haltBit, Bool.or_eq_true, Bool.and_eq_true, Bool.not_eq_true', decide_eq_true_eq,
    or_assoc]
  rw [or_comm (a := c = 0 ∧ p.g.lfoControl.getLsbD 7 = true)]

/-- An enabled channel that is not in direct mode runs, but for the carrier under halt (44_channel_run.md R160). -/
theorem stopped_eq_false {c : ChanIdx} {p : Psg} (hen : (p.chan c).control.getLsbD 7 = true)
    (hdda : (p.chan c).control.getLsbD 6 = false) (hhalt : ¬ (c = 0 ∧ p.g.lfoControl.getLsbD 7 = true)) :
    stopped c p = false := by
  rw [← Bool.not_eq_true, stopped_iff]
  rintro (h | h | h)
  · exact Bool.false_ne_true (h.symm.trans hen)
  · exact Bool.false_ne_true (hdda.symm.trans h)
  · exact hhalt h

/-- A channel that is no carrier under live modulation modulates none (44_channel_run.md R166). -/
theorem runChannel_of_not_carrier {c : ChanIdx} {live : Bool} (h : ¬ (c = 0 ∧ live = true)) (target : Int) (p : Psg) :
    runChannel c target live p = runPlain c target live p := if_neg h

section
variable {c : ChanIdx} {target : Int} {p : Psg} (ht : target ≠ (p.chan c).lastTs)
include ht

/-- The run of a stopped channel ends at the stop conditions (44_channel_run.md R160). -/
theorem runChannel_of_stopped (hs : stopped c p = true) (live : Bool) :
    runChannel c target live p = runHead c target p := by
  have hrun : ∀ after live, runWith after c target live p = runHead c target p := fun after live => by
    rw [runWith_eq after live ht, if_pos hs]
  rw [runChannel]
  split
  · next hcarrier => rw [← hcarrier.1]; exact hrun carrierAfter true
  · exact hrun _ live

/-- The run of a running channel that modulates none goes on to the waveform section (44_channel_run.md R161). -/
theorem runPlain_of_running (hs : stopped c p = false) (live : Bool) :
    runPlain c target live p
      = waveSection (fun _ => plainReload c) c target (target - (p.chan c).lastTs) live (runHead c target p) := by
  rw [runPlain, runWith_eq _ live ht, hs, if_neg Bool.false_ne_true]

end

/-- The run of a channel that modulates none keeps its period and its output function (44_channel_run.md R151). -/
theorem runPlain_caches (c : ChanIdx) (target : Int) (live : Bool) (p : Psg) :
    ((runPlain c target live p).chan c).freqCache = (p.chan c).freqCache
      ∧ ((runPlain c target live p).chan c).outputFunction = (p.chan c).outputFunction := by
  by_cases ht : target = (p.chan c).lastTs
  · rw [ht, runPlain_empty]
    exact ⟨rfl, rfl⟩
  · obtain ⟨pv, hchan⟩ := runPlain_chan c target live p ht
    rw [hchan]
    split <;> simp

/-! ### What no run changes, and a stopped run -/

/-- Settles O28: what time does to a machine, thing by thing, changes no register. -/
theorem updateKeepsRegisters : Obligations.UpdateKeepsRegisters := fun p ts _ =>
  (sameRegisters_kept p).update ts (.refl p)

/-- Settles O24: the frame of a run; the caches of channel 0 are out of reach of every run but the live carrier's. -/
theorem runChangesOnlyItsChannel : Obligations.RunChangesOnlyItsChannel := by
  intro p c target live
  have hframe := runChannel_frame c target live p
  refine ⟨runChannel_empty c live p, hframe.registers, hframe.g, hframe.attenuation, fun d hd => ?_, fun d hd h1 => ?_⟩
  · by_cases h0 : d = 0
    · subst h0
      have hcarrier : ¬ (c = 0 ∧ live = true) := fun h => hd ⟨rfl, h⟩
      rw [runChannel_of_not_carrier hcarrier]
      by_cases hc : 0 = c
      · subst hc
        exact runPlain_caches 0 target live p
      · rw [runPlain_other hc]
        exact ⟨rfl, rfl⟩
    · exact ⟨hframe.freqCache d h0, hframe.outputFunction d h0⟩
  · refine hframe.other d ?_
    rintro (hown | hmodulator)
    · exact hd hown
    · exact h1 hmodulator

/-- Settles O23: the run of a stopped channel is its head, which touches neither counter, index nor latch. -/
theorem stoppedChannelHolds : Obligations.StoppedChannelHolds := by
  intro p c target live ht hstop
  rw [runChannel_of_stopped ht.ne' ((stopped_iff c p).2 hstop)]
  obtain ⟨pv, hchan⟩ := runHead_chan c target p
  refine ⟨?_, ?_, ?_, fun hc => runHead_of_lt hc target p⟩
  · rw [hchan]; exact afterNoise_counter c _ _
  · rw [hchan]; exact afterNoise_waveformIndex c _ _
  · rw [hchan]; exact afterNoise_ddaLatch c _ _

end Sys2Proof.Machine
end

section
/-! PROOFS. The carrier under live modulation (44_channel_run.md R162, R164 to R168). -/

-- Proofs one after another: elaborated side by side they ask for one thread, and its stack, each.
set_option Elab.async false

namespace Sys2Proof.Machine

/-! ### Where the loop begins -/

/-- The carrier when its per-step loop begins: flushed, stamped, and with the elapsed ticks off its counter
(44_channel_run.md R155, R161). -/
def carrierStart (target : Int) (p : Psg) : Psg :=
  (runStart 0 target p).modChan 0 (fun z => { z with counter := z.counter - (target - (p.chan 0).lastTs) })

/-- The run of the running carrier is its per-step loop (44_channel_run.md R162, R164). -/
theorem runChannel_carrier {target : Int} {p : Psg} (ht : target ≠ (p.chan 0).lastTs) (hs : stopped 0 p = false) :
    runChannel 0 target true p
      = loopWhile (stepDue 0) (carrierTick target) (1 - ((carrierStart target p).chan 0).counter).toNat
          (carrierStart target p) := by
  rw [runChannel, if_pos ⟨rfl, rfl⟩, runWith_eq _ true ht, hs, if_neg Bool.false_ne_true, runHead_of_lt (by decide),
    carrierTick_eq]
  rfl

/-- The start leaves the carrier as it was but for the time stamp, the level last injected and the counter. -/
theorem carrierStart_chan_zero (target : Int) (p : Psg) :
    (carrierStart target p).chan 0
      = { p.chan 0 with
          lastTs := target, prev := level p 0, counter := (p.chan 0).counter - (target - (p.chan 0).lastTs) } := by
  simp only [carrierStart, runStart, Psg.chan_modChan, inject_chan, if_true]

theorem carrierStart_other (target : Int) (p : Psg) {d : ChanIdx} (hd : d ≠ 0) :
    (carrierStart target p).chan d = p.chan d := by
  simp only [carrierStart, runStart, Psg.chan_modChan, inject_chan, if_neg hd]

/-! ### One step -/

/-- A waveform step up to its injection moves its channel on by one (44_channel_run.md R165). -/
theorem tickEmit_chan (c : ChanIdx) (target : Int) (p : Psg) :
    ∃ pv, (tickEmit c target p).chan c = { advanceBy 1 (p.chan c) with prev := pv } :=
  ⟨_, by simp only [tickEmit, inject_chan, Psg.chan_modChan, if_true]; rfl⟩

theorem tickEmit_other {c d : ChanIdx} (hd : d ≠ c) (target : Int) (p : Psg) :
    (tickEmit c target p).chan d = p.chan d := by
  simp only [tickEmit, inject_chan, Psg.chan_modChan, if_neg hd]

@[simp] theorem carrierStart_g (target : Int) (p : Psg) : (carrierStart target p).g = p.g := inject_g _ _ _ _

@[simp] theorem carrierStart_rev (target : Int) (p : Psg) : (carrierStart target p).rev = p.rev := inject_rev _ _ _ _

@[simp] theorem tickEmit_g (c : ChanIdx) (target : Int) (p : Psg) : (tickEmit c target p).g = p.g := inject_g _ _ _ _

@[simp] theorem tickEmit_rev (c : ChanIdx) (target : Int) (p : Psg) : (tickEmit c target p).rev = p.rev :=
  inject_rev _ _ _ _

/-- The machine inside a carrier step when the modulator has been run to the step's sub-timestamp (44_channel_run.md
R166). -/
def afterModulator (target : Int) (p : Psg) : Psg :=
  runPlain 1 (target + (p.chan 0).counter) false (tickEmit 0 target p)

/-- A step of the carrier ends with the cascade and the reload (44_channel_run.md R166). -/
theorem carrierTick_eq_reload (target : Int) (p : Psg) :
    carrierTick target p
      = (recalcTone 0 (afterModulator target p)).modChan 0
          (fun x => { x with counter := x.counter + (max 10 x.freqCache.ticks : Nat) }) := rfl

/-- One step of the carrier on its own record: one cell on, new caches, and the counter reloaded with no less than the
cutoff (44_channel_run.md R165, R166). -/
theorem carrierTick_chan_zero (target : Int) (p : Psg) :
    ∃ pv f o, (carrierTick target p).chan 0
      = { advanceBy 1 (p.chan 0) with
          prev := pv, freqCache := f, outputFunction := o,
          counter := (p.chan 0).counter + (max 10 f.ticks : Nat) } := by
  obtain ⟨pv, htick⟩ := tickEmit_chan 0 target p
  have hrun : (afterModulator target p).chan 0 = (tickEmit 0 target p).chan 0 := runPlain_other (by decide) _ _ _
  refine ⟨pv, freqPeriod (afterModulator target p) 0, chanFn (recalcTone 0 (afterModulator target p)) 0, ?_⟩
  rw [carrierTick_eq_reload, Psg.chan_modChan, if_pos rfl, recalcTone_chan, if_pos rfl, hrun, htick]
  rfl

/-- One step of the carrier leaves the modulator where its run brought it (44_channel_run.md R166). -/
theorem carrierTick_chan_one (target : Int) (p : Psg) :
    (carrierTick target p).chan 1 = (afterModulator target p).chan 1 := by
  rw [carrierTick_eq_reload, Psg.chan_modChan, if_neg (by decide), recalcTone_other (by decide)]

/-- No cache depends on a counter: after the cascade and a store of the counter the caches are fresh. -/
theorem recalcTone_fresh_of_counter (c : ChanIdx) (p : Psg) (k : Chan → Int) :
    let q := (recalcTone c p).modChan c (fun x => { x with counter := k x })
    (q.chan c).freqCache = freqPeriod q c ∧ (q.chan c).outputFunction = chanFn q c := by
  intro q
  obtain ⟨hfreq, hofn⟩ := recalcTone_fresh c p
  have hown : q.chan c = { (recalcTone c p).chan c with counter := k ((recalcTone c p).chan c) } := by
    rw [Psg.chan_modChan, if_pos rfl]
  have hlatch : (q.chan 1).ddaLatch = ((recalcTone c p).chan 1).ddaLatch := by
    rw [Psg.chan_modChan]
    split
    · next h => rw [h]
    · rfl
  have hperiod : freqPeriod q c = freqPeriod (recalcTone c p) c :=
    freqPeriod_congr (p := recalcTone c p) (q := q) rfl rfl c (by rw [hown]) hlatch
  have hfn : chanFn q c = chanFn (recalcTone c p) c :=
    chanFn_congr c rfl (by rw [hown]) (by rw [hown]) (by rw [hown]) (fun _ => rfl)
  exact ⟨by rw [hperiod, ← hfreq, hown], by rw [hfn, ← hofn, hown]⟩

/-- After a step of the carrier its period and output function are what the recomputes would store then: they follow the
modulator's new latch (44_channel_run.md R166). -/
theorem carrierTick_fresh (target : Int) (p : Psg) :
    ((carrierTick target p).chan 0).freqCache = freqPeriod (carrierTick target p) 0
      ∧ ((carrierTick target p).chan 0).outputFunction = chanFn (carrierTick target p) 0 :=
  recalcTone_fresh_of_counter 0 (afterModulator target p) _

/-- A step of the carrier moves its counter on by at least the cutoff (44_channel_run.md R166). -/
theorem carrierTick_counter (target : Int) (p : Psg) :
    (p.chan 0).counter + 10 ≤ ((carrierTick target p).chan 0).counter := by
  obtain ⟨pv, f, o, hchan⟩ := carrierTick_chan_zero target p
  rw [hchan]
  simp only
  omega

/-! ### The loop -/

/-- A bounded loop makes some number of iterations, each of them because its condition held. -/
theorem loopWhile_eq_iterate {σ : Type} (guard : σ → Bool) (body : σ → σ) (n : Nat) (s : σ) :
    ∃ k, loopWhile guard body n s = body^[k] s ∧ ∀ j, j < k → guard (body^[j] s) = true := by
  induction n generalizing s with
  | zero => exact ⟨0, rfl, fun j hj => absurd hj (Nat.not_lt_zero j)⟩
  | succ n ih =>
    rw [loopWhile]
    split
    · next hguard =>
      obtain ⟨k, hloop, hdue⟩ := ih (body s)
      refine ⟨k + 1, hloop, fun j hj => ?_⟩
      cases j with
      | zero => exact hguard
      | succ j => exact hdue j (Nat.lt_of_succ_lt_succ hj)
    · exact ⟨0, rfl, fun j hj => absurd hj (Nat.not_lt_zero j)⟩

/-- The carrier steps for as long as its counter is not positive, and then stops: a step adds at least the cutoff
(44_channel_run.md R164, R166). -/
theorem runChannel_carrier_steps {target : Int} {p : Psg} (ht : target ≠ (p.chan 0).lastTs) (hs : stopped 0 p = false) :
    ∃ k, runChannel 0 target true p = (carrierTick target)^[k] (carrierStart target p)
      ∧ 1 ≤ ((runChannel 0 target true p).chan 0).counter
      ∧ ∀ j, j < k → (((carrierTick target)^[j] (carrierStart target p)).chan 0).counter ≤ 0 := by
  have hexit := loopWhile_exit (guard := stepDue 0) (body := carrierTick target) (P := fun _ => True)
    (fun q => (1 - (q.chan 0).counter).toNat) (fun _ _ _ => trivial)
    (fun q hdue _ => by
      have hcounter := carrierTick_counter target q
      simp only [stepDue, decide_eq_true_eq] at hdue
      omega)
    (fun q _ hzero => by simp only [stepDue, decide_eq_false_iff_not]; omega)
    (1 - ((carrierStart target p).chan 0).counter).toNat (carrierStart target p) trivial (le_refl _)
  obtain ⟨k, hloop, hdue⟩ := loopWhile_eq_iterate (stepDue 0) (carrierTick target)
    (1 - ((carrierStart target p).chan 0).counter).toNat (carrierStart target p)
  rw [runChannel_carrier ht hs]
  simp only [stepDue, decide_eq_false_iff_not, decide_eq_true_eq] at hexit hdue
  exact ⟨k, hloop, by omega, hdue⟩

/-- The modulator's run does not depend on what the carrier did before it (44_channel_run.md R166, R168). -/
theorem afterModulator_carrierStart_chan_one (target : Int) (p : Psg) :
    (afterModulator target (carrierStart target p)).chan 1
      = (runPlain 1 (target + ((carrierStart target p).chan 0).counter) false p).chan 1 := by
  refine runPlain_own (by decide) _ false ⟨?_, ?_, ?_⟩
  · rw [tickEmit_rev, carrierStart_rev]
  · rw [tickEmit_g, carrierStart_g]
  · rw [tickEmit_other (by decide), carrierStart_other _ _ (by decide)]

/-- A step at the tick where the counter expires: the modulator has been run to the end of the interval, and everything
of the carrier follows (44_channel_run.md R165, R166). -/
theorem carrierTick_at_expiry {target : Int} {p : Psg} (hexpiry : target - (p.chan 0).lastTs = (p.chan 0).counter) :
    let x := p.chan 0
    let q := carrierTick target (carrierStart target p)
    (q.chan 0).waveformIndex = x.waveformIndex + 1
      ∧ (q.chan 0).ddaLatch = waveRead x (x.waveformIndex + 1).toNat
      ∧ (q.chan 1).lastTs = target ∧ q.chan 1 = (runChannel 1 target false p).chan 1
      ∧ (q.chan 0).freqCache = freqPeriod q 0 ∧ (q.chan 0).outputFunction = chanFn q 0
      ∧ (q.chan 0).counter = (max 10 (q.chan 0).freqCache.ticks : Nat)
      ∧ (q.chan 0).lastTs = target := by
  intro x q
  obtain ⟨pv, f, o, hown⟩ := carrierTick_chan_zero target (carrierStart target p)
  have hown : q.chan 0 = _ := hown
  have hstart := carrierStart_chan_zero target p
  have hcounter : ((carrierStart target p).chan 0).counter = 0 := by
    rw [hstart]
    simp only
    omega
  have hmodulator : q.chan 1 = (runPlain 1 target false p).chan 1 := by
    rw [carrierTick_chan_one, afterModulator_carrierStart_chan_one, hcounter, Int.add_zero]
  obtain ⟨hfreq, hofn⟩ := carrierTick_fresh target (carrierStart target p)
  refine ⟨?_, ?_, ?_, hmodulator, hfreq, hofn, ?_, ?_⟩
  · rw [hown, hstart]; rfl
  · rw [hown, hstart]; rfl
  · rw [hmodulator]; exact runPlain_lastTs 1 target false p
  · rw [hown, hcounter, Int.zero_add]
  · rw [hown, hstart]; rfl

/-- Settles O25: the number of steps is read off the counter, which stands at 0 or above when the interval reaches no
further than the first expiry. -/
theorem carrierStepsWithModulator : Obligations.CarrierStepsWithModulator := by
  intro p target ht hen hdda hhalt x q start
  have hs : stopped 0 p = false := stopped_eq_false hen hdda fun h => Bool.false_ne_true (hhalt.symm.trans h.2)
  have hstart : start.chan 0 = _ := carrierStart_chan_zero target p
  have hcounter : (start.chan 0).counter = x.counter - (target - x.lastTs) := by rw [hstart]
  obtain ⟨k, hq, hpos, hdue⟩ := runChannel_carrier_steps ht.ne' hs
  have hnone : target - x.lastTs < x.counter → q = start := by
    intro h
    have hk : k = 0 := by
      by_contra hk
      have hfirst : (start.chan 0).counter ≤ 0 := hdue 0 (by omega)
      omega
    rw [show q = _ from hq, hk]
    rfl
  have hone : target - x.lastTs = x.counter → q = carrierTick target start := by
    intro h
    have hpositive : k ≠ 0 := by
      intro hk
      have hkeep : q = start := by rw [show q = _ from hq, hk]; rfl
      have : 1 ≤ (start.chan 0).counter := hkeep ▸ hpos
      omega
    have hlast : ¬ 1 < k := by
      intro hk
      have hsecond : ((carrierTick target start).chan 0).counter ≤ 0 := hdue 1 hk
      have hreload := carrierTick_counter target start
      omega
    rw [show q = _ from hq, show k = 1 by omega]
    rfl
  refine ⟨⟨k, hq, hpos, hdue⟩, hnone, hone, fun h => ?_, fun h => ?_⟩
  · rw [hnone h]
    exact ⟨hcounter, by rw [hstart], by rw [hstart], by rw [hstart], carrierStart_other target p (by decide)⟩
  · rw [hone h]
    exact carrierTick_at_expiry h

end Sys2Proof.Machine
end

section
/-! PROOFS. The countdowns of one run: the noise clocks and the waveform steps (44_channel_run.md R158, R159, R161 to
R169). -/

-- Proofs one after another: elaborated side by side they ask for one thread, and its stack, each.
set_option Elab.async false

namespace Sys2Proof.Machine

/-! ### Noise clocks -/

/-- The carrier has no noise section: its run keeps shift register and noise counter (44_channel_run.md R158). -/
theorem runChannel_carrier_noise (target : Int) (p : Psg) :
    ((runChannel 0 target true p).chan 0).lfsr = (p.chan 0).lfsr
      ∧ ((runChannel 0 target true p).chan 0).noiseCount = (p.chan 0).noiseCount := by
  by_cases ht : target = (p.chan 0).lastTs
  · rw [ht, runChannel_empty]
    exact ⟨rfl, rfl⟩
  · cases hs : stopped 0 p with
    | true =>
      obtain ⟨pv, hchan⟩ := runHead_chan 0 target p
      rw [runChannel_of_stopped ht hs, hchan, afterNoise_of_lt (by decide)]
      exact ⟨rfl, rfl⟩
    | false =>
      rw [runChannel_carrier ht hs]
      refine loopWhile_inv (P := fun q : Psg => (q.chan 0).lfsr = (p.chan 0).lfsr
        ∧ (q.chan 0).noiseCount = (p.chan 0).noiseCount) (fun q _ hq => ?_) _ _ ?_
      · obtain ⟨pv, f, o, hchan⟩ := carrierTick_chan_zero target q
        rw [hchan]
        exact hq
      · rw [carrierStart_chan_zero]
        exact ⟨rfl, rfl⟩

/-- The run of a channel that modulates none leaves the noise fields as the noise section left them (44_channel_run.md
R158). -/
theorem runPlain_noise (c : ChanIdx) (live : Bool) {target : Int} {p : Psg} (ht : target ≠ (p.chan c).lastTs) :
    ((runPlain c target live p).chan c).lfsr = (afterNoise c (target - (p.chan c).lastTs) (p.chan c)).lfsr
      ∧ ((runPlain c target live p).chan c).noiseCount
        = (afterNoise c (target - (p.chan c).lastTs) (p.chan c)).noiseCount := by
  obtain ⟨pv, hchan⟩ := runPlain_chan c target live p ht
  rw [hchan]
  split <;> simp

/-- Settles O22: on channels 4 and 5 the closed form of the noise loop; on channels 0 to 3 the noise fields are out of
reach, the live carrier's loop included. -/
theorem noiseClocksPerPeriod : Obligations.NoiseClocksPerPeriod := by
  intro p c target live ht x y n
  refine ⟨fun hc => ?_, fun hc => ?_, fun hstop => runChannel_of_stopped ht.ne' ((stopped_iff c p).2 hstop) live⟩
  · have hcarrier : ¬ (c = 0 ∧ live = true) := by
      rintro ⟨rfl, -⟩
      exact absurd hc (by decide)
    obtain ⟨hlfsr, hcount⟩ := runPlain_noise c live (p := p) ht.ne'
    obtain ⟨hclocks, hrest⟩ := afterNoise_of_ge hc (target - x.lastTs) x
    have hy : y = (runPlain c target live p).chan c := by rw [← runChannel_of_not_carrier hcarrier]
    rw [hy]
    refine ⟨hlfsr.trans hclocks, hcount.trans hrest, ?_⟩
    rw [hcount, hrest]
    exact (stepsWithin_rest _ _ _ x.noiseFreqCache.pos).1
  · by_cases hcarrier : c = 0 ∧ live = true
    · obtain ⟨rfl, rfl⟩ := hcarrier
      exact runChannel_carrier_noise target p
    · have hnoise := runPlain_noise c live (p := p) ht.ne'
      rwa [afterNoise_of_lt hc, ← runChannel_of_not_carrier hcarrier] at hnoise

/-! ### Waveform steps -/

/-- The fast path as one edit of the channel (44_channel_run.md R161 to R163). -/
theorem waveSection_fast (after : Int → Psg → Psg) (c : ChanIdx) (target elapsed : Int) {p : Psg}
    (h : (p.chan c).freqCache.ticks ≤ 10) :
    waveSection after c target elapsed false p
      = p.modChan c (fun x => fastPath { x with counter := x.counter - elapsed }) := by
  have hlow : lowPeriod (((p.modChan c (fun x => { x with counter := x.counter - elapsed }))).chan c) = true := by
    rw [lowPeriod_iff, Psg.chan_modChan, if_pos rfl]
    exact h
  simp only [waveSection, hlow, Bool.not_false, Bool.and_true, if_true, Psg.modChan_modChan]

/-- The fast path edits index, latch and counter (44_channel_run.md R163). -/
theorem fastPath_only (x : Chan) :
    fastPath x = { x with
      waveformIndex := (fastPath x).waveformIndex
      ddaLatch := (fastPath x).ddaLatch
      counter := (fastPath x).counter } := by
  simp only [fastPath]
  split <;> rfl

/-- Off the fast path a channel that modulates none makes one step per expiry of its counter (44_channel_run.md R164,
R167, R169). -/
theorem waveSection_loop {c : ChanIdx} (target elapsed : Int) {live : Bool} {p : Psg}
    (h : live = true ∨ 10 < (p.chan c).freqCache.ticks) :
    waveSection (fun _ => plainReload c) c target elapsed live p
      = (plainTick c target)^[stepsWithin (p.chan c).counter elapsed (p.chan c).freqCache.ticks]
          (p.modChan c (fun z => { z with counter := z.counter - elapsed })) := by
  have hslow :
      ¬ (!live && lowPeriod ((p.modChan c (fun z => { z with counter := z.counter - elapsed })).chan c)) = true := by
    rw [Bool.and_eq_true, lowPeriod_iff, Psg.chan_modChan, if_pos rfl]
    rintro ⟨hlive, hlow⟩
    obtain rfl | hhigh := h
    · cases hlive
    · exact absurd hlow (Nat.not_le_of_lt hhigh)
  have hloop := loopWhile_iterate (guard := stepDue c) (body := plainTick c target)
    (Q := fun q => (q.chan c).freqCache = (p.chan c).freqCache) (v := fun q => (q.chan c).counter)
    (P := (p.chan c).freqCache.ticks) (p.chan c).freqCache.pos
    (fun q hq => by
      obtain ⟨pv, hstep⟩ := plainStep_chan c target q
      rw [plainTick_eq, hstep]
      exact hq)
    (fun _ _ => rfl)
    (fun q hq => by
      obtain ⟨pv, hstep⟩ := plainStep_chan c target q
      rw [plainTick_eq, hstep, ← hq])
    _ (p.modChan c (fun z => { z with counter := z.counter - elapsed })) (by rw [Psg.chan_modChan, if_pos rfl])
    (Int.self_le_toNat _)
  simp only [waveSection, if_neg hslow, ← plainTick_eq]
  rw [hloop, Psg.chan_modChan, if_pos rfl, stepsWithin_sub]

/-- The index advances by the number of expiries (44_channel_run.md R163, R169). -/
theorem afterWave_waveformIndex (e : Int) (x : Chan) :
    (afterWave e x).waveformIndex = x.waveformIndex + BitVec.ofNat 5 (stepsWithin x.counter e x.freqCache.ticks) := by
  simp only [afterWave]
  split
  · next hn => rw [hn]; exact (BitVec.add_zero _).symm
  · rfl

/-- Without an expiry the latch stays. -/
theorem afterWave_ddaLatch_of_zero {e : Int} {x : Chan} (hn : stepsWithin x.counter e x.freqCache.ticks = 0) :
    (afterWave e x).ddaLatch = x.ddaLatch := by
  simp only [afterWave, if_pos hn]

/-- After an expiry the latch holds the cell the index stands at (44_channel_run.md R163, R165). -/
theorem afterWave_ddaLatch_of_ne {e : Int} {x : Chan} (hn : stepsWithin x.counter e x.freqCache.ticks ≠ 0) :
    (afterWave e x).ddaLatch = waveRead (afterWave e x) (afterWave e x).waveformIndex.toNat := by
  simp only [afterWave, if_neg hn]
  rfl

/-- The run of a running channel that modulates none, on its channel (44_channel_run.md R152, R169). -/
theorem runPlain_chan_of_running {c : ChanIdx} {target : Int} {p : Psg} (live : Bool) (ht : target ≠ (p.chan c).lastTs)
    (hs : stopped c p = false) :
    ∃ pv, (runPlain c target live p).chan c
      = { afterWave (target - (p.chan c).lastTs) (afterNoise c (target - (p.chan c).lastTs) (p.chan c)) with
          lastTs := target, prev := pv } := by
  obtain ⟨pv, hchan⟩ := runPlain_chan c target live p ht
  rw [hs, if_neg Bool.false_ne_true] at hchan
  exact ⟨pv, hchan⟩

/-- The period and the counter on which the waveform section works are those of the run's beginning (44_channel_run.md
R155, R158). -/
theorem runHead_countdown (c : ChanIdx) (target : Int) (p : Psg) :
    ((runHead c target p).chan c).freqCache = (p.chan c).freqCache
      ∧ ((runHead c target p).chan c).counter = (p.chan c).counter := by
  obtain ⟨pv, hhead⟩ := runHead_chan c target p
  rw [hhead]
  exact ⟨afterNoise_freqCache c _ _, afterNoise_counter c _ _⟩

/-- The fast path stores the index, the latch and the counter it ends in, and nothing else (44_channel_run.md R163). -/
theorem modChan_fastPath (c : ChanIdx) (elapsed : Int) (p : Psg) :
    let q := p.modChan c (fun x => fastPath { x with counter := x.counter - elapsed })
    q = p.modChan c (fun z =>
      { z with
        waveformIndex := (q.chan c).waveformIndex
        ddaLatch := (q.chan c).ddaLatch
        counter := (q.chan c).counter }) := by
  intro q
  have hown : q.chan c = fastPath { p.chan c with counter := (p.chan c).counter - elapsed } := by
    rw [Psg.chan_modChan, if_pos rfl]
  refine Psg.ext_chan rfl rfl (fun d => ?_) rfl rfl
  rw [Psg.chan_modChan, Psg.chan_modChan]
  split
  · rw [hown]
    exact fastPath_only _
  · rfl

/-- Settles O21: on its channel the run is the closed form of the two sections; as a whole it is the waveform section
after the run's head, on the fast path one edit and on the loop one `plainTick` per expiry. -/
theorem waveformStepsPerPeriod : Obligations.WaveformStepsPerPeriod := by
  intro p c target live hcarrier ht hen hdda hhalt x y n
  have hs : stopped c p = false := stopped_eq_false hen hdda hhalt
  have hrun : runChannel c target live p = runPlain c target live p := runChannel_of_not_carrier hcarrier target p
  obtain ⟨pv, hchan⟩ := runPlain_chan_of_running live ht.ne' hs
  have hy : y = _ := (congrArg (Psg.chan · c) hrun).trans hchan
  have hn : n = stepsWithin (afterNoise c (target - x.lastTs) x).counter (target - x.lastTs)
      (afterNoise c (target - x.lastTs) x).freqCache.ticks := by
    rw [afterNoise_counter, afterNoise_freqCache]
  have hcounter : y.counter = x.counter - (target - x.lastTs) + (n : Int) * x.freqCache.ticks := by
    rw [hy, hn]
    simp only [afterWave_counter, afterNoise_counter, afterNoise_freqCache, x]
  obtain ⟨hpos, hle⟩ := stepsWithin_rest x.counter (target - x.lastTs) x.freqCache.ticks x.freqCache.pos
  have hsection := hrun.trans (runPlain_of_running ht.ne' hs live)
  obtain ⟨hperiod, hcount⟩ := runHead_countdown c target p
  refine ⟨?_, hcounter, by rw [hcounter]; exact hpos, fun hzero => ?_, fun hsteps => ⟨?_, ?_⟩, ?_, by rw [hy],
    fun hlive hlow => ?_, fun hslow => ?_⟩
  · rw [hy, hn]
    exact (afterWave_waveformIndex _ _).trans (by rw [afterNoise_waveformIndex])
  · rw [hy]
    exact (afterWave_ddaLatch_of_zero (hn ▸ hzero)).trans (afterNoise_ddaLatch _ _ _)
  · rw [hy]
    exact afterWave_ddaLatch_of_ne (hn ▸ hsteps)
  · rw [hcounter]
    exact hle hsteps
  · rw [hy]
    exact (afterWave_freqCache _ _).trans (afterNoise_freqCache _ _ _)
  · subst hlive
    have hfast := hsection.trans (waveSection_fast _ c target (target - x.lastTs) (by rw [hperiod]; exact hlow))
    have hfields := modChan_fastPath c (target - x.lastTs) (runHead c target p)
    rw [← hfast] at hfields
    exact hfields
  · have hloop := hsection.trans (waveSection_loop target (target - x.lastTs) (by rw [hperiod]; exact hslow))
    rw [hcount, hperiod] at hloop
    exact hloop

end Sys2Proof.Machine
end

section
/-! PROOFS. `Update` at the time already reached: the start test of the crossfade, the gating recompute of the carrier,
and the operations that are this flush and nothing else (45_update_scheduler.md R174, R176, R177, R182;
46_register_writes.md R212). -/

namespace Sys2Proof.Machine

/-! ### The start test -/

/-- The start test writes the global record only (45_update_scheduler.md R176). -/
theorem startXfade_onlyGlobal (p : Psg) : onlyGlobal p (startXfade p) := by
  unfold startXfade
  split <;> exact ⟨rfl, rfl, rfl, fun _ => rfl⟩

/-- The global record after the start test (45_update_scheduler.md R176). -/
theorem startXfade_g (p : Psg) :
    (startXfade p).g
      = if p.g.xfPending = true ∧ p.g.xfCountdown = 0 ∧ p.g.xfPhase = 0 then
          { p.g with xfCountdown := 1, xfPending := false }
        else p.g := by
  unfold startXfade
  split <;> rfl

/-- The start test looks at the crossfade fields alone: with no cycle to start it does nothing. -/
theorem startXfade_of_not {p : Psg} (h : ¬ (p.g.xfPending = true ∧ p.g.xfCountdown = 0 ∧ p.g.xfPhase = 0)) :
    startXfade p = p := if_neg h

/-- After a start test there is no cycle left to start. -/
theorem startXfade_done (p : Psg) :
    ¬ ((startXfade p).g.xfPending = true ∧ (startXfade p).g.xfCountdown = 0 ∧ (startXfade p).g.xfPhase = 0) := by
  rw [startXfade_g]
  split
  · simp
  · assumption

/-- The start test leaves the LFO registers. -/
theorem startXfade_lfo (p : Psg) :
    (startXfade p).g.lfoControl = p.g.lfoControl ∧ (startXfade p).g.lfoFrequency = p.g.lfoFrequency := by
  rw [startXfade_g]
  split <;> exact ⟨rfl, rfl⟩

/-! ### The gating recompute -/

/-- LFO mode is on, but the modulator is disabled or halted (45_update_scheduler.md R177). -/
abbrev LfoGated (p : Psg) : Prop :=
  modeField p.g.lfoControl ≠ 0 ∧ ((p.chan 1).control.getLsbD 7 = false ∨ p.g.lfoControl.getLsbD 7 = true)

/-- The test of the gating recompute, in terms of the registers. -/
theorem lfoGated_iff (p : Psg) : (lfoOn p && !lfoLive p) = true ↔ LfoGated p := by
  have hlive : lfoLive p = (lfoOn p && ((p.chan 1).control.getLsbD 7 && !p.g.lfoControl.getLsbD 7)) :=
    Bool.and_assoc _ _ _
  rw [LfoGated, ← lfoOn_iff, hlive]
  cases lfoOn p <;> cases (p.chan 1).control.getLsbD 7 <;> cases p.g.lfoControl.getLsbD 7 <;> decide

theorem gateLfo_of_gated {p : Psg} (h : LfoGated p) : gateLfo p = recalcTone 0 p := if_pos ((lfoGated_iff p).2 h)

theorem gateLfo_of_not_gated {p : Psg} (h : ¬ LfoGated p) : gateLfo p = p := if_neg (mt (lfoGated_iff p).1 h)

/-- The gating recompute writes no global field (45_update_scheduler.md R177). -/
@[simp] theorem gateLfo_g (p : Psg) : (gateLfo p).g = p.g := by
  unfold gateLfo
  split <;> rfl

/-- The gating recompute changes channel 0 only (45_update_scheduler.md R177). -/
theorem gateLfo_onlyChan (p : Psg) : onlyChan 0 p (gateLfo p) := by
  unfold gateLfo
  split
  · exact ⟨rfl, rfl, rfl, fun _ hd => recalcTone_other hd p⟩
  · exact ⟨rfl, rfl, rfl, fun _ _ => rfl⟩

/-- The cascade of a register write done twice is the cascade done once: what it stores does not depend on the caches it
replaces (42_output_function.md R137). -/
theorem recalcTone_recalcTone (c : ChanIdx) (p : Psg) : recalcTone c (recalcTone c p) = recalcTone c p := by
  obtain ⟨hperiod, hfn⟩ := recalcTone_fresh c p
  have hfreq : recalcFreq c (recalcTone c p) = recalcTone c p := Psg.modChan_self _ _ _ (by rw [← hperiod])
  calc recalcTone c (recalcTone c p) = recalcOfn c (recalcFreq c (recalcTone c p)) := rfl
    _ = recalcOfn c (recalcTone c p) := by rw [hfreq]
    _ = recalcTone c p := Psg.modChan_self _ _ _ (by rw [← hfn])

/-- A second gating recompute changes nothing (45_update_scheduler.md R182). -/
theorem gateLfo_gateLfo (p : Psg) : gateLfo (gateLfo p) = gateLfo p := by
  by_cases h : LfoGated p
  · have hafter : LfoGated (recalcTone 0 p) := by
      rw [LfoGated, recalcTone_g, recalcTone_other (by decide)]
      exact h
    rw [gateLfo_of_gated h, gateLfo_of_gated hafter, recalcTone_recalcTone]
  · rw [gateLfo_of_not_gated h, gateLfo_of_not_gated h]

/-! ### The two together -/

/-- The global record after the start of `Update`: the start test alone writes it (45_update_scheduler.md R176). -/
theorem beginUpdate_g (p : Psg) : (beginUpdate p).g = (startXfade p).g := gateLfo_g _

/-- The start of `Update` done twice is done once (45_update_scheduler.md R182). -/
theorem beginUpdate_beginUpdate (p : Psg) : beginUpdate (beginUpdate p) = beginUpdate p := by
  have hstart : startXfade (beginUpdate p) = beginUpdate p :=
    startXfade_of_not (by rw [beginUpdate_g]; exact startXfade_done p)
  calc beginUpdate (beginUpdate p) = gateLfo (startXfade (beginUpdate p)) := rfl
    _ = gateLfo (gateLfo (startXfade p)) := by rw [hstart]; rfl
    _ = beginUpdate p := gateLfo_gateLfo _

/-- The start of `Update` changes the global record and channel 0 only (45_update_scheduler.md R176, R177). -/
theorem beginUpdate_onlyChan (p : Psg) : onlyChan 0 p (beginUpdate p) := by
  have hs := startXfade_onlyGlobal p
  have hg := gateLfo_onlyChan (startXfade p)
  exact ⟨hg.rev.trans hs.rev, hg.hr.trans hs.hr, hg.overrun.trans hs.overrun,
    fun d hd => (hg.others d hd).trans (hs.chan d)⟩

/-- The carrier after the start of `Update`: recomputed if and only if LFO mode is on without effect
(45_update_scheduler.md R177). -/
theorem beginUpdate_carrier (p : Psg) :
    (beginUpdate p).chan 0
      = if LfoGated p then
          { p.chan 0 with freqCache := freqPeriod p 0, outputFunction := chanFn (beginUpdate p) 0 }
        else p.chan 0 := by
  have hs := startXfade_onlyGlobal p
  obtain ⟨hcontrol, hfrequency⟩ := startXfade_lfo p
  have hgated : LfoGated (startXfade p) ↔ LfoGated p := by rw [LfoGated, LfoGated, hcontrol, hs.chan]
  have hperiod : freqPeriod (startXfade p) 0 = freqPeriod p 0 :=
    freqPeriod_congr hcontrol hfrequency 0 (by rw [hs.chan]) (by rw [hs.chan])
  split
  · next h =>
    have hbegin : beginUpdate p = recalcTone 0 (startXfade p) := gateLfo_of_gated (hgated.2 h)
    rw [hbegin, recalcTone_chan, if_pos rfl, hs.chan, hperiod]
  · next h =>
    have hbegin : beginUpdate p = startXfade p := gateLfo_of_not_gated (mt hgated.1 h)
    rw [hbegin, hs.chan]

/-- Settles O27: at the time already reached `Update` is its start, which is idempotent. -/
theorem updateAtSameTime : Obligations.UpdateAtSameTime := by
  intro p _ u
  have hu : u = beginUpdate p := update_same p
  have htime : u.g.lastTs = p.g.lastTs := by rw [hu, beginUpdate_lastTs]
  refine ⟨?global, ?carrier, ?frame, ?again⟩
  case global => rw [hu, beginUpdate_g, startXfade_g]
  case carrier =>
    rw [hu]
    exact beginUpdate_carrier p
  case frame =>
    rw [hu]
    exact beginUpdate_onlyChan p
  case again =>
    calc update p.g.lastTs u = update u.g.lastTs u := by rw [htime]
      _ = beginUpdate u := update_same u
      _ = u := by rw [hu, beginUpdate_beginUpdate]

/-! ### The operations that only flush -/

/-- An operation that is the flush and nothing else completes on buffers that fit, and returns nothing. -/
theorem exec_of_flush {i : Instr} {ts : Int} {s : State} (hready : s.psg.ready) (heffect : effect s.psg i = update ts s.psg)
    (hreturned : returned s.psg i = .nothing) :
    exec i s = .next { s with psg := update ts s.psg, result := .nothing } := by
  rw [exec_next (heffect ▸ (update_ready ts hready).2), heffect, hreturned]

/-- Settles O49: UPD and the six reserved offsets are one and the same flush. -/
theorem updateAndReservedWrites : Obligations.UpdateAndReservedWrites := by
  intro ts v s hready ⟨_, hts⟩
  have hflush (i : Instr) (h : effect s.psg i = update ts s.psg ∧ returned s.psg i = .nothing) :
      exec i s = .next { s with psg := update ts s.psg, result := .nothing } := exec_of_flush hready h.1 h.2
  exact ⟨hflush (.upd ts) ⟨rfl, rfl⟩, update_lastTs hts, update_ready ts hready, hflush (.wRsvdA ts v) ⟨rfl, rfl⟩,
    hflush (.wRsvdB ts v) ⟨rfl, rfl⟩, hflush (.wRsvdC ts v) ⟨rfl, rfl⟩, hflush (.wRsvdD ts v) ⟨rfl, rfl⟩,
    hflush (.wRsvdE ts v) ⟨rfl, rfl⟩, hflush (.wRsvdF ts v) ⟨rfl, rfl⟩⟩

end Sys2Proof.Machine
end

section
/-! PROOFS. The crossfade machine: the target attenuation and one step (45_update_scheduler.md R183 to R189). -/

namespace Sys2Proof.Machine

/-! ### The target attenuation -/

/-- The nibble of a balance byte for a side, as a number (10_state.md R22, R32). -/
theorem balNibble_toNat (v : Byte) (b : Side) :
    (balNibble v b).toNat = match b with
      | .left => v.toNat / 16
      | .right => v.toNat % 16 := by
  cases b with
  | left =>
    have hlt : v.toNat / 16 < 16 := Nat.div_lt_of_lt_mul v.isLt
    simpa [balNibble, BitVec.extractLsb'_toNat, Nat.shiftRight_eq_div_pow] using hlt
  | right => simp [balNibble, BitVec.extractLsb'_toNat]

/-- `ATT` is the low five bits of the control byte (10_state.md R31). -/
theorem attField_toNat (control : Byte) : (attField control).toNat = control.toNat % 32 := by
  simp [attField, BitVec.extractLsb'_toNat]

/-- The target attenuation as a number: saturated at 31, so nothing is lost in five bits (45_update_scheduler.md
R186). -/
theorem targetAtt_toNat (p : Psg) (c : ChanIdx) (b : Side) :
    (targetAtt p c b).toNat
      = min 31 (balReduction p.g.globalBalance b + balReduction (p.chan c).balance b
          + (31 - (p.chan c).control.toNat % 32)) := by
  rw [targetAtt, BitVec.toNat_ofNat, attField_toNat]
  exact Nat.mod_eq_of_lt (Nat.lt_succ_of_le (Nat.min_le_left _ _))

/-- Settles O31: the saturated sum of the three reductions, each read off its nibble or field. -/
theorem targetAttenuation : Obligations.TargetAttenuation := by
  intro p c b nibble scale gb cb al
  have hreduction (v : Byte) : balReduction v b = 31 - scale.getD (nibble v) 0 := by
    rw [balReduction, balNibble_toNat]
    rfl
  rw [targetAtt_toNat, hreduction, hreduction]

/-! ### One step -/

/-- The place of a side in a crossfade cycle: right then left of each channel in turn (45_update_scheduler.md R184,
R190). -/
def sideNumber (c : ChanIdx) (b : Side) : Nat := 2 * c.val + (if b = .left then 1 else 0)

theorem sideNumber_lt (c : ChanIdx) (b : Side) : sideNumber c b < 12 := by
  have hc := c.isLt
  unfold sideNumber
  split <;> omega

/-- Every place of a cycle belongs to a channel and a side. -/
theorem exists_sideNumber {j : Nat} (h : j < 12) : ∃ c b, sideNumber c b = j := by
  have hdiv : j / 2 < 6 := by omega
  rcases Nat.mod_two_eq_zero_or_one j with hj | hj
  · exact ⟨⟨j / 2, hdiv⟩, .right, by simp only [sideNumber, reduceCtorEq, if_false]; omega⟩
  · exact ⟨⟨j / 2, hdiv⟩, .left, by simp only [sideNumber, if_true]; omega⟩

/-- The channel of the two phases of a side (45_update_scheduler.md R183). -/
theorem phaseChan_sideNumber (c : ChanIdx) (b : Side) {k : Nat} (hk : k < 2) :
    phaseChan (2 * sideNumber c b + k) = some c := by
  have hc := c.isLt
  have hdiv : (2 * sideNumber c b + k) / 4 = c.val := by
    unfold sideNumber
    split <;> omega
  simp only [phaseChan, hdiv, hc, dif_pos, Fin.eta]

/-- The side of the two phases of a side (45_update_scheduler.md R183). -/
theorem phaseSide_sideNumber (c : ChanIdx) (b : Side) {k : Nat} (hk : k < 2) :
    phaseSide (2 * sideNumber c b + k) = b := by
  have hdiv : (2 * sideNumber c b + k) / 2 = sideNumber c b := by omega
  rw [phaseSide, hdiv]
  cases b with
  | left => exact if_neg (by simp only [sideNumber, if_true]; omega)
  | right => exact if_pos (by simp only [sideNumber, reduceCtorEq, if_false]; omega)

/-- A step in the even phase of a side samples its target (45_update_scheduler.md R183, R186). -/
theorem xfadeStep_of_sample {p : Psg} {c : ChanIdx} {b : Side} (h : p.g.xfPhase = 2 * sideNumber c b) :
    xfadeStep p = p.modGlobal (fun g => nextPhase { g with xfLatch := targetAtt p c b }) := by
  have hsample : xfadeSample p = p.modGlobal (fun g => { g with xfLatch := targetAtt p c b }) := by
    have hchan : phaseChan (2 * sideNumber c b) = some c := phaseChan_sideNumber c b Nat.two_pos
    have hside : phaseSide (2 * sideNumber c b) = b := phaseSide_sideNumber c b Nat.two_pos
    simp only [xfadeSample, h, hchan, hside]
  rw [xfadeStep, if_pos (by omega), hsample]
  rfl

/-- A step in the odd phase of a side commits the latch (45_update_scheduler.md R183, R187). -/
theorem xfadeStep_of_commit {p : Psg} {c : ChanIdx} {b : Side} (h : p.g.xfPhase = 2 * sideNumber c b + 1) :
    xfadeStep p
      = (p.modChan c (fun x => { x with attenuation := x.attenuation.set b p.g.xfLatch })).modGlobal nextPhase := by
  have hcommit : xfadeCommit p = p.modChan c (fun x => { x with attenuation := x.attenuation.set b p.g.xfLatch }) := by
    simp only [xfadeCommit, h, phaseChan_sideNumber c b Nat.one_lt_two, phaseSide_sideNumber c b Nat.one_lt_two]
  rw [xfadeStep, if_neg (by omega), hcommit]

/-- The end of a phase, field by field (45_update_scheduler.md R183, R188, R189). -/
theorem nextPhase_eq {g : Global} (h : g.xfPhase < 24) :
    nextPhase g = { g with
      xfPhase := (g.xfPhase + 1) % 24
      xfCountdown := if g.xfPhase = 23 ∧ g.xfPending = false then g.xfCountdown
        else if g.xfPhase % 2 = 1 then 1 else 255
      xfPending := if g.xfPhase = 23 then false else g.xfPending } := by
  by_cases hlast : g.xfPhase = 23
  · cases hpending : g.xfPending <;>
      simp [nextPhase, hlast, hpending, xfadeSteps, xfAfterCommit]
  · have hphase : (g.xfPhase + 1) % xfadeSteps ≠ 0 := by
      rw [xfadeSteps, Nat.mod_eq_of_lt (by omega)]
      exact Nat.succ_ne_zero _
    simp only [nextPhase, if_pos hphase, hlast, false_and, if_false]
    rfl

/-- Settles O32: the two kinds of step, each followed by the end of the phase. -/
theorem crossfadeStep : Obligations.CrossfadeStep := by
  intro p c b commit hphase q
  have hlt := sideNumber_lt c b
  have hside : p.g.xfPhase = 2 * sideNumber c b + (if commit then 1 else 0) := by
    rw [hphase]
    unfold sideNumber
    split <;> omega
  have hrange : p.g.xfPhase < 24 := by
    rw [hside]
    split <;> omega
  cases commit with
  | false =>
    have hq : q = p.modGlobal (fun g => nextPhase { g with xfLatch := targetAtt p c b }) := xfadeStep_of_sample hside
    have heven : ¬ p.g.xfPhase % 2 = 1 := by
      rw [hside, if_neg Bool.false_ne_true]
      omega
    have hg : q.g = _ := (congrArg Psg.g hq).trans (nextPhase_eq hrange)
    simp only [if_neg heven] at hg
    have hframe : onlyGlobal p q := by
      rw [hq]
      exact ⟨rfl, rfl, rfl, fun _ => rfl⟩
    rw [hg]
    exact ⟨rfl, rfl, rfl, rfl, rfl, hframe.chan c, hframe.rev, hframe.hr, hframe.overrun, fun d _ => hframe.chan d⟩
  | true =>
    have hq : q = (p.modChan c (fun x => { x with attenuation := x.attenuation.set b p.g.xfLatch })).modGlobal nextPhase :=
      xfadeStep_of_commit hside
    have hodd : p.g.xfPhase % 2 = 1 := by
      rw [hside, if_pos rfl]
      omega
    have hg : q.g = _ := (congrArg Psg.g hq).trans (nextPhase_eq (g := p.g) hrange)
    simp only [if_pos hodd] at hg
    have hchan : q.chan c = { p.chan c with attenuation := (p.chan c).attenuation.set b p.g.xfLatch } := by
      rw [hq, Psg.chan_modGlobal, Psg.chan_modChan, if_pos rfl]
    have hframe := modChan_onlyChan p c (fun x => { x with attenuation := x.attenuation.set b p.g.xfLatch })
    rw [hg]
    refine ⟨rfl, rfl, rfl, rfl, rfl, hchan, ?_⟩
    rw [hq]
    exact ⟨hframe.rev, hframe.hr, hframe.overrun, hframe.others⟩

end Sys2Proof.Machine
end

section
/-! PROOFS. The timeline of a crossfade cycle: an invariant indexed by the steps made so far, which each chunk that ends
a crossfade phase carries one step further (45_update_scheduler.md R178, R180, R190). -/

namespace Sys2Proof.Machine

/-! ### The two kinds of step, field by field -/

/-- No two sides have the same place in a cycle. -/
theorem sideNumber_inj {c d : ChanIdx} {a b : Side} (h : sideNumber c a = sideNumber d b) : c = d ∧ a = b := by
  unfold sideNumber at h
  have hc : c = d := Fin.ext (by split at h <;> split at h <;> omega)
  subst hc
  cases a <;> cases b <;> simp_all

section
variable {p : Psg} {c : ChanIdx} {b : Side}

/-- The global record after a sample step, which never ends a cycle (45_update_scheduler.md R186, R188). -/
theorem xfadeStep_g_of_sample (h : p.g.xfPhase = 2 * sideNumber c b) :
    (xfadeStep p).g
      = { p.g with xfPhase := 2 * sideNumber c b + 1, xfCountdown := 255, xfLatch := targetAtt p c b } := by
  have hlt := sideNumber_lt c b
  have heven : ¬ 2 * sideNumber c b % 2 = 1 := by omega
  have hlast : ¬ 2 * sideNumber c b = 23 := by omega
  have hnext : (2 * sideNumber c b + 1) % 24 = 2 * sideNumber c b + 1 := Nat.mod_eq_of_lt (by omega)
  rw [xfadeStep_of_sample h, Psg.modGlobal_g, nextPhase_eq (by simp only [h]; omega)]
  simp only [h, heven, hlast, hnext, false_and, if_false]

/-- A sample step changes no channel (45_update_scheduler.md R186). -/
theorem xfadeStep_chan_of_sample (h : p.g.xfPhase = 2 * sideNumber c b) (d : ChanIdx) :
    (xfadeStep p).chan d = p.chan d := by
  rw [xfadeStep_of_sample h, Psg.chan_modGlobal]

/-- The global record after a commit step with no request pending: at the end of the cycle the countdown is not
reloaded (45_update_scheduler.md R188, R189). -/
theorem xfadeStep_g_of_commit (h : p.g.xfPhase = 2 * sideNumber c b + 1) (hpending : p.g.xfPending = false) :
    (xfadeStep p).g
      = { p.g with
          xfPhase := (2 * sideNumber c b + 2) % 24
          xfCountdown := if 2 * sideNumber c b + 2 = 24 then p.g.xfCountdown else 1 } := by
  have hlt := sideNumber_lt c b
  have hodd : (2 * sideNumber c b + 1) % 2 = 1 := by omega
  have hlast : 2 * sideNumber c b + 1 = 23 ↔ 2 * sideNumber c b + 2 = 24 := by omega
  rw [xfadeStep_of_commit h, Psg.modGlobal_g, Psg.modChan_g, nextPhase_eq (by omega)]
  simp only [h, hpending, hodd, hlast, and_true, if_true, ite_self]

/-- A commit step moves the latch into the attenuation of its side and leaves every other (45_update_scheduler.md
R187). -/
theorem xfadeStep_attenuation_of_commit (h : p.g.xfPhase = 2 * sideNumber c b + 1) (d : ChanIdx) (a : Side) :
    ((xfadeStep p).chan d).attenuation.get a
      = if sideNumber d a = sideNumber c b then p.g.xfLatch else (p.chan d).attenuation.get a := by
  rw [xfadeStep_of_commit h, Psg.chan_modGlobal, Psg.chan_modChan]
  by_cases hd : d = c
  · subst hd
    have hside : a = b ↔ sideNumber d a = sideNumber d b := ⟨fun e => by rw [e], fun e => (sideNumber_inj e).2⟩
    simp only [if_true, Stereo.get_set, hside]
  · rw [if_neg hd, if_neg fun e => hd (sideNumber_inj e).1]

end

/-! ### A chunk that ends a crossfade phase -/

/-- The machine at the end of the running crossfade phase: the channels have run up to it, the countdown is spent, the
step is not yet made (45_update_scheduler.md R179, R180). -/
def phaseEnd (live : Bool) (q : Psg) : Psg :=
  (runAll (q.g.lastTs + q.g.xfCountdown) live q).modGlobal (fun g => { g with xfCountdown := 0 })

theorem phaseEnd_g (live : Bool) (q : Psg) : (phaseEnd live q).g = { q.g with xfCountdown := 0 } := by
  rw [phaseEnd, Psg.modGlobal_g, runAll_g]

/-- Running up to the end of a phase changes no attenuation. -/
theorem phaseEnd_attenuation (live : Bool) (q : Psg) (c : ChanIdx) :
    ((phaseEnd live q).chan c).attenuation = (q.chan c).attenuation := (runAll_frame _ live q).attenuation c

/-- Running up to the end of a phase changes no target. -/
theorem phaseEnd_targetAtt (live : Bool) (q : Psg) (c : ChanIdx) (b : Side) :
    targetAtt (phaseEnd live q) c b = targetAtt q c b :=
  have hrun := runAll_frame (q.g.lastTs + q.g.xfCountdown) live q
  targetAtt_congr c b (by rw [phaseEnd_g]) (hrun.balance c) (hrun.control c)

/-- A chunk as long as the countdown is the run to the end of the phase and then one crossfade step
(45_update_scheduler.md R180). -/
theorem runChunk_countdown {q : Psg} (h : 0 < q.g.xfCountdown) (live : Bool) :
    runChunk live q.g.xfCountdown q
      = (xfadeStep (phaseEnd live q)).modGlobal (fun g => { g with lastTs := q.g.lastTs + q.g.xfCountdown }) := by
  have hspent : (runAll (q.g.lastTs + q.g.xfCountdown) live q).modGlobal
      (fun g => { g with xfCountdown := g.xfCountdown - q.g.xfCountdown }) = phaseEnd live q := by
    rw [phaseEnd, Psg.modGlobal, runAll_g, Nat.sub_self, Psg.modGlobal, runAll_g]
  have hzero : (phaseEnd live q).g.xfCountdown = 0 := by rw [phaseEnd_g]
  rw [runChunk_eq, tickXfade, runAll_g, if_pos h, hspent, if_pos hzero]

/-- An interval that reaches the end of the running phase begins with the chunk that ends it (45_update_scheduler.md
R178). -/
theorem chunkLoop_countdown {q : Psg} (h : 0 < q.g.xfCountdown) (live : Bool) (n : Nat) :
    chunkLoop live (q.g.xfCountdown + n) q = chunkLoop live n (runChunk live q.g.xfCountdown q) := by
  have hlen : chunkLen (q.g.xfCountdown + n) q = q.g.xfCountdown := by
    unfold chunkLen
    split
    · rfl
    · omega
  rw [chunkLoop_next live (Nat.add_pos_left h n), hlen, Nat.add_sub_cancel_left]

/-! ### The invariant of a cycle -/

/-- The machine `q` after the first `i` steps of a crossfade cycle that began on `p`: the committed sides hold their
targets, the others what they held on `p`, and between its two steps a side's target stands in the latch
(45_update_scheduler.md R190). -/
structure CycleAt (p : Psg) (i : Nat) (q : Psg) : Prop where
  registers : sameRegisters p q
  phase : q.g.xfPhase = i % 24
  countdown : q.g.xfCountdown = if i = 24 then 0 else if i % 2 = 1 then 255 else 1
  pending : q.g.xfPending = false
  attenuation : ∀ c b, (q.chan c).attenuation.get b
    = if 2 * sideNumber c b + 2 ≤ i then targetAtt p c b else (p.chan c).attenuation.get b
  latch : ∀ c b, i = 2 * sideNumber c b + 1 → q.g.xfLatch = targetAtt p c b

/-- No chunk changes a register. -/
theorem sameRegisters.runChunk {p q : Psg} (h : sameRegisters p q) (live : Bool) (k : Nat) :
    sameRegisters p (runChunk live k q) :=
  ((sameRegisters_kept p).flow.runChunk live k ⟨rfl, h⟩).2

section
variable {p q : Psg} {c : ChanIdx} {b : Side}

/-- Within a cycle a countdown is running. -/
theorem CycleAt.countdown_pos {i : Nat} (h : CycleAt p i q) (hi : i < 24) : 0 < q.g.xfCountdown := by
  rw [h.countdown, if_neg (by omega)]
  split <;> decide

/-- The targets are those of the machine the cycle began on: no register changes during it. -/
theorem CycleAt.target_eq {i : Nat} (h : CycleAt p i q) (c : ChanIdx) (b : Side) : targetAtt q c b = targetAtt p c b :=
  targetAtt_congr c b h.registers.globalBalance (h.registers.balance c) (h.registers.control c)

/-- The chunk that ends the even phase of a side samples its target (45_update_scheduler.md R186, R188). -/
theorem CycleAt.sample (h : CycleAt p (2 * sideNumber c b) q) (live : Bool) :
    CycleAt p (2 * sideNumber c b + 1) (runChunk live q.g.xfCountdown q) := by
  have hlt := sideNumber_lt c b
  have hphase : (phaseEnd live q).g.xfPhase = 2 * sideNumber c b := by
    rw [phaseEnd_g]
    exact h.phase.trans (Nat.mod_eq_of_lt (by omega))
  have hchunk := runChunk_countdown (h.countdown_pos (by omega)) live
  have hg := congrArg Psg.g hchunk
  rw [Psg.modGlobal_g, xfadeStep_g_of_sample hphase, phaseEnd_g, phaseEnd_targetAtt, h.target_eq] at hg
  refine
    { registers := h.registers.runChunk live _
      phase := by rw [hg, Nat.mod_eq_of_lt (by omega : 2 * sideNumber c b + 1 < 24)]
      countdown := by rw [hg, if_neg (by omega), if_pos (by omega)]
      pending := by rw [hg]; exact h.pending
      attenuation := fun d a => ?_
      latch := fun d a hda => ?_ }
  · rw [hchunk, Psg.chan_modGlobal, xfadeStep_chan_of_sample hphase, phaseEnd_attenuation, h.attenuation]
    exact if_congr (by omega) rfl rfl
  · obtain ⟨rfl, rfl⟩ := sideNumber_inj (c := c) (d := d) (a := b) (b := a) (by omega)
    rw [hg]

/-- The chunk that ends the odd phase of a side commits the latch (45_update_scheduler.md R187 to R189). -/
theorem CycleAt.commit (h : CycleAt p (2 * sideNumber c b + 1) q) (live : Bool) :
    CycleAt p (2 * sideNumber c b + 2) (runChunk live q.g.xfCountdown q) := by
  have hlt := sideNumber_lt c b
  have hphase : (phaseEnd live q).g.xfPhase = 2 * sideNumber c b + 1 := by
    rw [phaseEnd_g]
    exact h.phase.trans (Nat.mod_eq_of_lt (by omega))
  have hpending : (phaseEnd live q).g.xfPending = false := by
    rw [phaseEnd_g]
    exact h.pending
  have hlatch : (phaseEnd live q).g.xfLatch = targetAtt p c b := by
    rw [phaseEnd_g]
    exact h.latch c b rfl
  have hchunk := runChunk_countdown (h.countdown_pos (by omega)) live
  have hg := congrArg Psg.g hchunk
  rw [Psg.modGlobal_g, xfadeStep_g_of_commit hphase hpending, phaseEnd_g] at hg
  refine
    { registers := h.registers.runChunk live _
      phase := by rw [hg]
      countdown := by rw [hg, if_neg (by omega : ¬ (2 * sideNumber c b + 2) % 2 = 1)]
      pending := by rw [hg]; exact h.pending
      attenuation := fun d a => ?_
      latch := fun d a hda => absurd hda (by omega) }
  rw [hchunk, Psg.chan_modGlobal, xfadeStep_attenuation_of_commit hphase, hlatch, phaseEnd_attenuation, h.attenuation]
  by_cases hda : sideNumber d a = sideNumber c b
  · obtain ⟨rfl, rfl⟩ := sideNumber_inj hda
    rw [if_pos rfl, if_pos (le_refl _)]
  · rw [if_neg hda]
    exact if_congr (by omega) rfl rfl

end

/-- One step further in a cycle: an even step samples, an odd step commits (45_update_scheduler.md R184). -/
theorem CycleAt.succ {p q : Psg} {i : Nat} (h : CycleAt p i q) (hi : i < 24) (live : Bool) :
    CycleAt p (i + 1) (runChunk live q.g.xfCountdown q) := by
  obtain ⟨c, b, hside⟩ := exists_sideNumber (j := i / 2) (by omega)
  rcases Nat.mod_two_eq_zero_or_one i with heven | hodd
  · obtain rfl : i = 2 * sideNumber c b := by omega
    exact h.sample live
  · obtain rfl : i = 2 * sideNumber c b + 1 := by omega
    exact h.commit live

/-! ### The time line -/

/-- The ticks from the start of a cycle to its `i`-th step: 1 to each sample, 255 more to its commit
(45_update_scheduler.md R188, R190). -/
def cycleTicks (i : Nat) : Nat := 256 * (i / 2) + i % 2

/-- The countdown holds the ticks to the next step. -/
theorem CycleAt.cycleTicks_succ {p q : Psg} {i : Nat} (h : CycleAt p i q) (hi : i < 24) :
    cycleTicks (i + 1) = cycleTicks i + q.g.xfCountdown := by
  rw [h.countdown, if_neg (by omega), cycleTicks, cycleTicks]
  split <;> omega

/-- The steps of a cycle come at their times, however far the interval reaches (45_update_scheduler.md R190). -/
theorem CycleAt.run {p q : Psg} {i m n : Nat} (h : CycleAt p i q) (hm : i + m ≤ 24)
    (hn : cycleTicks i + n = cycleTicks (i + m)) (live : Bool) : CycleAt p (i + m) (chunkLoop live n q) := by
  induction m generalizing i n q with
  | zero =>
    obtain rfl : n = 0 := Nat.left_eq_add.mp hn.symm
    exact h
  | succ m ih =>
    have hstep := h.cycleTicks_succ (by omega)
    have hmono : cycleTicks (i + 1) ≤ cycleTicks (i + 1 + m) := by
      unfold cycleTicks
      omega
    have hindex : i + (m + 1) = i + 1 + m := by omega
    rw [hindex] at hn ⊢
    obtain ⟨r, rfl⟩ : ∃ r, n = q.g.xfCountdown + r := ⟨n - q.g.xfCountdown, by omega⟩
    rw [chunkLoop_countdown (h.countdown_pos (by omega))]
    exact ih (h.succ (by omega) live) (by omega) (by omega)

/-- The start test begins a cycle on an idle machine with a request (45_update_scheduler.md R176). -/
theorem cycleAt_start {p : Psg} (hpending : p.g.xfPending = true) (hcountdown : p.g.xfCountdown = 0)
    (hphase : p.g.xfPhase = 0) : CycleAt p 0 (update p.g.lastTs p) := by
  have hg : (update p.g.lastTs p).g = { p.g with xfCountdown := 1, xfPending := false } := by
    rw [update_same, beginUpdate_g, startXfade_g, if_pos ⟨hpending, hcountdown, hphase⟩]
  refine
    { registers := (sameRegisters_kept p).update _ (.refl p)
      phase := by rw [hg]; exact hphase
      countdown := by rw [hg]; rfl
      pending := by rw [hg]
      attenuation := fun c b => ?_
      latch := fun c b h => absurd h (Nat.succ_ne_zero _).symm }
  obtain ⟨f, o, hchan, -⟩ := beginUpdate_chan p c
  rw [update_same, hchan, if_neg (by omega)]

/-- Settles O33: `Update` to the time of a step of the cycle, an even one for the commits and an odd one for the
samples. -/
theorem crossfadeTimeline : Obligations.CrossfadeTimeline := by
  intro p _ hpending hcountdown hphase
  have hcycle {i : Nat} {ts : Int} (hi : i ≤ 24) (hts : ts = p.g.lastTs + cycleTicks i) : CycleAt p i (update ts p) := by
    have helapsed : (ts - p.g.lastTs).toNat = cycleTicks i := by omega
    have hrun := (cycleAt_start hpending hcountdown hphase).run (m := i) (n := cycleTicks i) (by omega)
      (by rw [Nat.zero_add]; exact Nat.zero_add _) (modulationLive p)
    rw [Nat.zero_add] at hrun
    rwa [update_eq_chunkLoop, helapsed]
  constructor
  case left =>
    intro j hj u
    have hticks : cycleTicks (2 * j) = 256 * j := by
      unfold cycleTicks
      omega
    have hu : CycleAt p (2 * j) u := hcycle (by omega) (by rw [hticks]; rfl)
    have hdone (c : ChanIdx) (b : Side) : (u.chan c).attenuation.get b
        = if sideNumber c b < j then targetAtt p c b else (p.chan c).attenuation.get b := by
      rw [hu.attenuation]
      exact if_congr (by omega) rfl rfl
    have hidle : 2 * j = 24 ↔ j = 12 := by omega
    refine ⟨fun c => ⟨hdone c .right, hdone c .left⟩, hu.phase, ?_, hu.pending⟩
    rw [hu.countdown, if_neg (by omega : ¬ 2 * j % 2 = 1)]
    simp only [hidle]
  case right =>
    intro c b j v
    have hlt : j < 12 := sideNumber_lt c b
    have hticks : cycleTicks (2 * j + 1) = 256 * j + 1 := by
      unfold cycleTicks
      omega
    have hv : CycleAt p (2 * j + 1) v := hcycle (by omega) (by rw [hticks]; push_cast; omega)
    refine ⟨hv.latch c b rfl, hv.phase.trans (Nat.mod_eq_of_lt (by omega)), ?_⟩
    rw [hv.countdown, if_neg (by omega), if_pos (by omega)]

end Sys2Proof.Machine
end

section
/-! PROOFS. The register writes (46_register_writes.md R195 to R213): each is the flush and then a store that neither
reads nor changes the buffers. -/

namespace Sys2Proof.Machine

/-! ### A flush and then a store -/

section
variable {i : Instr} {ts : Int} {s : State} (hready : s.psg.ready) (hreturned : returned s.psg i = .nothing)
include hready hreturned

/-- A write that flushes and then stores completes on buffers that fit (46_register_writes.md R196). -/
theorem exec_of_store {f : Psg → Psg} (hf : BufferBlind f) (heffect : effect s.psg i = f (update ts s.psg)) :
    exec i s = .next { s with psg := f (update ts s.psg), result := .nothing } := by
  have hdone : (effect s.psg i).hrOverrun = false := by
    rw [heffect, (hf.keeps _).2, (update_ready ts hready).2]
  rw [exec_next hdone, heffect, hreturned]

/-- The flush leaves the select, so a banked write reaches the channel that was selected before it (20_memory.md R62,
46_register_writes.md R196). -/
theorem exec_of_selected {f : ChanIdx → Psg → Psg} {c : ChanIdx} (hf : BufferBlind (f c))
    (hselect : s.psg.g.select.toNat = c.val) (heffect : effect s.psg i = onSelected f (update ts s.psg)) :
    exec i s = .next { s with psg := f c (update ts s.psg), result := .nothing } := by
  refine exec_of_store hready hreturned hf ?_
  rw [heffect, onSelected_some (by rw [update_select, hselect])]

/-- With no channel selected a banked write is the flush alone (46_register_writes.md R213). -/
theorem exec_of_unselected {f : ChanIdx → Psg → Psg} (hselect : 6 ≤ s.psg.g.select.toNat)
    (heffect : effect s.psg i = onSelected f (update ts s.psg)) :
    exec i s = .next { s with psg := update ts s.psg, result := .nothing } := by
  refine exec_of_flush hready ?_ hreturned
  rw [heffect, onSelected_none (by rwa [update_select])]

end

/-! ### What a store leaves unchanged -/

/-- A store blind to the buffers that changes no channel but its own. -/
theorem BufferBlind.onlyChan {f : Psg → Psg} (hf : BufferBlind f) {c : ChanIdx} {p : Psg} (hrev : (f p).rev = p.rev)
    (hothers : ∀ d, d ≠ c → (f p).chan d = p.chan d) : onlyChan c p (f p) :=
  have ⟨hhr, hover⟩ := hf.keeps p
  ⟨hrev, hhr, hover, hothers⟩

theorem writeFreqLo_onlyChan (v : Byte) (c : ChanIdx) (p : Psg) : onlyChan c p (writeFreqLo v c p) :=
  (blind_writeFreqLo v c).onlyChan rfl fun d hd => by rw [writeFreqLo_chan, if_neg hd]

theorem writeFreqHi_onlyChan (v : Byte) (c : ChanIdx) (p : Psg) : onlyChan c p (writeFreqHi v c p) :=
  (blind_writeFreqHi v c).onlyChan rfl fun d hd => by rw [writeFreqHi_chan, if_neg hd]

theorem writeCtrl_onlyChan (v : Byte) (c : ChanIdx) (p : Psg) : onlyChan c p (writeCtrl v c p) :=
  (blind_writeCtrl v c).onlyChan rfl fun d hd => by rw [writeCtrl_chan, if_neg hd]

theorem writeBal_onlyChan (v : Byte) (c : ChanIdx) (p : Psg) : onlyChan c p (writeBal v c p) :=
  (blind_writeBal v c).onlyChan rfl fun d hd => by rw [writeBal_chan, if_neg hd]

theorem writeWave_onlyChan (v : Byte) (c : ChanIdx) (p : Psg) : onlyChan c p (writeWave v c p) :=
  (blind_writeWave v c).onlyChan rfl fun d hd => by rw [writeWave_chan, if_neg hd]

theorem writeNoise_onlyChan {c : ChanIdx} (hc : 4 ≤ c.val) (v : Byte) (p : Psg) : onlyChan c p (writeNoise v c p) :=
  (blind_writeNoise v c).onlyChan (by rw [writeNoise_eq_setChan hc, Psg.setChan_rev])
    fun d hd => by rw [writeNoise_chan hc, if_neg hd]

/-! ### The operands -/

/-- A frequency is below 4096, so its high four bits are what is left above 256 (46_register_writes.md R199). -/
theorem withFreqLo_toNat (f : BitVec 12) (v : Byte) : (withFreqLo f v).toNat = f.toNat / 256 * 256 + v.toNat := by
  have hhigh : f.toNat / 256 < 16 := Nat.div_lt_of_lt_mul f.isLt
  rw [withFreqLo, BitVec.toNat_append, BitVec.extractLsb'_toNat, Nat.shiftRight_eq_div_pow,
    ← Nat.shiftLeft_add_eq_or_of_lt v.isLt, Nat.shiftLeft_eq, Nat.mod_eq_of_lt hhigh]

/-- The high half keeps only four bits of the value (46_register_writes.md R200). -/
theorem withFreqHi_toNat (f : BitVec 12) (v : Byte) :
    (withFreqHi f v).toNat = v.toNat % 16 * 256 + f.toNat % 256 := by
  rw [withFreqHi, BitVec.toNat_append, ← Nat.shiftLeft_add_eq_or_of_lt (BitVec.isLt _), Nat.shiftLeft_eq]
  simp only [BitVec.extractLsb'_toNat, Nat.shiftRight_zero]

theorem selectOf_toNat (v : Byte) : (selectOf v).toNat = v.toNat % 8 := by
  simp [selectOf, BitVec.extractLsb'_toNat]

theorem sampleOf_eq (v : Byte) : sampleOf v = BitVec.ofNat 5 (v.toNat % 32) :=
  BitVec.eq_of_toNat_eq (by simp [sampleOf, BitVec.extractLsb'_toNat])

/-- The command word of a register write is its offset and its value (30_encoding.md R100). -/
theorem ofNat_eq_cword (a : BitVec 4) (v : Byte) : BitVec.ofNat 16 (a.toNat * 256 + v.toNat) = cword 0x0 a v := by
  refine BitVec.eq_of_toNat_eq ?_
  have ha : a.toNat < 16 := a.isLt
  have hv : v.toNat < 256 := v.isLt
  have hlt : a.toNat * 256 + v.toNat < 2 ^ 16 := by omega
  have hoffset : ((0x0 : BitVec 4) ++ a).toNat = a.toNat := by
    rw [BitVec.toNat_append]
    exact Nat.zero_or a.toNat
  rw [cword, BitVec.toNat_append, hoffset, ← Nat.shiftLeft_add_eq_or_of_lt v.isLt, BitVec.toNat_ofNat,
    Nat.mod_eq_of_lt hlt, Nat.shiftLeft_eq]

/-! ### Frequency -/

/-- Settles O43: the store is of the low byte, and what follows it recomputes from the stored frequency. -/
theorem frequencyLowWrite : Obligations.FrequencyLowWrite := by
  intro ts v s hready _
  refine ⟨fun c hselect => ?selected, fun hselect => exec_of_unselected hready rfl hselect rfl, ?encoding⟩
  case selected =>
    have hchan := writeFreqLo_chan v c (update ts s.psg) c
    rw [if_pos rfl] at hchan
    have hfrequency := congrArg Chan.frequency hchan
    refine ⟨_, exec_of_selected hready rfl (blind_writeFreqLo v c) hselect rfl, rfl, rfl, ?_, ?_, rfl,
      writeFreqLo_onlyChan v c _⟩
    · rw [hfrequency, withFreqLo_toNat]
    · rw [hfrequency]
      exact hchan
  case encoding =>
    have hword : BitVec.ofNat 16 (0x200 + v.toNat) = cword 0x0 0x2 v := ofNat_eq_cword 0x2 v
    rw [hword]
    exact decode_encode (.wFreqLo ts v) rfl

/-- Settles O44: as for the low byte, with the high half. -/
theorem frequencyHighWrite : Obligations.FrequencyHighWrite := by
  intro ts v s c hready _ hselect
  have hchan := writeFreqHi_chan v c (update ts s.psg) c
  rw [if_pos rfl] at hchan
  have hfrequency := congrArg Chan.frequency hchan
  refine ⟨_, exec_of_selected hready rfl (blind_writeFreqHi v c) hselect rfl, rfl, rfl, ?_, ?_, rfl,
    writeFreqHi_onlyChan v c _⟩
  · rw [hfrequency, withFreqHi_toNat]
  · rw [hfrequency]
    exact hchan

/-! ### Balance -/

/-- Settles O42: one store in the global record or in the selected channel, and the request. -/
theorem balanceWrites : Obligations.BalanceWrites := by
  intro ts v s hready _
  refine ⟨⟨_, exec_of_store hready rfl (blind_writeGbal v) rfl, rfl, rfl, rfl, rfl, rfl, rfl, fun _ => rfl⟩,
    fun c hselect => ⟨_, exec_of_selected hready rfl (blind_writeBal v c) hselect rfl, rfl, rfl, ?_, rfl,
      writeBal_onlyChan v c _⟩⟩
  rw [writeBal_chan, if_pos rfl]

/-! ### Control -/

/-- One cell forward (46_register_writes.md R203). -/
theorem advanceBy_one (x : Chan) :
    advanceBy 1 x
      = { x with waveformIndex := x.waveformIndex + 1, ddaLatch := waveRead x (x.waveformIndex + 1).toNat } := rfl

/-- The two edges exclude each other: the first needs the new `DDA` set, the second needs it clear
(46_register_writes.md R202, R203). -/
theorem controlEdges_eq (v : Byte) (x : Chan) :
    controlEdges v x
      = if x.control.getLsbD 6 = false ∧ v.getLsbD 6 = true then rewind x
        else if x.control.getLsbD 7 = false ∧ v.getLsbD 7 = true ∧ v.getLsbD 6 = false then advanceBy 1 x
        else x := by
  simp only [controlEdges, ddaBit, enBit, Bool.and_eq_true, Bool.not_eq_true', and_assoc]
  by_cases hdda : x.control.getLsbD 6 = false ∧ v.getLsbD 6 = true
  · have hstay : ¬ (x.control.getLsbD 7 = false ∧ v.getLsbD 7 = true ∧ v.getLsbD 6 = false) := by
      simp [hdda.2]
    rw [if_pos hdda, if_pos hdda, if_neg]
    exact hstay
  · rw [if_neg hdda, if_neg hdda]

/-- Settles O45: the edges, then the store and its recompute. -/
theorem controlWrite : Obligations.ControlWrite := by
  intro ts v s c hready _ hselect
  refine ⟨_, exec_of_selected hready rfl (blind_writeCtrl v c) hselect rfl, rfl, rfl, ?_, rfl,
    writeCtrl_onlyChan v c _⟩
  rw [writeCtrl_chan, if_pos rfl, controlEdges_eq]
  rfl

/-! ### Waveform data -/

/-- Settles O46: the index is below 32, so the store is at the index itself. -/
theorem waveformDataWrite : Obligations.WaveformDataWrite := by
  intro ts v s c hready _ hselect
  refine ⟨_, exec_of_selected hready rfl (blind_writeWave v c) hselect rfl, rfl, rfl, ?_, rfl,
    writeWave_onlyChan v c _⟩
  have hindex : ((update ts s.psg).chan c).waveformIndex.toNat % 32 = ((update ts s.psg).chan c).waveformIndex.toNat :=
    Nat.mod_eq_of_lt (BitVec.isLt _)
  rw [writeWave_chan, if_pos rfl, waveWrite_eq, hindex, sampleOf_eq]
  rfl

/-! ### Noise -/

/-- Settles O47: channels 4 and 5 have a noise register, and elsewhere the store is none. -/
theorem noiseWrite : Obligations.NoiseWrite := by
  intro ts v s c hready _ hselect
  have hexec : exec (.wNoise ts v) s = .next { s with psg := writeNoise v c (update ts s.psg), result := .nothing } :=
    exec_of_selected hready rfl (blind_writeNoise v c) hselect rfl
  refine ⟨fun hc => ⟨_, hexec, rfl, rfl, ?_, writeNoise_g v c _, writeNoise_onlyChan hc v _⟩, fun hc => ?_⟩
  · rw [writeNoise_chan hc, if_pos rfl]
  · rw [hexec, writeNoise_low hc]

/-! ### The LFO registers -/

/-- The trigger of an LFO control write, on any channel: it rewinds channel 1 (46_register_writes.md R211). -/
theorem lfoTrigger_chan (v : Byte) (p : Psg) (d : ChanIdx) :
    (if haltBit v then p.modChan 1 rewind else p).chan d
      = if d = 1 ∧ v.getLsbD 7 = true then rewind (p.chan 1) else p.chan d := by
  unfold haltBit
  cases v.getLsbD 7
  · simp
  · simp

/-- An LFO control write on its two channels, and on the others (46_register_writes.md R211). -/
theorem writeLfoctrl_chan (v : Byte) (p : Psg) (d : ChanIdx) :
    (writeLfoctrl v p).chan d
      = if d = 0 ∨ d = 1 then
          { (if d = 1 ∧ v.getLsbD 7 = true then rewind (p.chan 1) else p.chan d) with
            freqCache := freqPeriod (writeLfoctrl v p) d, outputFunction := chanFn (writeLfoctrl v p) d }
        else p.chan d := by
  have hstore := storeLfoctrl_chan v (if haltBit v then p.modChan 1 rewind else p) d
  rw [lfoTrigger_chan] at hstore
  rw [writeLfoctrl, hstore]
  split
  · rfl
  · next hd => exact if_neg fun h => hd (.inr h.1)

/-- Settles O48: the rate is a store alone; the control byte is stored after the trigger, which reads the old
period. -/
theorem lfoWrites : Obligations.LfoWrites := by
  intro ts v s hready _
  have hready' := update_ready ts hready
  obtain ⟨hhr, hover⟩ := (blind_writeLfoctrl v).keeps (update ts s.psg)
  refine ⟨⟨_, exec_of_store hready rfl (blind_writeLfofreq v) rfl, rfl, rfl, rfl, rfl, rfl, rfl, fun _ => rfl⟩,
    _, exec_of_store hready rfl (blind_writeLfoctrl v) rfl, rfl, rfl, writeLfoctrl_g v _, ?_, ?_, ?_, hhr, ?_,
    hover.trans hready'.2⟩
  · rw [writeLfoctrl_chan]
    rfl
  · rw [writeLfoctrl_chan, if_pos (.inr rfl)]
    simp only [true_and]
    rfl
  · intro d h0 h1
    rw [writeLfoctrl_chan, if_neg (not_or.2 ⟨h0, h1⟩)]
  · unfold writeLfoctrl
    split <;> rfl

/-! ### No channel selected -/

/-- Settles O50: all six offsets are banked, and the bank holds no channel. -/
theorem noChannelSelectedWrites : Obligations.NoChannelSelectedWrites := by
  intro ts v s hready _ hselect
  have hflush {i : Instr} (f : ChanIdx → Psg → Psg)
      (h : effect s.psg i = onSelected f (update ts s.psg) ∧ returned s.psg i = .nothing) :
      exec i s = .next { s with psg := update ts s.psg, result := .nothing } :=
    exec_of_unselected hready h.2 hselect h.1
  simp only [List.forall_mem_cons]
  exact ⟨hflush (writeFreqLo v) ⟨rfl, rfl⟩, hflush (writeFreqHi v) ⟨rfl, rfl⟩, hflush (writeCtrl v) ⟨rfl, rfl⟩,
    hflush (writeBal v) ⟨rfl, rfl⟩, hflush (writeWave v) ⟨rfl, rfl⟩, hflush (writeNoise v) ⟨rfl, rfl⟩,
    List.forall_mem_nil _⟩

end Sys2Proof.Machine
end

section
/-! PROOFS. The select has no part in how time advances (46_register_writes.md R197): everything `Update` does commutes
with a store of it. -/

namespace Sys2Proof.Machine

/-! ### A store of the select -/

/-- The machine with `g.select` replaced (46_register_writes.md R197). -/
def Psg.withSelect (p : Psg) (k : BitVec 3) : Psg := p.modGlobal (fun g => { g with select := k })

/-- A change of the state that the condition of a loop does not see and its body commutes with commutes with the loop. -/
theorem loopWhile_commute {σ : Type} {guard : σ → Bool} {body θ : σ → σ} (hguard : ∀ s, guard (θ s) = guard s)
    (hbody : ∀ s, body (θ s) = θ (body s)) (n : Nat) (s : σ) :
    loopWhile guard body n (θ s) = θ (loopWhile guard body n s) := by
  induction n generalizing s with
  | zero => rfl
  | succ n ih =>
    simp only [loopWhile, hguard]
    split
    · rw [hbody, ih]
    · rfl

section
variable (k : BitVec 3) (p : Psg)

@[simp] theorem Psg.withSelect_chan (c : ChanIdx) : (p.withSelect k).chan c = p.chan c := rfl
@[simp] theorem modChan_withSelect (c : ChanIdx) (f : Chan → Chan) :
    (p.withSelect k).modChan c f = (p.modChan c f).withSelect k := rfl

/-! ### The injector -/

@[simp] theorem hrAdd_withSelect (b : Side) (i : Nat) (d : Int) :
    hrAdd b i d (p.withSelect k) = (hrAdd b i d p).withSelect k := by
  by_cases h : i < (p.hr.get b).len
  · rw [hrAdd_inside h]
    exact hrAdd_inside h
  · rw [hrAdd_outside h]
    exact hrAdd_outside h

@[simp] theorem addTaps_withSelect (b : Side) (d : Int) (i : Nat) (taps : List Int) :
    addTaps b d i taps (p.withSelect k) = (addTaps b d i taps p).withSelect k := by
  induction taps generalizing i p with
  | nil => rfl
  | cons tap taps ih => rw [addTaps, addTaps, hrAdd_withSelect, ih]

@[simp] theorem injectSide_withSelect (c : ChanIdx) (ts : Int) (b : Side) (lv : Int) :
    injectSide c ts b lv (p.withSelect k) = (injectSide c ts b lv p).withSelect k := by
  simp only [injectSide, Psg.withSelect_chan, addTaps_withSelect, modChan_withSelect]
  split <;> rfl

@[simp] theorem emit_withSelect (c : ChanIdx) (ts : Int) : emit c ts (p.withSelect k) = (emit c ts p).withSelect k := by
  have hlevel : level (p.withSelect k) c = level p c := rfl
  rw [emit, emit, inject, inject, hlevel, injectSide_withSelect, injectSide_withSelect]

/-! ### The run of a channel -/

@[simp] theorem noiseStep_withSelect (c : ChanIdx) (target : Int) :
    noiseStep c target (p.withSelect k) = (noiseStep c target p).withSelect k := by
  simp only [noiseStep, modChan_withSelect, Psg.withSelect_chan, emit_withSelect]
  split <;> rfl

@[simp] theorem noiseSection_withSelect (c : ChanIdx) (target elapsed : Int) :
    noiseSection c target elapsed (p.withSelect k) = (noiseSection c target elapsed p).withSelect k := by
  simp only [noiseSection, modChan_withSelect, Psg.withSelect_chan]
  split
  · exact loopWhile_commute (θ := (·.withSelect k)) (guard := noiseDue c) (fun _ => rfl)
      (fun q => noiseStep_withSelect k q c target) _ _
  · rfl

section
variable {after : Int → Psg → Psg} (hafter : ∀ sub q, after sub (q.withSelect k) = (after sub q).withSelect k)
include hafter

theorem waveStep_withSelect (c : ChanIdx) (target : Int) :
    waveStep after c target (p.withSelect k) = (waveStep after c target p).withSelect k := by
  simp only [waveStep, modChan_withSelect, Psg.withSelect_chan, emit_withSelect, hafter]

theorem waveSection_withSelect (c : ChanIdx) (target elapsed : Int) (live : Bool) :
    waveSection after c target elapsed live (p.withSelect k)
      = (waveSection after c target elapsed live p).withSelect k := by
  simp only [waveSection, modChan_withSelect, Psg.withSelect_chan]
  rw [apply_ite (Psg.withSelect · k)]
  exact if_congr Iff.rfl rfl (loopWhile_commute (θ := (·.withSelect k)) (guard := stepDue c) (fun _ => rfl)
    (fun q => waveStep_withSelect k q hafter c target) _ _)

theorem runWith_withSelect (c : ChanIdx) (target : Int) (live : Bool) :
    runWith after c target live (p.withSelect k) = (runWith after c target live p).withSelect k := by
  have hstopped (q : Psg) : stopped c (q.withSelect k) = stopped c q := rfl
  simp only [runWith, modChan_withSelect, Psg.withSelect_chan, emit_withSelect, noiseSection_withSelect, hstopped,
    waveSection_withSelect k _ hafter]
  split
  · rfl
  · split <;> rfl

end

@[simp] theorem runPlain_withSelect (c : ChanIdx) (target : Int) (live : Bool) :
    runPlain c target live (p.withSelect k) = (runPlain c target live p).withSelect k :=
  runWith_withSelect k p (fun _ _ => rfl) c target live

@[simp] theorem carrierAfter_withSelect (sub : Int) :
    carrierAfter sub (p.withSelect k) = (carrierAfter sub p).withSelect k := by
  rw [carrierAfter, runPlain_withSelect]
  rfl

@[simp] theorem runChannel_withSelect (c : ChanIdx) (target : Int) (live : Bool) :
    runChannel c target live (p.withSelect k) = (runChannel c target live p).withSelect k := by
  simp only [runChannel]
  split
  · exact runWith_withSelect k p (fun sub q => carrierAfter_withSelect k q sub) 0 target true
  · exact runPlain_withSelect k p c target live

theorem runAll_withSelect (target : Int) (live : Bool) :
    runAll target live (p.withSelect k) = (runAll target live p).withSelect k := by
  simp only [runAll, runChannel_withSelect]

/-! ### The crossfade machine and the chunks -/

@[simp] theorem xfadeSample_withSelect : xfadeSample (p.withSelect k) = (xfadeSample p).withSelect k := by
  have hphase : (p.withSelect k).g.xfPhase = p.g.xfPhase := rfl
  simp only [xfadeSample, hphase]
  cases phaseChan p.g.xfPhase <;> rfl

@[simp] theorem xfadeCommit_withSelect : xfadeCommit (p.withSelect k) = (xfadeCommit p).withSelect k := by
  have hphase : (p.withSelect k).g.xfPhase = p.g.xfPhase := rfl
  simp only [xfadeCommit, hphase]
  cases phaseChan p.g.xfPhase <;> rfl

theorem nextPhase_withSelect : (p.withSelect k).modGlobal nextPhase = (p.modGlobal nextPhase).withSelect k := by
  have hnext (g : Global) : nextPhase { g with select := k } = { nextPhase g with select := k } := by
    simp only [nextPhase]
    split
    · rfl
    · split <;> rfl
  exact Psg.ext_chan rfl (hnext p.g) (fun _ => rfl) rfl rfl

@[simp] theorem xfadeStep_withSelect : xfadeStep (p.withSelect k) = (xfadeStep p).withSelect k := by
  have hphase : (p.withSelect k).g.xfPhase = p.g.xfPhase := rfl
  rw [xfadeStep, xfadeStep, hphase, ← nextPhase_withSelect, xfadeSample_withSelect, xfadeCommit_withSelect,
    apply_ite (Psg.withSelect · k)]

theorem tickXfade_withSelect (n : Nat) : tickXfade n (p.withSelect k) = (tickXfade n p).withSelect k := by
  simp only [tickXfade]
  rw [apply_ite (Psg.withSelect · k), apply_ite (Psg.withSelect · k), ← xfadeStep_withSelect]
  rfl

theorem runChunk_withSelect (live : Bool) (n : Nat) :
    runChunk live n (p.withSelect k) = (runChunk live n p).withSelect k := by
  have hstamp : (p.withSelect k).g.lastTs = p.g.lastTs := rfl
  rw [runChunk_eq, runChunk_eq, hstamp, runAll_withSelect, tickXfade_withSelect]
  rfl

theorem chunkLoop_withSelect (live : Bool) (n : Nat) :
    chunkLoop live n (p.withSelect k) = (chunkLoop live n p).withSelect k := by
  have hloop := loopWhile_commute (guard := fun x : Nat × Psg => decide (0 < x.1)) (body := chunkStep live)
    (θ := fun x => (x.1, x.2.withSelect k)) (fun _ => rfl)
    (fun x => Prod.ext rfl (runChunk_withSelect k x.2 live (chunkLen x.1 x.2))) n (n, p)
  exact congrArg Prod.snd hloop

theorem beginUpdate_withSelect : beginUpdate (p.withSelect k) = (beginUpdate p).withSelect k := by
  have hstart : startXfade (p.withSelect k) = (startXfade p).withSelect k := by
    simp only [startXfade]
    rw [apply_ite (Psg.withSelect · k)]
    rfl
  rw [beginUpdate, hstart, beginUpdate]
  simp only [gateLfo]
  rw [apply_ite (Psg.withSelect · k)]
  rfl

/-- A store of the select before the flush is a store of it after the flush (46_register_writes.md R197). -/
theorem update_withSelect (ts : Int) : update ts (p.withSelect k) = (update ts p).withSelect k := by
  simp only [update, beginUpdate_withSelect]
  exact chunkLoop_withSelect k (beginUpdate p) (lfoLive (beginUpdate p)) (ts - p.g.lastTs).toNat

end

/-- Settles O41: the store is of the select alone, and no part of `Update` reads it. -/
theorem selectWrite : Obligations.SelectWrite := by
  refine ⟨fun ts v s => ⟨_, rfl, rfl, rfl, ⟨rfl, rfl, rfl, fun _ => rfl⟩, rfl, selectOf_toNat v, ?none,
    fun later _ => update_withSelect (selectOf v) s.psg later⟩, ?stores, fun ts v => ?encoding⟩
  case none =>
    intro h
    have hselect : 6 ≤ (writeSelect v s.psg).g.select.toNat := by rwa [writeSelect_g, selectOf_toNat]
    exact dif_neg (Nat.not_lt.2 hselect)
  case stores =>
    intro ts s t h
    rw [exec_effect h]
    rfl
  case encoding =>
    have hword : BitVec.ofNat 16 v.toNat = cword 0x0 0x0 v := by
      rw [← ofNat_eq_cword]
      exact congrArg _ (Nat.zero_add _).symm
    rw [hword]
    exact decode_encode (.wSelect ts v) rfl

end Sys2Proof.Machine
end

section
/-! PROOFS. Who raises a crossfade request (46_register_writes.md R215, 47_lifecycle_host.md R231, R235). -/

namespace Sys2Proof.Machine

/-! ### Advancing time withdraws requests and raises none -/

/-- The end of a phase may serve a request, but raises none (45_update_scheduler.md R189). -/
theorem nextPhase_pending {g : Global} (h : g.xfPending = false) : (nextPhase g).xfPending = false := by
  simp only [nextPhase]
  split
  · exact h
  · split
    · rfl
    · exact h

theorem xfadeStep_pending {p : Psg} (h : p.g.xfPending = false) : (xfadeStep p).g.xfPending = false := by
  rw [xfadeStep_g]
  refine nextPhase_pending ?_
  split
  · split <;> exact h
  · exact h

theorem runChunk_pending {p : Psg} (h : p.g.xfPending = false) (live : Bool) (k : Nat) :
    (runChunk live k p).g.xfPending = false := by
  have hrun : (runAll (p.g.lastTs + k) live p).g.xfPending = false := by rwa [runAll_g]
  rw [runChunk_eq, Psg.modGlobal_g]
  simp only [tickXfade]
  split
  · split
    · exact xfadeStep_pending hrun
    · exact hrun
  · exact hrun

/-- The start test serves a request, but raises none (45_update_scheduler.md R176). -/
theorem beginUpdate_pending {p : Psg} (h : p.g.xfPending = false) : (beginUpdate p).g.xfPending = false := by
  rw [beginUpdate_g, startXfade_g]
  split
  · rfl
  · exact h

/-- The flush of a write raises no request. -/
theorem update_pending {p : Psg} (ts : Int) (h : p.g.xfPending = false) : (update ts p).g.xfPending = false :=
  chunkLoop_inv (P := fun _ q => q.g.xfPending = false) (fun n q _ hq => runChunk_pending hq _ (chunkLen n q)) _ _
    (beginUpdate_pending h)

/-! ### The operations -/

/-- The operations that may raise a request (46_register_writes.md R215, 47_lifecycle_host.md R231, R235). -/
def RaisesRequest (i : Instr) : Prop :=
  (∃ ts v, i = .wGbal ts v) ∨ (∃ ts v, i = .wCtrl ts v) ∨ (∃ ts v, i = .wBal ts v)
    ∨ (∃ f v, i = .setreg f v) ∨ (∃ r, i = .load r ∧ r.xfPending = true)

/-- An operation of no other kind leaves a machine without a request without one. -/
theorem effect_pending {p : Psg} (h : p.g.xfPending = false) (i : Instr) :
    RaisesRequest i ∨ (effect p i).g.xfPending = false := by
  have hflush (ts : Int) : (update ts p).g.xfPending = false := update_pending ts h
  have hbank (ts : Int) {f : ChanIdx → Psg → Psg} (hf : ∀ c q, (f c q).g = q.g) :
      (onSelected f (update ts p)).g.xfPending = false :=
    onSelected_inv (P := fun q => q.g.xfPending = false) (hflush ts) fun c => by rw [hf, hflush]
  cases i with
  | wGbal ts v => exact .inl (.inl ⟨ts, v, rfl⟩)
  | wCtrl ts v => exact .inl (.inr (.inl ⟨ts, v, rfl⟩))
  | wBal ts v => exact .inl (.inr (.inr (.inl ⟨ts, v, rfl⟩)))
  | setreg f v => exact .inl (.inr (.inr (.inr (.inl ⟨f, v, rfl⟩))))
  | load r =>
    cases hr : r.xfPending with
    | true => exact .inl (.inr (.inr (.inr (.inr ⟨r, rfl, hr⟩))))
    | false =>
      right
      rw [effect, loadState_g]
      exact hr
  | wFreqLo ts v => exact .inr (hbank ts (writeFreqLo_g v))
  | wFreqHi ts v => exact .inr (hbank ts (writeFreqHi_g v))
  | wWave ts v => exact .inr (hbank ts (writeWave_g v))
  | wNoise ts v => exact .inr (hbank ts (writeNoise_g v))
  | wLfofreq ts v => exact .inr (hflush ts)
  | wLfoctrl ts v =>
    right
    rw [effect, writeLfoctrl_g]
    exact hflush ts
  | wRsvdA ts _ | wRsvdB ts _ | wRsvdC ts _ | wRsvdD ts _ | wRsvdE ts _ | wRsvdF ts _ | upd ts =>
    exact .inr (hflush ts)
  | wSelect | getreg | peek | save | poke => exact .inr h
  | pwr ts =>
    right
    rw [effect, power, powerReset_g]
    rfl
  | rts base =>
    right
    rw [effect, resetTs_g]
    exact h
  | constructRev0 | constructRevA =>
    right
    rw [effect, construct_eq]
    rfl

/-- Settles O34: every operation but the named ones leaves the request as the flush leaves it, or withdraws it. -/
theorem crossfadeRequestSources : Obligations.CrossfadeRequestSources := by
  intro i s t hexec hbefore hafter
  rcases effect_pending hbefore i with hraises | hnone
  · exact hraises
  · rw [exec_effect hexec, hnone] at hafter
    exact absurd hafter Bool.false_ne_true

end Sys2Proof.Machine
end

section
/-! PROOFS. The fault of a bad revision code, and the new time base (60_exceptions.md R255, 47_lifecycle_host.md
R229). -/

namespace Sys2Proof.Machine

/-- Settles O7: the decoder refuses the command as a bad revision, and that refusal is the fault. -/
theorem badRevisionIsFatal : Obligations.BadRevisionIsFatal := by
  intro s k rest hqueue hkind hcode
  have hrefused : decode k = .error .badRevision := decode_eq_error.mpr ⟨hkind, hcode⟩
  exact step_of_decode_error hqueue hrefused

/-- Settles O53: the new base is stored in the global record and in every channel, and nothing else is. -/
theorem timeBaseRebased : Obligations.TimeBaseRebased := fun base s _ =>
  ⟨_, rfl, rfl, rfl, resetTs_g base s.psg, resetTs_chan base s.psg, resetTs_hr base s.psg, resetTs_rev base s.psg,
    resetTs_hrOverrun base s.psg⟩

end Sys2Proof.Machine
end

section
/-! PROOFS. A machine as constructed stays silent (70_reset_and_hazards.md R279): its channels are off, so every injection
time brings presents the level 0 that was last injected. -/

namespace Sys2Proof.Machine

/-- A channel that is disabled and not in direct mode, presents no function, and last injected silence. Its
attenuations are free: the crossfade machine may move them. -/
structure Chan.Quiet (x : Chan) : Prop where
  control : x.control = Chan.reset.control
  off : x.outputFunction = .off
  prev : x.prev = ⟨0, 0⟩

/-- A channel with the function Off has the level 0 on both sides, whatever its attenuations (42_output_function.md
R131). -/
theorem level_of_off {p : Psg} {c : ChanIdx} (h : (p.chan c).outputFunction = .off) : level p c = ⟨0, 0⟩ := by
  rw [level, levelOn_off h, levelOn_off h]

/-- A quiet channel presents the level it last injected, so an emission changes nothing (43_injector.md R142). -/
theorem Chan.Quiet.emit {p : Psg} {c : ChanIdx} (h : (p.chan c).Quiet) (ts : Int) : emit c ts p = p := by
  rw [Machine.emit, level_of_off h.off, ← h.prev, inject_same]

/-- A channel whose control byte is the one of reset has the function Off, whatever its period (42_output_function.md
R129). -/
theorem chanFn_of_reset_control {p : Psg} {c : ChanIdx} (h : (p.chan c).control = Chan.reset.control) :
    chanFn p c = .off := by
  rw [chanFn, h]
  exact selectFn_off (channelOn_reset p.rev) _ _ _

/-- Every channel is quiet and the buffers are the ones given. -/
structure Psg.Silent (hr : Stereo Memory) (p : Psg) : Prop where
  buffers : p.hr = hr
  quiet : ∀ c, (p.chan c).Quiet

/-- A store of a quiet record keeps the machine silent. -/
theorem Psg.Silent.setChan {hr : Stereo Memory} {p : Psg} (h : p.Silent hr) {c : ChanIdx} {x : Chan} (hx : x.Quiet) :
    (p.setChan c x).Silent hr :=
  ⟨h.buffers, forall_chan_setChan (Q := fun _ x => x.Quiet) (fun d _ => h.quiet d) hx⟩

/-- Nothing that time does raises a silent machine's voice: emissions are void, a gating recompute finds its channel off,
and the rest edits neither control, function nor `prev`. -/
theorem silent_kept (hr : Stereo Memory) : Kept (Psg.Silent hr) where
  emit {p c} ts _ h := by rwa [(h.quiet c).emit ts]
  edit {p c} y _ h hy := by
    obtain ⟨hcontrol, hoff, hprev⟩ := h.quiet c
    refine h.setChan ?_
    rw [RunEdit] at hy
    rw [hy]
    exact ⟨hcontrol, hoff, hprev⟩
  tone {p} _ h := by
    obtain ⟨hcontrol, -, hprev⟩ := h.quiet 0
    have hfn : chanFn (recalcTone 0 p) 0 = .off :=
      chanFn_of_reset_control (by rw [recalcTone_chan, if_pos rfl]; exact hcontrol)
    rw [recalcTone_eq_setChan]
    exact h.setChan ⟨hcontrol, hfn, hprev⟩
  commit {p} c a h :=
    have ⟨hcontrol, hoff, hprev⟩ := h.quiet c
    h.setChan ⟨hcontrol, hoff, hprev⟩
  glob _ h _ := ⟨h.buffers, h.quiet⟩

/-- A machine as constructed is silent (10_state.md R59). -/
theorem fresh_silent (rev : Rev) (hr : Stereo Memory) : (Psg.fresh rev hr).Silent hr :=
  ⟨rfl, fun c => by rw [fresh_chan]; exact ⟨rfl, rfl, rfl⟩⟩

/-- Settles O30: silence holds of the constructed machine, and nothing that time does ends it. -/
theorem constructedMachineIsSilent : Obligations.ConstructedMachineIsSilent := by
  intro rev hr ts _
  have hsilent := (silent_kept hr).update ts (fresh_silent rev hr)
  exact ⟨hsilent.buffers, fun c => ⟨(hsilent.quiet c).prev, level_of_off (hsilent.quiet c).off⟩⟩

end Sys2Proof.Machine
end

section
/-! PROOFS. SETREG (47_lifecycle_host.md R231): which fields it accepts, and what the store and the cascade of each
accepted field do. -/

namespace Sys2Proof.Machine

/-! ### Accepted or declined -/

/-- SETREG accepts exactly the settable fields, whatever the value (30_encoding.md R101). -/
theorem setField_isSome (id : FieldId) (v : Int) (p : Psg) : (setField id v p).isSome = settable id := by
  cases id with
  | chan c f =>
    cases f with
    | nctrl =>
      by_cases hc : 4 ≤ c.val
      · simp only [setField, setChanField, settable, hc, if_true, Option.isSome_some, decide_true]
      · simp only [setField, setChanField, settable, hc, if_false, Option.isSome_none, decide_false]
    | _ => rfl
  | glob f => cases f <;> rfl

/-- A SETREG whose field is accepted completes with the machine after the store. -/
theorem exec_setreg_of_some {id : FieldId} {v : Int} {s : State} {q : Psg} (h : setField id v s.psg = some q) :
    exec (.setreg id v) s = .next { s with psg := q, result := .nothing } := by
  simp only [exec, execSetreg, h, answer]

/-- A SETREG whose field is refused completes with the answer `declined` (log 9). -/
theorem exec_setreg_of_none {id : FieldId} {v : Int} {s : State} (h : setField id v s.psg = none) :
    exec (.setreg id v) s = .next { s with result := .declined } := by
  simp only [exec, execSetreg, h, answer]

/-- Settles O57: no field but a settable one is accepted. -/
theorem unsettableFieldDeclined : Obligations.UnsettableFieldDeclined := by
  intro s id v hid
  have hnone : setField id v s.psg = none := by
    rw [← Option.isNone_iff_eq_none, ← Option.not_isSome, setField_isSome, hid, Bool.not_false]
  exact exec_setreg_of_none hnone

/-! ### The stores -/

/-- The repaired low 18 bits of an integer (47_lifecycle_host.md R231, R235). -/
theorem nonzeroLfsr_maskTo (v : Int) :
    nonzeroLfsr (maskTo 18 v) = if v % 2 ^ 18 = 0 then 1 else BitVec.ofInt 18 v := by
  have hzero : BitVec.ofInt 18 v = 0 ↔ v % 2 ^ 18 = 0 := by
    rw [← BitVec.toNat_inj, BitVec.toNat_ofInt]
    simp only [BitVec.ofNat_eq_ofNat, BitVec.toNat_ofNat]
    omega
  rw [nonzeroLfsr, maskTo]
  exact if_congr hzero rfl rfl

/-- What a store in a channel and the cascade after it leave in that channel (42_output_function.md R137). -/
theorem recalcTone_modChan_chan (c : ChanIdx) (f : Chan → Chan) (p : Psg) :
    (recalcTone c (p.modChan c f)).chan c
      = { f (p.chan c) with
          freqCache := freqPeriod (recalcTone c (p.modChan c f)) c
          outputFunction := chanFn (recalcTone c (p.modChan c f)) c } := by
  rw [recalcTone_chan, if_pos rfl, freqPeriod_recalcTone, Psg.chan_modChan, if_pos rfl]

/-- A store in a channel and the cascade after it touch no other channel. -/
theorem recalcTone_modChan_onlyChan (c : ChanIdx) (f : Chan → Chan) (p : Psg) :
    onlyChan c p (recalcTone c (p.modChan c f)) where
  rev := rfl
  hr := rfl
  overrun := rfl
  others d hd := by rw [recalcTone_other hd, Psg.chan_modChan, if_neg hd]

/-- A crossfade request touches no channel. -/
theorem onlyChan.requestXfade {c : ChanIdx} {p q : Psg} (h : onlyChan c p q) : onlyChan c p (requestXfade q) where
  rev := h.rev
  hr := h.hr
  overrun := h.overrun
  others := h.others

/-- SETREG of the noise control is the store of a noise write, without its flush (46_register_writes.md R209). -/
theorem setField_nctrl {c : ChanIdx} (hc : 4 ≤ c.val) (v : Int) (p : Psg) :
    setField (.chan c .nctrl) v p = some (writeNoise (maskTo 8 v) c p) := by
  simp only [setField, setChanField, writeNoise, hc, if_true]

/-- SETREG of a field without a cascade and without a request: one edit of the channel's record. -/
theorem exec_setreg_of_edit {c : ChanIdx} {f : ChanField} {v : Int} {s : State} {k : Chan → Chan}
    (h : setField (.chan c f) v s.psg = some (s.psg.modChan c k)) :
    ∃ t, exec (.setreg (.chan c f) v) s = .next t ∧ t.queue = s.queue ∧ t.result = .nothing
      ∧ onlyChan c s.psg t.psg ∧ t.psg.g = s.psg.g ∧ t.psg.chan c = k (s.psg.chan c) :=
  ⟨{ s with psg := s.psg.modChan c k, result := .nothing }, exec_setreg_of_some h, rfl, rfl,
    modChan_onlyChan s.psg c k, rfl, (Psg.chan_modChan s.psg c c k).trans (if_pos rfl)⟩

/-- Settles O55: each settable field of a channel is one store in it, with the cascade and the request of the matching
write. -/
theorem setChannelField : Obligations.SetChannelField := by
  intro s c v f hf
  cases f with
  | freq =>
    exact ⟨_, exec_setreg_of_some rfl, rfl, rfl, recalcTone_modChan_onlyChan .., rfl,
      fun _ => recalcTone_modChan_chan c (fun x => { x with frequency := maskTo 12 v }) s.psg,
      nofun, nofun, nofun, nofun, nofun, nofun⟩
  | ctrl =>
    refine ⟨_, exec_setreg_of_some rfl, rfl, rfl, (recalcTone_modChan_onlyChan ..).requestXfade, rfl,
      nofun, fun _ => ?_, nofun, nofun, nofun, nofun, nofun⟩
    rw [freqPeriod_requestXfade, chanFn_requestXfade]
    exact recalcTone_modChan_chan c (fun x => { x with control := maskTo 8 v }) s.psg
  | balance =>
    refine ⟨_, exec_setreg_of_some rfl, rfl, rfl, (modChan_onlyChan s.psg c _).requestXfade, rfl,
      nofun, nofun, fun _ => ?_, nofun, nofun, nofun, nofun⟩
    rw [requestXfade_chan, Psg.chan_modChan, if_pos rfl]
    rfl
  | nctrl =>
    have hc : 4 ≤ c.val := of_decide_eq_true hf
    exact ⟨_, exec_setreg_of_some (setField_nctrl hc v s.psg), rfl, rfl, writeNoise_onlyChan hc .., writeNoise_g ..,
      nofun, nofun, nofun, fun _ => (writeNoise_chan hc ..).trans (if_pos rfl), nofun, nofun, nofun⟩
  | windex =>
    obtain ⟨t, hexec, hqueue, hresult, honly, hglobal, hchan⟩ :=
      exec_setreg_of_edit (s := s) (c := c) (f := .windex) (v := v) rfl
    exact ⟨t, hexec, hqueue, hresult, honly, hglobal, nofun, nofun, nofun, nofun, fun _ => hchan, nofun, nofun⟩
  | ddalatch =>
    obtain ⟨t, hexec, hqueue, hresult, honly, hglobal, hchan⟩ :=
      exec_setreg_of_edit (s := s) (c := c) (f := .ddalatch) (v := v) rfl
    exact ⟨t, hexec, hqueue, hresult, honly, hglobal, nofun, nofun, nofun, nofun, nofun, fun _ => hchan, nofun⟩
  | lfsr =>
    obtain ⟨t, hexec, hqueue, hresult, honly, hglobal, hchan⟩ :=
      exec_setreg_of_edit (s := s) (c := c) (f := .lfsr) (v := v) rfl
    rw [nonzeroLfsr_maskTo] at hchan
    exact ⟨t, hexec, hqueue, hresult, honly, hglobal, nofun, nofun, nofun, nofun, nofun, nofun, fun _ => hchan⟩
  | _ => cases hf

/-- The channels of the LFO are 0 and 1. -/
theorem lfoChan_iff : ∀ c : ChanIdx, c = 0 ∨ c = 1 ↔ c.val ≤ 1 := by decide

/-- Settles O56: each settable global field is one store in the global record; only the LFO control recomputes, and only
channels 0 and 1. -/
theorem setGlobalField : Obligations.SetGlobalField := by
  intro s v f hf
  cases f with
  | lfoctrl =>
    refine ⟨_, exec_setreg_of_some rfl, rfl, rfl, rfl, rfl, rfl, nofun, nofun, nofun, fun _ => rfl, fun c => ?_⟩
    simp only [true_and]
    exact (storeLfoctrl_chan (maskTo 8 v) s.psg c).trans (if_congr (lfoChan_iff c) rfl rfl)
  | select =>
    exact ⟨_, exec_setreg_of_some rfl, rfl, rfl, rfl, rfl, rfl, fun _ => rfl, nofun, nofun, nofun, fun _ => rfl⟩
  | gbal =>
    exact ⟨_, exec_setreg_of_some rfl, rfl, rfl, rfl, rfl, rfl, nofun, fun _ => rfl, nofun, nofun, fun _ => rfl⟩
  | lfofreq =>
    exact ⟨_, exec_setreg_of_some rfl, rfl, rfl, rfl, rfl, rfl, nofun, nofun, fun _ => rfl, nofun, fun _ => rfl⟩
  | _ => cases hf

end Sys2Proof.Machine
end

section
/-! PROOFS. LOAD, and SAVE followed by LOAD (47_lifecycle_host.md R235, R237). -/

namespace Sys2Proof.Machine

/-! ### The repairs -/

/-- A countdown from a record is at least 1 (47_lifecycle_host.md R235). -/
theorem atLeastOne_eq_max (v : Int) : atLeastOne v = max 1 v := by
  unfold atLeastOne
  split <;> omega

/-- The crossfade countdown from a record lies between 0 and 255 (47_lifecycle_host.md R235). -/
theorem clampCountdown_cast (v : Int) : (clampCountdown v : Int) = max 0 (min 255 v) := by
  unfold clampCountdown
  split
  · omega
  · split <;> omega

/-- The crossfade phase from a record counts modulo 24 (47_lifecycle_host.md R235). -/
theorem loadGlobal_xfPhase_cast (r : Record) : ((loadGlobal r).xfPhase : Int) = r.xfPhase % 24 :=
  Int.toNat_of_nonneg (Int.emod_nonneg _ (by decide))

/-- A waveform cell from a record is its low five bits (47_lifecycle_host.md R235). -/
theorem loadChan_waveform (c : ChanIdx) (r : ChanRecord) (x : Chan) (i : Nat) (h : i < 32) :
    (loadChan c r x).waveform[i] = BitVec.ofInt 5 r.waveform[i] := by
  simp only [loadChan, maskTo, Vector.getElem_map]

/-- Settles O59: the global record and each channel record are the repaired ones of the record, and the recompute that
follows makes every cache fresh. -/
theorem loadRepairs : Obligations.LoadRepairs := by
  intro r s
  refine ⟨_, rfl, rfl, rfl, loadState_hr r s.psg, loadState_rev r s.psg, loadState_hrOverrun r s.psg,
    loadState_cacheFresh r s.psg, ?_⟩
  rw [loadState_g]
  refine ⟨rfl, rfl, rfl, rfl, rfl, rfl, clampCountdown_cast r.xfCountdown, loadGlobal_xfPhase_cast r, rfl,
    fun c => ?_⟩
  obtain ⟨f, n, o, hchan⟩ := loadState_chan r s.psg c
  rw [hchan]
  exact ⟨rfl, rfl, rfl, rfl, loadChan_waveform c _ (s.psg.chan c), rfl, rfl, rfl, rfl, rfl, nonzeroLfsr_maskTo _,
    atLeastOne_eq_max _, atLeastOne_eq_max _, rfl⟩

/-! ### A saved machine needs no repair -/

/-- Masking the number of a word to the word's own width gives the word back. -/
@[simp] theorem maskTo_toNat {n : Nat} (x : BitVec n) : maskTo n (x.toNat : Int) = x := by
  rw [maskTo, BitVec.ofInt_natCast, BitVec.ofNat_toNat, BitVec.setWidth_eq]

/-- A crossfade machine within its ranges survives save and restore, as the registers do (10_state.md R27, R28). -/
theorem loadGlobal_saveState {p : Psg} (hphase : p.g.xfPhase < xfadeSteps) (hcountdown : p.g.xfCountdown ≤ 255) :
    loadGlobal (saveState p) = p.g := by
  have hclamp : clampCountdown (p.g.xfCountdown : Int) = p.g.xfCountdown := by
    have hcast := clampCountdown_cast p.g.xfCountdown
    omega
  have hmod : ((p.g.xfPhase : Int) % (xfadeSteps : Int)).toNat = p.g.xfPhase := by
    rw [← Int.natCast_mod, Int.toNat_natCast, Nat.mod_eq_of_lt hphase]
  simp only [loadGlobal, saveState, maskTo_toNat, hclamp, hmod]

/-- The cells of a saved waveform are restored. -/
theorem map_maskTo_toNat (w : Vector Sample 32) : (w.map (fun s => (s.toNat : Int))).map (maskTo 5) = w := by
  simp only [Vector.map_map, Function.comp_def, maskTo_toNat, Vector.map_id_fun', id]

/-- On a sound channel no repair of `LoadState` changes what `SaveState` wrote (10_state.md R33, R47, R50 to R52). -/
theorem loadChan_saveChan {c : ChanIdx} {x : Chan} (h : x.Sound c) : loadChan c (saveChan x) x = x := by
  have hnoise : (if 4 ≤ c.val then x.noiseControl else 0) = x.noiseControl := by
    split
    · rfl
    · next hc => exact (h.no_noise (Nat.lt_of_not_le hc)).symm
  have hlfsr : nonzeroLfsr x.lfsr = x.lfsr := if_neg h.lfsr_ne
  have hcounter : atLeastOne x.counter = x.counter := by
    rw [atLeastOne_eq_max, max_eq_right h.counter_pos]
  have hcount : atLeastOne x.noiseCount = x.noiseCount := by
    rw [atLeastOne_eq_max, max_eq_right h.noise_count_pos]
  simp only [loadChan, saveChan, maskTo_toNat, map_maskTo_toNat, hnoise, hlfsr, hcounter, hcount, ← h.sum]

/-! ### Fresh caches are determined by the rest -/

/-- `y` differs from `x` at most in the three caches. -/
def CacheEdit (x y : Chan) : Prop :=
  y = { x with freqCache := y.freqCache, noiseFreqCache := y.noiseFreqCache, outputFunction := y.outputFunction }

/-- Two machines with fresh caches that agree in all the rest have the same channels (47_lifecycle_host.md R237). -/
theorem Psg.cacheFresh.chan_eq {p q : Psg} (hp : p.cacheFresh) (hq : q.cacheFresh) (hrev : q.rev = p.rev)
    (hg : q.g = p.g) (hedit : ∀ c, CacheEdit (p.chan c) (q.chan c)) (c : ChanIdx) : q.chan c = p.chan c := by
  have hkeep (d : ChanIdx) : (q.chan d).frequency = (p.chan d).frequency ∧ (q.chan d).control = (p.chan d).control
      ∧ (q.chan d).noiseControl = (p.chan d).noiseControl ∧ (q.chan d).ddaLatch = (p.chan d).ddaLatch := by
    have hd := hedit d
    rw [CacheEdit] at hd
    rw [hd]
    exact ⟨rfl, rfl, rfl, rfl⟩
  obtain ⟨hfrequency, hcontrol, hnoiseControl, -⟩ := hkeep c
  obtain ⟨-, -, -, hlatch⟩ := hkeep 1
  obtain ⟨hpfreq, hpnoise, hpfn⟩ := hp c
  obtain ⟨hqfreq, hqnoise, hqfn⟩ := hq c
  have hfreq : (q.chan c).freqCache = (p.chan c).freqCache := by
    rw [hqfreq, hpfreq, freqPeriod_congr (by rw [hg]) (by rw [hg]) c hfrequency hlatch]
  have hnoise : (q.chan c).noiseFreqCache = (p.chan c).noiseFreqCache := by rw [hqnoise, hpnoise, hnoiseControl]
  have hfn : (q.chan c).outputFunction = (p.chan c).outputFunction := by
    rw [hqfn, hpfn, chanFn_congr c hrev hcontrol hnoiseControl hfreq fun _ => lfoOn_congr (by rw [hg])]
  rw [hedit c, hfreq, hnoise, hfn]

/-- Restoring what `SaveState` returned changes nothing but the caches of a machine that meets the invariants. -/
theorem loadState_saveState_cacheEdit {p : Psg} (h : p.Inv) (c : ChanIdx) :
    CacheEdit (p.chan c) ((loadState (saveState p) p).chan c) := by
  obtain ⟨f, n, o, hchan⟩ := loadState_chan (saveState p) p c
  rw [saveState_chan, loadChan_saveChan (h.sound c)] at hchan
  rw [hchan]
  rfl

/-- With fresh caches, restoring what `SaveState` returned is the identity (47_lifecycle_host.md R237). -/
theorem loadState_saveState {p : Psg} (h : p.Inv) (hfresh : p.cacheFresh) : loadState (saveState p) p = p := by
  have hg : (loadState (saveState p) p).g = p.g := by
    rw [loadState_g, loadGlobal_saveState h.phase h.countdown]
  have hrev : (loadState (saveState p) p).rev = p.rev := loadState_rev ..
  exact Psg.ext_chan hrev hg
    (hfresh.chan_eq (loadState_cacheFresh _ p) hrev hg (loadState_saveState_cacheEdit h))
    (loadState_hr ..) (loadState_hrOverrun ..)

/-- Settles O60: a LOAD always ends with fresh caches, and of a machine that had them it restores every field. -/
theorem saveLoadRoundTrip : Obligations.SaveLoadRoundTrip := by
  intro s hinv
  constructor
  · intro hload
    have hpsg : s.psg = loadState (saveState s.psg) s.psg := (State.mk.inj (exec_effect hload)).1
    rw [hpsg]
    exact loadState_cacheFresh _ s.psg
  · intro hfresh
    simp only [exec, execLoad, answer, loadState_saveState hinv hfresh]

end Sys2Proof.Machine
end
